-- ==== Sys2Proof/Word.lean ====
section
/-! DEFINITION. The word types of the block: a byte of memory or of a sample, a 16-bit buffer element or half
register, and a 32-bit register or command word (10_state.md R23, R40 to R46). -/

namespace Sys2Proof

/-- One byte: an external-memory cell, a sample, a quantization divisor. -/
abbrev Byte := BitVec 8
/-- Sixteen bits: a coefficient-buffer element, a DC predictor, half of FRAME or MCUPOS. -/
abbrev Half := BitVec 16
/-- Thirty-two bits: a register, a command word, a master-port address, a frequency counter. -/
abbrev Word := BitVec 32

end Sys2Proof
end

