-- ==== Sys2Proof/Syntax.lean ====
section
/-! DEFINITION. The twelve commands of the opcode map (30_encoding.md R105), one constructor per row of
spec/opcode_table.json, with the operands of R103 as named things. -/

namespace Sys2Proof

/-- The colour component named by the C field of ENC_BLOCK (30_encoding.md R103). -/
inductive Component where
  | y | cb | cr
  deriving DecidableEq, Repr

/-- The quantization table named by the T field of QUANT (30_encoding.md R103). -/
inductive QSel where
  | luma | chroma
  deriving DecidableEq, Repr

/-- The commands (30_encoding.md R105). -/
inductive Instr where
  /-- NOP, 44_sequencer.md R230. -/
  | nop
  /-- DC_RESET, 43_entropy.md R220. -/
  | dcReset
  /-- FREQ_CLEAR, 43_entropy.md R221. -/
  | freqClear
  /-- LOAD_MCU, 40_csc.md R135. -/
  | loadMcu
  /-- FDCT B with B in 0..5, 41_fdct.md R150. -/
  | fdct (b : Fin 6)
  /-- QUANT T, 42_quant_zigzag.md R170. -/
  | quant (t : QSel)
  /-- ZIGZAG, 42_quant_zigzag.md R177. -/
  | zigzag
  /-- ENC_BLOCK C, 43_entropy.md R210. -/
  | encBlock (c : Component)
  /-- PUTBITS V, N, 43_entropy.md R222: v is V mod 2^N, n is N. -/
  | putbits (v : Half) (n : BitVec 5)
  /-- FLUSH, 43_entropy.md R223. -/
  | flush
  /-- ENC_MCU, 44_sequencer.md R231. -/
  | encMcu
  /-- ENC_SCAN, 44_sequencer.md R232. -/
  | encScan
  deriving DecidableEq, Repr

end Sys2Proof
end

