-- ==== Sys2Proof/WellFormed.lean ====
section
/-! DEFINITION. Which instructions are well formed: the operand ranges of 30_encoding.md R103 and R106 that the
types of Syntax.lean do not already give. -/

namespace Sys2Proof

/-- PUTBITS has a bit count N in 1..16 and, in the canonical form of R107 and R108, a pattern below 2^N; the
operands of every other command are legal by their types. -/
def Instr.wf : Instr → Bool
  | .nop => true
  | .dcReset => true
  | .freqClear => true
  | .loadMcu => true
  | .fdct _ => true
  | .quant _ => true
  | .zigzag => true
  | .encBlock _ => true
  | .putbits v n => decide (1 ≤ n.toNat) && decide (n.toNat ≤ 16) && decide (v.toNat < 2 ^ n.toNat)
  | .flush => true
  | .encMcu => true
  | .encScan => true

end Sys2Proof
end

