-- ==== Sys2Proof/Decode.lean ====
section
/-! DEFINITION. The decoder of command words, total on all words and rejecting by name (30_encoding.md R101 to
R107), and the encoder of well-formed commands (R108). -/

namespace Sys2Proof

/-- Why a word is no command (30_encoding.md R106); `length` is for a byte list that is not one word (R101). -/
inductive DecodeError where
  /-- OP is not one of the twelve opcodes of R105. -/
  | opcode
  /-- a reserved bit of the opcode's format is 1. -/
  | reserved
  /-- FDCT with B = 6 or B = 7. -/
  | block
  /-- ENC_BLOCK with C = 3. -/
  | component
  /-- PUTBITS with N = 0 or N above 16. -/
  | count
  /-- not exactly four bytes. -/
  | length
  deriving DecidableEq, Repr

/-- The opcode OP = w[7:0] (R102). -/
def opcodeOf (w : Word) : Byte := w.extractLsb' 0 8

/-- The low n bits of a PUTBITS pattern, V mod 2^N (R103). -/
def lowBits (v : Half) (n : Nat) : Half := BitVec.ofNat 16 (v.toNat % 2 ^ n)

/-- Format Z: bits 31..8 are reserved (R102). -/
def formatZ (w : Word) (i : Instr) : Except DecodeError Instr :=
  if w.extractLsb' 8 24 = 0#24 then .ok i else .error .reserved

/-- Format B: B = w[10:8], bits 31..11 reserved; B in 0..5 (R102, R106). -/
def formatB (w : Word) : Except DecodeError Instr :=
  if w.extractLsb' 11 21 ≠ 0#21 then .error .reserved
  else if h : (w.extractLsb' 8 3).toNat < 6 then .ok (.fdct ⟨(w.extractLsb' 8 3).toNat, h⟩)
  else .error .block

/-- Format T: T = w[8], bits 31..9 reserved (R102). -/
def formatT (w : Word) : Except DecodeError Instr :=
  if w.extractLsb' 9 23 ≠ 0#23 then .error .reserved
  else .ok (.quant (if w.extractLsb' 8 1 = 0#1 then .luma else .chroma))

/-- Format C: C = w[9:8], bits 31..10 reserved; C in 0..2 (R102, R106). -/
def formatC (w : Word) : Except DecodeError Instr :=
  if w.extractLsb' 10 22 ≠ 0#22 then .error .reserved
  else if w.extractLsb' 8 2 = 0#2 then .ok (.encBlock .y)
  else if w.extractLsb' 8 2 = 1#2 then .ok (.encBlock .cb)
  else if w.extractLsb' 8 2 = 2#2 then .ok (.encBlock .cr)
  else .error .component

/-- Format P: N = w[12:8] in 1..16, V = w[31:16] of which the low N bits count, bits 15..13 reserved
(R102, R103, R106). -/
def formatP (w : Word) : Except DecodeError Instr :=
  if w.extractLsb' 13 3 ≠ 0#3 then .error .reserved
  else if 1 ≤ (w.extractLsb' 8 5).toNat ∧ (w.extractLsb' 8 5).toNat ≤ 16 then
    .ok (.putbits (lowBits (w.extractLsb' 16 16) (w.extractLsb' 8 5).toNat) (w.extractLsb' 8 5))
  else .error .count

/-- The decoder (R105, R106): the opcode selects the format, and every other word is rejected by name. -/
def decode (w : Word) : Except DecodeError Instr :=
  if opcodeOf w = 0x00#8 then formatZ w .nop
  else if opcodeOf w = 0x01#8 then formatZ w .dcReset
  else if opcodeOf w = 0x02#8 then formatZ w .freqClear
  else if opcodeOf w = 0x10#8 then formatZ w .loadMcu
  else if opcodeOf w = 0x20#8 then formatB w
  else if opcodeOf w = 0x21#8 then formatT w
  else if opcodeOf w = 0x22#8 then formatZ w .zigzag
  else if opcodeOf w = 0x30#8 then formatC w
  else if opcodeOf w = 0x31#8 then formatP w
  else if opcodeOf w = 0x32#8 then formatZ w .flush
  else if opcodeOf w = 0x40#8 then formatZ w .encMcu
  else if opcodeOf w = 0x41#8 then formatZ w .encScan
  else .error .opcode

/-- A command given as bytes: one 32-bit word (R101), least significant byte first, the lane order of the
register port (20_memory.md R73). -/
def decodeBytes : List Byte → Except DecodeError Instr
  | [b0, b1, b2, b3] =>
    decode (BitVec.ofNat 32 (b0.toNat + b1.toNat * 2 ^ 8 + b2.toNat * 2 ^ 16 + b3.toNat * 2 ^ 24))
  | _ => .error .length

/-- The C field of a component (R103). -/
def componentCode : Component → Nat
  | .y => 0
  | .cb => 1
  | .cr => 2

/-- The T field of a quantization table (R103). -/
def qselCode : QSel → Nat
  | .luma => 0
  | .chroma => 1

/-- The encoder: the word of each command, each field at its place in the format table (R102, R108). -/
def encode : Instr → Word
  | .nop => 0x00#32
  | .dcReset => 0x01#32
  | .freqClear => 0x02#32
  | .loadMcu => 0x10#32
  | .fdct b => BitVec.ofNat 32 (b.val * 2 ^ 8 + 0x20)
  | .quant t => BitVec.ofNat 32 (qselCode t * 2 ^ 8 + 0x21)
  | .zigzag => 0x22#32
  | .encBlock c => BitVec.ofNat 32 (componentCode c * 2 ^ 8 + 0x30)
  | .putbits v n => BitVec.ofNat 32 (v.toNat % 2 ^ n.toNat * 2 ^ 16 + n.toNat * 2 ^ 8 + 0x31)
  | .flush => 0x32#32
  | .encMcu => 0x40#32
  | .encScan => 0x41#32

/-- The instruction the decoder reads from an instruction whose bits are w, numbered as the opcode table numbers
them. A command is one 32-bit word (R101), so bits above nbits are 0. -/
def decodeTableWord (nbits w : Nat) : Option Instr :=
  match decode (BitVec.ofNat 32 (w % 2 ^ nbits)) with
  | .ok i => some i
  | .error _ => none

end Sys2Proof
end

