-- ==== Sys2Proof/Config.lean ====
section
/-! DEFINITION. What the spec leaves open for good: the free values. -/

namespace Sys2Proof

/-- The n-th free value: what the spec calls "any value", "a fresh draw under no law, different on every
occurrence" (93_implementation_defined.md, 00_scope.md R15). It has no body, so nothing can be proved of a value
of it; State.draws counts how many have been taken (notes/assumptions/1.md). Unsafe only for a claim that names
one of these values; safe otherwise. -/
opaque Config.free : Nat → Word

end Sys2Proof
end

