-- ==== Sys2Proof/Machine/State.lean ====
section
/-! DEFINITION. The state of the block, of its platform and of the transactions still to come, as plain data, and
the state after a hard reset (10_state.md, 70_reset_and_hazards.md R290, R293). -/

namespace Sys2Proof.Machine

/-- Sparse storage: a list of index and value pairs, indices rising in its canonical form. An index that is not
listed holds no value: the spec's unwritten entry (60_exceptions.md R268). -/
abbrev Store (α : Type) := List (Nat × α)

/-- CTRL (10_state.md R25). SRST has no storage. -/
structure Ctrl where
  mode : BitVec 2
  infmt : BitVec 2
  stats : Bool
  acmode : Bool
  deriving DecidableEq, Repr

/-- STATUS (R27). -/
structure Status where
  busy : Bool
  fault : Bool
  cmdRej : Bool
  wIgn : Bool
  errCode : Byte
  deriving DecidableEq, Repr

/-- FRAME (R28): width and height in pixels. -/
structure Frame where
  w : Half
  h : Half
  deriving DecidableEq, Repr

/-- MCUPOS (R29): MCU column and row. -/
structure McuPos where
  mx : Half
  my : Half
  deriving DecidableEq, Repr

/-- PACK (R33): the number of pending bits and the pending bits, the newest at bit 0. -/
structure Pack where
  cnt : BitVec 3
  acc : BitVec 7
  deriving DecidableEq, Repr

/-- The two bits of IRQEN (R35) and of IRQSTAT (R36). -/
structure IrqBits where
  done : Bool
  fault : Bool
  deriving DecidableEq, Repr

/-- One Huffman table entry (R41). -/
structure HuffEntry where
  code : Half
  len : BitVec 5
  deriving DecidableEq, Repr

/-- The kinds of master-port transaction (20_memory.md R75). -/
inductive AccessKind where
  | read | write
  deriving DecidableEq, Repr

/-- The addresses from lo up to but not including hi. -/
structure AddrRange where
  lo : Nat
  hi : Nat
  deriving DecidableEq, Repr

/-- Addresses whose transactions of one kind end with an error: `BusError` (20_memory.md R75) as data. -/
structure BusErrRange where
  kind : AccessKind
  range : AddrRange
  deriving DecidableEq, Repr

/-- One event outside the engine, or the engine's turn (00_scope.md R9, 60_exceptions.md R261). -/
inductive Event where
  /-- register-port write: byte offset, width in bits, data (20_memory.md R71, R72). -/
  | regWrite (off : BitVec 16) (width : Nat) (data : Word)
  /-- register-port read: byte offset, width in bits. -/
  | regRead (off : BitVec 16) (width : Nat)
  /-- the host or another agent writes a byte of external memory directly (R75). -/
  | memWrite (addr : Word) (b : Byte)
  /-- the host reads a byte of external memory directly. -/
  | memRead (addr : Word)
  /-- rst_n goes low and high again (70_reset_and_hazards.md R290). -/
  | hardReset
  /-- the engine takes its step before the events that follow. -/
  | engine
  deriving DecidableEq, Repr

/-- The answer to the last host transaction (20_memory.md R71, R72). -/
inductive PortResponse where
  /-- no transaction yet. -/
  | idle
  /-- a write was answered. -/
  | done
  /-- a register-port read returned a word. -/
  | data (w : Word)
  /-- a memory read returned a byte. -/
  | byte (b : Byte)
  /-- the register port answered with an error response (R72). -/
  | busError
  deriving DecidableEq, Repr

/-- The tables and buffers that have no reset value (70_reset_and_hazards.md R293). -/
inductive Region where
  | qtab | huff | freq | blk | coef | qcoef | zzbuf
  deriving DecidableEq, Repr

/-- How a step of the machine stops. -/
inductive Fault where
  /-- Raised by a command (FDCT, QUANT, ZIGZAG, ENC_BLOCK, ENC_MCU, ENC_SCAN) that reads a table or buffer entry
  nobody has written since power-on: the model fault `unwritten(region, index)` of 60_exceptions.md R268, index
  counted over the whole region in offset order. Safe: the chip goes on with some value. -/
  | unwritten (region : Region) (index : Nat)
  deriving DecidableEq, Repr

/-- Why the model gives an instruction no meaning. -/
inductive Refusal where
  /-- Raised by exec for an instruction that has no meaning yet, by name; raised for none now. Safe. -/
  | notModelled (mnemonic : String)
  deriving DecidableEq, Repr

/-- The fault codes of the block (60_exceptions.md R251). -/
inductive FaultCode where
  | illegalCmd | config | qzero | catOvf | huffMissing | dstOvf | busErr
  deriving DecidableEq, Repr

/-- The state (10_state.md R20), the platform's memory and parameters (20_memory.md R75), and the model's own
fields. -/
structure State where
  /-- CTRL, R25. -/
  ctrl : Ctrl
  /-- STATUS, R27. -/
  status : Status
  /-- LASTCMD, R26. -/
  lastCmd : Word
  /-- FRAME, R28. -/
  frame : Frame
  /-- MCUPOS, R29. -/
  mcuPos : McuPos
  /-- SRC0, SRC1, SRC2, STRIDE, R30. -/
  src0 : Word
  src1 : Word
  src2 : Word
  stride : Word
  /-- DSTPTR, DSTLIM, R31. -/
  dstPtr : Word
  dstLim : Word
  /-- DCPRED0, DCPRED1, DCPRED2, R32. -/
  dcPred0 : Half
  dcPred1 : Half
  dcPred2 : Half
  /-- PACK, R33. -/
  pack : Pack
  /-- ERRINFO, R34. -/
  errInfo : Word
  /-- IRQEN, R35. -/
  irqEn : IrqBits
  /-- IRQSTAT, R36. -/
  irqStat : IrqBits
  /-- QTAB, R40: entry i of table T at index 64*T + i. -/
  qtab : Store Byte
  /-- HUFF, R41: entry s of table t at index 256*t + s. -/
  huff : Store HuffEntry
  /-- FREQ, R42: counter s of table t at index 256*t + s. -/
  freq : Store Word
  /-- BLK, R43: sample i of block b at index 64*b + i. -/
  blk : Store Byte
  /-- COEF, R44. -/
  coef : Store Half
  /-- QCOEF, R45. -/
  qcoef : Store Half
  /-- ZZBUF, R46. -/
  zzbuf : Store Half
  /-- External memory (20_memory.md R75): a total map; an address that is not listed reads as 0
  (notes/assumptions/2.md). -/
  mem : List Host.Cell
  /-- The platform's `BusError` (R75); no step changes it (notes/assumptions/3.md). -/
  busErr : List BusErrRange
  /-- Addresses of the platform whose reads have side effects (20_memory.md R80); no step changes it
  (notes/assumptions/4.md). -/
  volatileSrc : List AddrRange
  /-- MODEL: addresses at which the running command reads any value (70_reset_and_hazards.md R302, R303). -/
  racySrc : List AddrRange
  /-- MODEL: addresses at which a byte the running command writes ends as any value (R302). -/
  racyDst : List AddrRange
  /-- MODEL: how many free values were taken (notes/assumptions/1.md). -/
  draws : Nat
  /-- MODEL: the transactions of the host and the platform still to come (notes/assumptions/6.md). -/
  inputs : List Event
  /-- MODEL: the answer to the last host transaction. -/
  resp : PortResponse
  deriving DecidableEq, Repr

/-- The machine right after a hard reset at power-on (70_reset_and_hazards.md R290, R293): the reset value of
every register, no value in any table or buffer; for the memory, the platform's parameters and the model's own
fields see notes/assumptions/1.md to 6.md. -/
def State.reset : State where
  ctrl := ⟨2#2, 0#2, false, true⟩
  status := ⟨false, false, false, false, 0#8⟩
  lastCmd := 0#32
  frame := ⟨0#16, 0#16⟩
  mcuPos := ⟨0#16, 0#16⟩
  src0 := 0#32
  src1 := 0#32
  src2 := 0#32
  stride := 0#32
  dstPtr := 0#32
  dstLim := 0#32
  dcPred0 := 0#16
  dcPred1 := 0#16
  dcPred2 := 0#16
  pack := ⟨0#3, 0#7⟩
  errInfo := 0#32
  irqEn := ⟨false, false⟩
  irqStat := ⟨false, false⟩
  qtab := []
  huff := []
  freq := []
  blk := []
  coef := []
  qcoef := []
  zzbuf := []
  mem := []
  busErr := []
  volatileSrc := []
  racySrc := []
  racyDst := []
  draws := 0
  inputs := []
  resp := .idle

/-- How the body of a command stops before its end, with the state it had reached: with a fault of the block
(60_exceptions.md R252), or at an unwritten entry (R268). -/
inductive Halt where
  | raise (code : FaultCode) (info : Word) (reached : State)
  | unwritten (region : Region) (index : Nat) (reached : State)
  deriving DecidableEq, Repr

/-- What a command writes besides STATUS, IRQSTAT and ERRINFO: the "Writes" of its rule, which decides what holds
any value after a fault (60_exceptions.md R253(d)), after a reset during the command (70_reset_and_hazards.md
R292) and for a host read while it runs (R301). -/
structure Footprint where
  /-- the sample blocks. -/
  blks : List Nat
  coef : Bool
  qcoef : Bool
  zzbuf : Bool
  /-- the predictors, by component. -/
  preds : List Component
  pack : Bool
  /-- DSTPTR and the output bytes. -/
  stream : Bool
  /-- the counter tables. -/
  freqs : List Nat
  mcuPos : Bool
  deriving DecidableEq, Repr

end Sys2Proof.Machine
end

