-- ==== Sys2Proof/Machine/Flags.lean ====
section
/-! DEFINITION. The words of the registers and table entries as the register port shows them, with reserved bits 0
(10_state.md R24 to R36, R40 to R46), how a written word is taken apart, the fault code numbers and the interrupt
line. -/

namespace Sys2Proof.Machine

/-- ID (R24). -/
def idWord : Word := 0x4A500001#32

/-- CTRL as read (R25): SRST and bits 31..7 read 0. -/
def ctrlWord (c : Ctrl) : Word :=
  BitVec.ofNat 32 (c.mode.toNat * 2 + c.infmt.toNat * 8 + c.stats.toNat * 32 + c.acmode.toNat * 64)

/-- CTRL as stored from a word written with bit 0 = 0 (R25). -/
def ctrlOfWord (w : Word) : Ctrl where
  mode := w.extractLsb' 1 2
  infmt := w.extractLsb' 3 2
  stats := w.getLsbD 5
  acmode := w.getLsbD 6

/-- STATUS as read (R27). -/
def statusWord (t : Status) : Word :=
  BitVec.ofNat 32
    (t.busy.toNat + t.fault.toNat * 2 + t.cmdRej.toNat * 4 + t.wIgn.toNat * 8 + t.errCode.toNat * 256)

/-- FRAME as read (R28). -/
def frameWord (f : Frame) : Word := BitVec.ofNat 32 (f.w.toNat + f.h.toNat * 65536)

/-- FRAME as written. -/
def frameOfWord (w : Word) : Frame := ⟨w.extractLsb' 0 16, w.extractLsb' 16 16⟩

/-- MCUPOS as read (R29). -/
def mcuPosWord (p : McuPos) : Word := BitVec.ofNat 32 (p.mx.toNat + p.my.toNat * 65536)

/-- MCUPOS as written. -/
def mcuPosOfWord (w : Word) : McuPos := ⟨w.extractLsb' 0 16, w.extractLsb' 16 16⟩

/-- PACK as read (R33): CNT at bits 10..8, ACC at bits 6..0. -/
def packWord (p : Pack) : Word := BitVec.ofNat 32 (p.acc.toNat + p.cnt.toNat * 256)

/-- PACK with n pending bits v, the bits of v at and above n cleared (R33). -/
def packOf (n v : Nat) : Pack := ⟨BitVec.ofNat 3 n, BitVec.ofNat 7 (v % 2 ^ n)⟩

/-- PACK as written: CNT and ACC mod 2^CNT (R33). -/
def packOfWord (w : Word) : Pack := packOf (w.extractLsb' 8 3).toNat (w.extractLsb' 0 7).toNat

/-- IRQEN or IRQSTAT as read (R35, R36). -/
def irqWord (q : IrqBits) : Word := BitVec.ofNat 32 (q.done.toNat + q.fault.toNat * 2)

/-- IRQEN as written (R35). -/
def irqOfWord (w : Word) : IrqBits := ⟨w.getLsbD 0, w.getLsbD 1⟩

/-- A HUFF entry as read (R41). -/
def huffWord (e : HuffEntry) : Word := BitVec.ofNat 32 (e.code.toNat + e.len.toNat * 65536)

/-- A HUFF entry as written (R41). -/
def huffOfWord (w : Word) : HuffEntry := ⟨w.extractLsb' 0 16, w.extractLsb' 16 5⟩

/-- A sample or divisor as read: bits 31..8 read 0 (R40, R43). -/
def byteWord (b : Byte) : Word := b.setWidth 32

/-- A 16-bit two's-complement element or predictor as read, sign-extended (R32, R44 to R46). -/
def halfWord (h : Half) : Word := h.signExtend 32

/-- The number of a fault code (60_exceptions.md R251). -/
def faultNumber : FaultCode → Byte
  | .illegalCmd => 1#8
  | .config => 2#8
  | .qzero => 3#8
  | .catOvf => 4#8
  | .huffMissing => 5#8
  | .dstOvf => 6#8
  | .busErr => 7#8

/-- The interrupt output (60_exceptions.md R270). -/
def irq (s : State) : Bool :=
  (s.irqStat.done && s.irqEn.done) || (s.irqStat.fault && s.irqEn.fault)

end Sys2Proof.Machine
end

