-- ==== Sys2Proof/Machine/Ops.lean ====
section
/-! DEFINITION. The named operations over storage, external memory, the output stream and the free values; entering
and leaving the fault state; completing a command. -/

namespace Sys2Proof.Machine

/-! Sparse storage. -/

/-- The value at index k, or none where nothing was written. -/
def tabGet {α : Type} : Store α → Nat → Option α
  | [], _ => none
  | (j, v) :: rest, k => if j = k then some v else tabGet rest k

/-- Write v at index k, keeping the indices rising. -/
def tabSet {α : Type} : Store α → Nat → α → Store α
  | [], k, v => [(k, v)]
  | (j, w) :: rest, k, v =>
    if k < j then (k, v) :: (j, w) :: rest
    else if k = j then (k, v) :: rest
    else (j, w) :: tabSet rest k v

/-- Write the values of a list at the indices from lo on. -/
def tabSetRun {α : Type} : Store α → Nat → List α → Store α
  | st, _, [] => st
  | st, lo, v :: vs => tabSetRun (tabSet st lo v) (lo + 1) vs

/-- Exactly the values of a list, at the indices from lo on. -/
def tabOf {α : Type} : Nat → List α → Store α
  | _, [] => []
  | lo, v :: vs => (lo, v) :: tabOf (lo + 1) vs

/-- The canonical form of a store of a given size: indices strictly rising and below the size. -/
abbrev tabWf {α : Type} (size : Nat) (st : Store α) : Prop :=
  (st.map Prod.fst).Pairwise (· < ·) ∧ ∀ k ∈ st.map Prod.fst, k < size

/-- Read the entries of a region at the listed indices, in that order; an entry with no value ends the command,
which has reached the state s, in the model fault of 60_exceptions.md R268. -/
def readAt {α : Type} (r : Region) (st : Store α) (s : State) : List Nat → Except Halt (List α)
  | [] => .ok []
  | k :: ks =>
    match tabGet st k with
    | none => .error (.unwritten r k s)
    | some v =>
      match readAt r st s ks with
      | .error h => .error h
      | .ok vs => .ok (v :: vs)

/-! External memory (20_memory.md R75). -/

/-- What an address that is not listed reads as (notes/assumptions/2.md). -/
def Memory.unlisted : Byte := 0#8

/-- The byte at an address. -/
def Memory.read (m : List Host.Cell) (a : Nat) : Byte := (tabGet m a).getD Memory.unlisted

/-- Write a byte, keeping the canonical form: a byte equal to the unlisted one is not listed. -/
def Memory.write (m : List Host.Cell) (a : Nat) (b : Byte) : List Host.Cell :=
  if b = Memory.unlisted then m.filter (fun c => c.1 ≠ a) else tabSet m a b

/-- The canonical form: addresses strictly rising and below 2^32, no entry equal to the unlisted byte. -/
abbrev Memory.wf (m : List Host.Cell) : Prop := tabWf (2 ^ 32) m ∧ ∀ c ∈ m, c.2 ≠ Memory.unlisted

/-- Whether an address lies in one of the ranges. -/
def inRanges (rs : List AddrRange) (a : Nat) : Bool :=
  rs.any fun r => decide (r.lo ≤ a) && decide (a < r.hi)

/-- `BusError(addr, kind)` (20_memory.md R75). -/
def busError (s : State) (k : AccessKind) (a : Word) : Bool :=
  s.busErr.any fun e => decide (e.kind = k) && inRanges [e.range] a.toNat

/-! Free values (00_scope.md R15, notes/assumptions/1.md). -/

/-- The next free value. -/
def freeNow (s : State) : Word := Config.free s.draws

/-- Count n free values as taken. -/
def advance (n : Nat) (s : State) : State := { s with draws := s.draws + n }

/-- One of the elements of a non-empty list, which one being free: of equal elements there is no choice. -/
def chooseFree (a : Word) (rest : List Word) (s : State) : Word × State :=
  if rest.all (fun b => b = a) then (a, s)
  else ((a :: rest).getD ((freeNow s).toNat % (rest.length + 1)) a, advance 1 s)

/-- n free values, converted, written at the indices from lo on. -/
def fillFree {α : Type} (conv : Word → α) (lo n d : Nat) (st : Store α) : Store α :=
  tabSetRun st lo ((List.range n).map fun i => conv (Config.free (d + i)))

/-! Master port (20_memory.md R76, R77). -/

/-- MemRead: a bus error raises BUS_ERR; a byte that another agent may have changed, that the command's own
output overlaps, or whose read has side effects, reads as any value (R80, 70_reset_and_hazards.md R302, R303). -/
def memRead (a : Word) (s : State) : Except Halt (Byte × State) :=
  if busError s .read a then .error (.raise .busErr a s)
  else if inRanges s.racySrc a.toNat || inRanges s.volatileSrc a.toNat then
    .ok ((freeNow s).setWidth 8, advance 1 s)
  else .ok (Memory.read s.mem a.toNat, s)

/-- MemWrite: a bus error raises BUS_ERR and writes nothing; a byte another agent wrote during the command ends
as any value (70_reset_and_hazards.md R302). -/
def memWrite (a : Word) (b : Byte) (s : State) : Except Halt State :=
  if busError s .write a then .error (.raise .busErr a s)
  else if inRanges s.racyDst a.toNat then
    .ok (advance 1 { s with mem := Memory.write s.mem a.toNat ((freeNow s).setWidth 8) })
  else .ok { s with mem := Memory.write s.mem a.toNat b }

/-! Byte stream and bit packer (43_entropy.md R190 to R192). -/

/-- WriteByte (R192): the limit check, the write, and the advance of DSTPTR modulo 2^32. -/
def writeByte (b : Byte) (s : State) : Except Halt State :=
  if s.dstLim ≤ s.dstPtr then .error (.raise .dstOvf s.dstPtr s)
  else
    match memWrite s.dstPtr b s with
    | .error h => .error h
    | .ok t => .ok { t with dstPtr := t.dstPtr + 1#32 }

/-- A byte the bit packer completes, and the 0x00 that follows a 0xFF (R191). -/
def emitByte (b : Byte) (s : State) : Except Halt State :=
  match writeByte b s with
  | .error h => .error h
  | .ok t => if b = 0xFF#8 then writeByte 0x00#8 t else .ok t

/-- Move k complete bytes out of an accumulator of 8*k + rem bits, the oldest first, and leave the rest in PACK:
the loop of R190. -/
def drain : Nat → Nat → Nat → State → Except Halt State
  | 0, rem, acc, s => .ok { s with pack := packOf rem acc }
  | k + 1, rem, acc, s =>
    match emitByte (BitVec.ofNat 8 (acc / 2 ^ (8 * k + rem))) s with
    | .error h => .error h
    | .ok t => drain k rem (acc % 2 ^ (8 * k + rem)) t

/-- PutBits(v, n) (R190). -/
def putBits (v n : Nat) (s : State) : Except Halt State :=
  drain ((s.pack.cnt.toNat + n) / 8) ((s.pack.cnt.toNat + n) % 8) (s.pack.acc.toNat * 2 ^ n + v) s

/-! Completion, the fault state, and leaving it. -/

/-- A command completes (30_encoding.md R100(c)); another agent's accesses no longer race with it. -/
def complete (s : State) : State :=
  { s with
    status := { s.status with busy := false }
    irqStat := { s.irqStat with done := true }
    racySrc := []
    racyDst := [] }

/-- Entering the fault state (60_exceptions.md R252). -/
def enterFault (code : FaultCode) (info : Word) (s : State) : State :=
  { s with
    status := { s.status with errCode := faultNumber code, fault := true, busy := false }
    errInfo := info
    irqStat := { s.irqStat with fault := true }
    racySrc := []
    racyDst := [] }

/-- Leaving the fault state (60_exceptions.md R255). -/
def clearFault (s : State) : State :=
  { s with status := { s.status with fault := false, errCode := 0#8 }, errInfo := 0#32 }

/-- Every register at its reset value (70_reset_and_hazards.md R290); tables, buffers, memory, platform and the
events still to come are kept. -/
def resetRegisters (s : State) : State :=
  { State.reset with
    qtab := s.qtab, huff := s.huff, freq := s.freq, blk := s.blk, coef := s.coef, qcoef := s.qcoef
    zzbuf := s.zzbuf, mem := s.mem, busErr := s.busErr, volatileSrc := s.volatileSrc, draws := s.draws
    inputs := s.inputs, resp := s.resp }

/-- No entry of any table or buffer holds a value (70_reset_and_hazards.md R293). -/
def forgetTables (s : State) : State :=
  { s with qtab := [], huff := [], freq := [], blk := [], coef := [], qcoef := [], zzbuf := [] }

/-! Predictors by component (10_state.md R32). -/

/-- DCPRED[C]. -/
def pred (s : State) : Component → Half
  | .y => s.dcPred0
  | .cb => s.dcPred1
  | .cr => s.dcPred2

/-- DCPRED[C] <- p. -/
def setPred (c : Component) (p : Half) (s : State) : State :=
  match c with
  | .y => { s with dcPred0 := p }
  | .cb => { s with dcPred1 := p }
  | .cr => { s with dcPred2 := p }

/-! Any value in what a command writes (60_exceptions.md R253(d), 70_reset_and_hazards.md R292). -/

/-- The footprint of a command that writes nothing. -/
def Footprint.none : Footprint where
  blks := []
  coef := false
  qcoef := false
  zzbuf := false
  preds := []
  pack := false
  stream := false
  freqs := []
  mcuPos := false

/-- Sample block b holds any values. -/
def freeBlk (s : State) (b : Nat) : State :=
  advance 64 { s with blk := fillFree (fun w => w.setWidth 8) (64 * b) 64 s.draws s.blk }

/-- Counter table t holds any values. -/
def freeFreq (s : State) (t : Nat) : State :=
  advance 256 { s with freq := fillFree (fun w => w) (256 * t) 256 s.draws s.freq }

/-- COEF holds any values. -/
def freeCoef (s : State) : State :=
  advance 64 { s with coef := fillFree (fun w => w.setWidth 16) 0 64 s.draws s.coef }

/-- QCOEF holds any values. -/
def freeQcoef (s : State) : State :=
  advance 64 { s with qcoef := fillFree (fun w => w.setWidth 16) 0 64 s.draws s.qcoef }

/-- ZZBUF holds any values. -/
def freeZzbuf (s : State) : State :=
  advance 64 { s with zzbuf := fillFree (fun w => w.setWidth 16) 0 64 s.draws s.zzbuf }

/-- A predictor holds any value. -/
def freePred (s : State) (c : Component) : State :=
  advance 1 (setPred c ((freeNow s).setWidth 16) s)

/-- PACK holds any value it can hold (ACC below 2^CNT, 10_state.md R33). -/
def freePack (s : State) : State :=
  advance 1 { s with pack := packOfWord (freeNow s) }

/-- MCUPOS holds any value. -/
def freeMcuPos (s : State) : State :=
  advance 1 { s with mcuPos := mcuPosOfWord (freeNow s) }

/-- The tables and buffers of a footprint hold any values. -/
def freeTables (fp : Footprint) (s : State) : State :=
  let s1 := fp.blks.foldl freeBlk s
  let s2 := fp.freqs.foldl freeFreq s1
  let s3 := if fp.coef then freeCoef s2 else s2
  let s4 := if fp.qcoef then freeQcoef s3 else s3
  if fp.zzbuf then freeZzbuf s4 else s4

/-- The registers of a footprint hold any values; DSTPTR is exact (60_exceptions.md R253(c)). -/
def freeRegisters (fp : Footprint) (s : State) : State :=
  let s1 := fp.preds.foldl freePred s
  let s2 := if fp.pack then freePack s1 else s1
  if fp.mcuPos then freeMcuPos s2 else s2

/-- The end of a command with the given footprint: it completes, or it faults and leaves any value in what it
writes besides memory and DSTPTR (R253), or it met an unwritten entry (R268). -/
def finish (fp : Footprint) : Except Halt State → Host.Outcome State Fault Refusal
  | .ok s => .next (complete s)
  | .error (.raise code info s) => .next (enterFault code info (freeRegisters fp (freeTables fp s)))
  | .error (.unwritten r i _) => .fault (.unwritten r i)

end Sys2Proof.Machine
end

