-- ==== Sys2Proof/Machine/Operands.lean ====
section
/-! DEFINITION. What a command's operands and the registers name: the MCU grid, the configuration check, the pixel
addresses, the tables of a component, the block order, and the footprint of each command. -/

namespace Sys2Proof.Machine

/-- CTRL.MODE values (10_state.md R25). -/
def modeGray : BitVec 2 := 0#2
/-- YUV444. -/
def modeYuv444 : BitVec 2 := 1#2
/-- YUV420. -/
def modeYuv420 : BitVec 2 := 2#2
/-- CTRL.INFMT values (10_state.md R25). -/
def fmtBgr24 : BitVec 2 := 0#2
/-- PLANAR. -/
def fmtPlanar : BitVec 2 := 1#2
/-- GRAY8. -/
def fmtGray8 : BitVec 2 := 2#2

/-- The side M of an MCU in pixels (44_sequencer.md R233). -/
def mcuSize (c : Ctrl) : Nat := if c.mode = modeYuv420 then 16 else 8

/-- ceil(a / b) as R233 writes it. -/
def ceilDiv (a b : Nat) : Nat := (a + b - 1) / b

/-- GX of Grid() (R233). -/
def gridX (s : State) : Nat := ceilDiv s.frame.w.toNat (mcuSize s.ctrl)

/-- GY of Grid() (R233). -/
def gridY (s : State) : Nat := ceilDiv s.frame.h.toNat (mcuSize s.ctrl)

/-- ConfigCheck(position) (60_exceptions.md R262): the first subcode whose condition holds. -/
def configCheck (position : Bool) (s : State) : Option Word :=
  if s.frame.w = 0#16 ∨ s.frame.h = 0#16 then some 1#32
  else if s.ctrl.mode = 3#2 then some 2#32
  else if s.ctrl.infmt = 3#2 then some 3#32
  else if s.ctrl.infmt = fmtGray8 ∧ s.ctrl.mode ≠ modeGray then some 4#32
  else if position = true ∧ (gridX s ≤ s.mcuPos.mx.toNat ∨ gridY s ≤ s.mcuPos.my.toNat) then some 5#32
  else none

/-- row(p) of R131 for the plane that begins at base. -/
def rowAddr (s : State) (base : Word) (sy : Nat) : Word := base + BitVec.ofNat 32 sy * s.stride

/-- The clamped coordinate of edge replication (40_csc.md R134). -/
def clampCoord (x : Nat) (size : Half) : Nat := min x (size.toNat - 1)

/-- The planes Pixel reads one byte of, with INFMT = PLANAR or GRAY8 (R131). -/
def planeBases (s : State) : List Word :=
  if s.ctrl.infmt = fmtPlanar ∧ s.ctrl.mode ≠ modeGray then [s.src0, s.src1, s.src2] else [s.src0]

/-- The addresses Pixel(x, y) reads, in the order of R131: B, G, R of an interleaved pixel, else one byte of each
plane. -/
def pixelAddrs (s : State) (x y : Nat) : List Word :=
  let sx := clampCoord x s.frame.w
  let sy := clampCoord y s.frame.h
  if s.ctrl.infmt = fmtBgr24 then
    let a := rowAddr s s.src0 sy + BitVec.ofNat 32 (3 * sx)
    [a, a + 1#32, a + 2#32]
  else (planeBases s).map fun base => rowAddr s base sy + BitVec.ofNat 32 sx

/-- The pixel positions of an MCU, row by row (40_csc.md R135). -/
def mcuPositions (s : State) : List (Nat × Nat) :=
  let m := mcuSize s.ctrl
  (List.range m).flatMap fun py =>
    (List.range m).map fun px => (s.mcuPos.mx.toNat * m + px, s.mcuPos.my.toNat * m + py)

/-- The addresses one LOAD_MCU reads (40_csc.md R139). -/
def mcuAddrs (s : State) : List Word := (mcuPositions s).flatMap fun p => pixelAddrs s p.1 p.2

/-- Whether an address is a source byte of some pixel of the frame (70_reset_and_hazards.md R303). -/
def isSourceByte (s : State) (a : Word) : Bool :=
  let bases := if s.ctrl.infmt = fmtBgr24 then [s.src0] else planeBases s
  let len := if s.ctrl.infmt = fmtBgr24 then 3 * s.frame.w.toNat else s.frame.w.toNat
  (List.range s.frame.h.toNat).any fun sy =>
    bases.any fun base => decide ((a - rowAddr s base sy).toNat < len)

/-- The DC table of a component (43_entropy.md R212). -/
def dcTable : Component → Nat
  | .y => 0
  | .cb => 2
  | .cr => 2

/-- The AC table of a component (43_entropy.md R212). -/
def acTable : Component → Nat
  | .y => 1
  | .cb => 3
  | .cr => 3

/-- The number of a quantization table (30_encoding.md R103). -/
def qselNumber : QSel → Nat
  | .luma => 0
  | .chroma => 1

/-- BlockOrder(MODE): sample block, quantization table, component, in coding order (44_sequencer.md R235). -/
def blockOrder (c : Ctrl) : List (Fin 6 × QSel × Component) :=
  if c.mode = modeYuv420 then
    [(0, .luma, .y), (1, .luma, .y), (2, .luma, .y), (3, .luma, .y), (4, .chroma, .cb), (5, .chroma, .cr)]
  else if c.mode = modeYuv444 then [(0, .luma, .y), (4, .chroma, .cb), (5, .chroma, .cr)]
  else [(0, .luma, .y)]

/-- ZZORDER (42_quant_zigzag.md R176). -/
def zzOrder : List Nat :=
  [ 0,  1,  8, 16,  9,  2,  3, 10, 17, 24, 32, 25, 18, 11,  4,  5,
   12, 19, 26, 33, 40, 48, 41, 34, 27, 20, 13,  6,  7, 14, 21, 28,
   35, 42, 49, 56, 57, 50, 43, 36, 29, 22, 15, 23, 30, 37, 44, 51,
   58, 59, 52, 45, 38, 31, 39, 46, 53, 60, 61, 54, 47, 55, 62, 63]

/-- ZZINV (42_quant_zigzag.md R176). -/
def zzInv : List Nat :=
  [ 0,  1,  5,  6, 14, 15, 27, 28,  2,  4,  7, 13, 16, 26, 29, 42,
    3,  8, 12, 17, 25, 30, 41, 43,  9, 11, 18, 24, 31, 40, 44, 53,
   10, 19, 23, 32, 39, 45, 52, 54, 20, 22, 33, 38, 46, 51, 55, 60,
   21, 34, 37, 47, 50, 56, 59, 61, 35, 36, 48, 49, 57, 58, 62, 63]

/-- What a coding command writes for one component: the packer and the byte stream, or the counters
(43_entropy.md R210). -/
def codingFootprint (stats : Bool) (cs : List Component) : Footprint :=
  { Footprint.none with
    preds := cs
    pack := !stats
    stream := !stats
    freqs := if stats then cs.flatMap fun c => [dcTable c, acTable c] else [] }

/-- What each command writes, from the "Writes" of its rule. -/
def footprint (c : Ctrl) : Instr → Footprint
  | .nop => Footprint.none
  | .dcReset => { Footprint.none with preds := [.y, .cb, .cr] }
  | .freqClear => { Footprint.none with freqs := [0, 1, 2, 3] }
  | .loadMcu => { Footprint.none with blks := (blockOrder c).map fun e => e.1.val }
  | .fdct _ => { Footprint.none with coef := true }
  | .quant _ => { Footprint.none with qcoef := true }
  | .zigzag => { Footprint.none with zzbuf := true }
  | .encBlock k => codingFootprint c.stats [k]
  | .putbits _ _ => { Footprint.none with pack := true, stream := true }
  | .flush => { Footprint.none with pack := true, stream := true }
  | .encMcu =>
    { codingFootprint c.stats ((blockOrder c).map fun e => e.2.2).dedup with
      blks := (blockOrder c).map fun e => e.1.val, coef := true, qcoef := true, zzbuf := true }
  | .encScan =>
    { codingFootprint c.stats ((blockOrder c).map fun e => e.2.2).dedup with
      blks := (blockOrder c).map fun e => e.1.val, coef := true, qcoef := true, zzbuf := true,
      preds := [.y, .cb, .cr], mcuPos := true }

end Sys2Proof.Machine
end

