-- ==== Sys2Proof/Machine/Control.lean ====
section
/-! DEFINITION. The control commands NOP, DC_RESET and FREQ_CLEAR. -/

namespace Sys2Proof.Machine

/-- The three predictors become 0 (43_entropy.md R220, 44_sequencer.md R232). -/
def dcResetBody (s : State) : State := { s with dcPred0 := 0#16, dcPred1 := 0#16, dcPred2 := 0#16 }

/-- The 1024 counters become 0 (43_entropy.md R221). -/
def freqClearBody (s : State) : State := { s with freq := tabOf 0 (List.replicate 1024 0#32) }

/-- NOP (44_sequencer.md R230): it does nothing and completes. -/
def execNop (s : State) : Host.Outcome State Fault Refusal := .next (complete s)

/-- DC_RESET (43_entropy.md R220). -/
def execDcReset (s : State) : Host.Outcome State Fault Refusal := .next (complete (dcResetBody s))

/-- FREQ_CLEAR (43_entropy.md R221). -/
def execFreqClear (s : State) : Host.Outcome State Fault Refusal := .next (complete (freqClearBody s))

end Sys2Proof.Machine
end

