-- ==== Sys2Proof/Machine/Csc.lean ====
section
/-! DEFINITION. The colourspace converter and chroma subsampler: LOAD_MCU (40_csc.md). -/

namespace Sys2Proof.Machine

/-- clamp(v, 0, 255) as a byte (40_csc.md R132, R133). -/
def clampByte (v : Int) : Byte := BitVec.ofInt 8 (min (max v 0) 255)

/-- Y of CSC(B, G, R) (40_csc.md R132). -/
def cscY (b g r : Byte) : Byte :=
  clampByte ((4899 * (r.toNat : Int) + 9617 * (g.toNat : Int) + 1868 * (b.toNat : Int) + 8192) >>> 14)

/-- Cb of CSC(B, G, R) (40_csc.md R132). -/
def cscCb (b g r : Byte) : Byte :=
  clampByte (((-2765 * (r.toNat : Int) - 5427 * (g.toNat : Int) + 8192 * (b.toNat : Int) + 8192) >>> 14) + 128)

/-- Cr of CSC(B, G, R) (40_csc.md R132). -/
def cscCr (b g r : Byte) : Byte :=
  clampByte (((8192 * (r.toNat : Int) - 6860 * (g.toNat : Int) - 1332 * (b.toNat : Int) + 8192) >>> 14) + 128)

/-- The components (Y, Cb, Cr) from the bytes Pixel reads (40_csc.md R131): converted from B, G, R, or taken as
they stand from the planes; a chroma component that is not read is never stored and stands as 0. -/
def pixelOf (infmt : BitVec 2) (bytes : List Byte) : Byte × Byte × Byte :=
  if infmt = fmtBgr24 then
    (cscY (bytes.getD 0 0#8) (bytes.getD 1 0#8) (bytes.getD 2 0#8),
     cscCb (bytes.getD 0 0#8) (bytes.getD 1 0#8) (bytes.getD 2 0#8),
     cscCr (bytes.getD 0 0#8) (bytes.getD 1 0#8) (bytes.getD 2 0#8))
  else (bytes.getD 0 0#8, bytes.getD 1 0#8, bytes.getD 2 0#8)

/-- Read bytes in turn. -/
def readBytes : List Word → State → Except Halt (List Byte × State)
  | [], s => .ok ([], s)
  | a :: as, s =>
    match memRead a s with
    | .error h => .error h
    | .ok (b, t) =>
      match readBytes as t with
      | .error h => .error h
      | .ok (bs, u) => .ok (b :: bs, u)

/-- Pixel(x, y) for each position in turn (40_csc.md R131, R134). -/
def readPixels : List (Nat × Nat) → State → Except Halt (List (Byte × Byte × Byte) × State)
  | [], s => .ok ([], s)
  | p :: ps, s =>
    match readBytes (pixelAddrs s p.1 p.2) s with
    | .error h => .error h
    | .ok (bs, t) =>
      match readPixels ps t with
      | .error h => .error h
      | .ok (qs, u) => .ok (pixelOf s.ctrl.infmt bs :: qs, u)

/-- The 8x8 luma block at column bx, row by of an MCU tile m samples wide (40_csc.md R135). -/
def lumaBlock (m : Nat) (tile : List Byte) (bx by' : Nat) : List Byte :=
  (List.range 64).map fun i => tile.getD ((8 * by' + i / 8) * m + (8 * bx + i % 8)) 0#8

/-- Avg4(P, cy, cx) over a tile 16 samples wide: the box average rounded half up (40_csc.md R136). -/
def avg4 (tile : List Byte) (cy cx : Nat) : Byte :=
  BitVec.ofNat 8
    (((tile.getD (32 * cy + 2 * cx) 0#8).toNat + (tile.getD (32 * cy + 2 * cx + 1) 0#8).toNat
      + (tile.getD (32 * cy + 16 + 2 * cx) 0#8).toNat + (tile.getD (32 * cy + 16 + 2 * cx + 1) 0#8).toNat + 2) / 4)

/-- The chroma block of a 4:2:0 tile (40_csc.md R135, R136). -/
def chroma420 (tile : List Byte) : List Byte :=
  (List.range 64).map fun i => avg4 tile (i / 8) (i % 8)

/-- The sample blocks LOAD_MCU writes in each mode, from the MCU's pixels in row order (40_csc.md R135). -/
def storeMcu (mode : BitVec 2) (px : List (Byte × Byte × Byte)) (blk : Store Byte) : Store Byte :=
  let yv := px.map fun p => p.1
  let cbv := px.map fun p => p.2.1
  let crv := px.map fun p => p.2.2
  if mode = modeYuv420 then
    let b0 := tabSetRun blk 0 (lumaBlock 16 yv 0 0)
    let b1 := tabSetRun b0 64 (lumaBlock 16 yv 1 0)
    let b2 := tabSetRun b1 128 (lumaBlock 16 yv 0 1)
    let b3 := tabSetRun b2 192 (lumaBlock 16 yv 1 1)
    let b4 := tabSetRun b3 256 (chroma420 cbv)
    tabSetRun b4 320 (chroma420 crv)
  else if mode = modeYuv444 then
    tabSetRun (tabSetRun (tabSetRun blk 0 (lumaBlock 8 yv 0 0)) 256 (lumaBlock 8 cbv 0 0)) 320 (lumaBlock 8 crv 0 0)
  else tabSetRun blk 0 (lumaBlock 8 yv 0 0)

/-- The reads, the conversion and the writes of LOAD_MCU after its ConfigCheck (40_csc.md R135). A read whose
address answers with an error raises BUS_ERR; with several, ERRINFO holds any one of them (R139). -/
def loadMcuBody (s : State) : Except Halt State :=
  match (mcuAddrs s).filter (fun a => busError s .read a) with
  | a :: rest => .error (.raise .busErr (chooseFree a rest s).1 (chooseFree a rest s).2)
  | [] =>
    match readPixels (mcuPositions s) s with
    | .error h => .error h
    | .ok (px, t) => .ok { t with blk := storeMcu s.ctrl.mode px s.blk }

/-- LOAD_MCU (40_csc.md R135, R140). -/
def execLoadMcu (s : State) : Host.Outcome State Fault Refusal :=
  match configCheck true s with
  | some sub => .next (enterFault .config sub s)
  | none => finish (footprint s.ctrl .loadMcu) (loadMcuBody s)

end Sys2Proof.Machine
end

