-- ==== Sys2Proof/Machine/Entropy.lean ====
section
/-! DEFINITION. The entropy coder and the commands of the bit packer: ENC_BLOCK, PUTBITS, FLUSH (43_entropy.md). -/

namespace Sys2Proof.Machine

/-- bitlen(n) (00_scope.md R13). -/
def bitlen (n : Nat) : Nat := if n = 0 then 0 else n.log2 + 1

/-- cat(v) (43_entropy.md R194). -/
def cat (v : Int) : Nat := bitlen v.natAbs

/-- mag(v, c), the magnitude bits (43_entropy.md R195). -/
def mag (v : Int) (c : Nat) : Nat :=
  if 0 ≤ v then v.toNat else ((v - 1) % (2 ^ c : Int)).toNat

/-- A counter one higher, saturating (43_entropy.md R196). -/
def countUp (c : Word) : Word := BitVec.ofNat 32 (min (c.toNat + 1) (2 ^ 32 - 1))

/-- Symbol(t, s, v, n) in an emitting pass (43_entropy.md R196). -/
def emitSymbol (t sym v n : Nat) (s : State) : Except Halt State :=
  match tabGet s.huff (256 * t + sym) with
  | none => .error (.unwritten .huff (256 * t + sym) s)
  | some e =>
    if e.len.toNat = 0 ∨ 16 < e.len.toNat then
      .error (.raise .huffMissing (BitVec.ofNat 32 (256 * t + sym)) s)
    else
      match putBits (e.code.toNat % 2 ^ e.len.toNat) e.len.toNat s with
      | .error h => .error h
      | .ok u => putBits v n u

/-- Symbol(t, s, v, n) in a counting pass (43_entropy.md R196). -/
def countSymbol (t sym : Nat) (s : State) : Except Halt State :=
  match tabGet s.freq (256 * t + sym) with
  | none => .error (.unwritten .freq (256 * t + sym) s)
  | some c => .ok { s with freq := tabSet s.freq (256 * t + sym) (countUp c) }

/-- Symbol(t, s, v, n) (43_entropy.md R196). -/
def symbol (t sym v n : Nat) (s : State) : Except Halt State :=
  if s.ctrl.stats then countSymbol t sym s else emitSymbol t sym v n s

/-- n ZRL symbols (43_entropy.md R200, R201). -/
def zrls (ta : Nat) : Nat → State → Except Halt State
  | 0, s => .ok s
  | n + 1, s =>
    match symbol ta 0xF0 0 0 s with
    | .error h => .error h
    | .ok t => zrls ta n t

/-- A non-zero AC coefficient v at index k after a run of r zeros: the category check, the ZRLs, the symbol. With
r below 16, as in AcSrc, there are no ZRLs (43_entropy.md R200, R201, R211). -/
def acNonzero (ta k r : Nat) (v : Int) (s : State) : Except Halt State :=
  if 10 < cat v then .error (.raise .catOvf (BitVec.ofNat 32 k) s)
  else
    match zrls ta (r / 16) s with
    | .error h => .error h
    | .ok t => symbol ta (r % 16 * 16 + cat v) (mag v (cat v)) (cat v) t

/-- A zero AC coefficient after a run of r zeros: STD only counts it, SRC sends a ZRL when the run reaches 16
(43_entropy.md R200, R201). It gives the new run. -/
def acZero (ta r : Nat) (s : State) : Except Halt (Nat × State) :=
  if s.ctrl.acmode then .ok (r + 1, s)
  else if r + 1 = 16 then
    match symbol ta 0xF0 0 0 s with
    | .error h => .error h
    | .ok t => .ok (0, t)
  else .ok (r + 1, s)

/-- One turn of the loop of AcStd or AcSrc, at coefficient k. -/
def acStep (ta k r : Nat) (s : State) : Except Halt (Nat × State) :=
  match tabGet s.zzbuf k with
  | none => .error (.unwritten .zzbuf k s)
  | some h =>
    if h = 0#16 then acZero ta r s
    else
      match acNonzero ta k r h.toInt s with
      | .error e => .error e
      | .ok t => .ok (0, t)

/-- The loop over the last n coefficients, and the EOB at its exit if a run is left (43_entropy.md R200, R201). -/
def acLoop (ta : Nat) : Nat → Nat → State → Except Halt State
  | 0, r, s => if 0 < r then symbol ta 0x00 0 0 s else .ok s
  | n + 1, r, s =>
    match acStep ta (63 - n) r s with
    | .error e => .error e
    | .ok (r', t) => acLoop ta n r' t

/-- DcCode(C, td) (43_entropy.md R205, R206). -/
def dcCode (c : Component) (s : State) : Except Halt State :=
  match tabGet s.zzbuf 0 with
  | none => .error (.unwritten .zzbuf 0 s)
  | some dc =>
    let diff := dc.toInt - (pred s c).toInt
    if 11 < cat diff then .error (.raise .catOvf 0#32 s)
    else
      match symbol (dcTable c) (cat diff) (mag diff (cat diff)) (cat diff) s with
      | .error h => .error h
      | .ok t => .ok (setPred c dc t)

/-- ENC_BLOCK C without acceptance and completion (43_entropy.md R210): DC, then the 63 AC coefficients. -/
def encBlockBody (c : Component) (s : State) : Except Halt State :=
  match dcCode c s with
  | .error h => .error h
  | .ok t => acLoop (acTable c) 63 0 t

/-- FLUSH without acceptance and completion (43_entropy.md R223). -/
def flushBody (s : State) : Except Halt State :=
  if 0 < s.pack.cnt.toNat then putBits (2 ^ (8 - s.pack.cnt.toNat) - 1) (8 - s.pack.cnt.toNat) s else .ok s

/-- ENC_BLOCK (43_entropy.md R210). -/
def execEncBlock (c : Component) (s : State) : Host.Outcome State Fault Refusal :=
  finish (footprint s.ctrl (.encBlock c)) (encBlockBody c s)

/-- PUTBITS (43_entropy.md R222). -/
def execPutbits (v : Half) (n : BitVec 5) (s : State) : Host.Outcome State Fault Refusal :=
  finish (footprint s.ctrl (.putbits v n)) (putBits (v.toNat % 2 ^ n.toNat) n.toNat s)

/-- FLUSH (43_entropy.md R223). -/
def execFlush (s : State) : Host.Outcome State Fault Refusal :=
  finish (footprint s.ctrl .flush) (flushBody s)

end Sys2Proof.Machine
end

