-- ==== Sys2Proof/Machine/Transform.lean ====
section
/-! DEFINITION. The transform path: FDCT (41_fdct.md), QUANT and ZIGZAG (42_quant_zigzag.md). -/

namespace Sys2Proof.Machine

/-- MUL(v, c): the Q14 multiply, rounded half up (41_fdct.md R152). -/
def mulQ14 (v c : Int) : Int := (v * c + 8192) >>> 14

/-- AAN8, the one-dimensional transform, outputs o0 to o7 (41_fdct.md R152). -/
def aan8 (d0 d1 d2 d3 d4 d5 d6 d7 : Int) : List Int :=
  let tmp0 := d0 + d7
  let tmp7 := d0 - d7
  let tmp1 := d1 + d6
  let tmp6 := d1 - d6
  let tmp2 := d2 + d5
  let tmp5 := d2 - d5
  let tmp3 := d3 + d4
  let tmp4 := d3 - d4
  let tmp10 := tmp0 + tmp3
  let tmp13 := tmp0 - tmp3
  let tmp11 := tmp1 + tmp2
  let tmp12 := tmp1 - tmp2
  let z1 := mulQ14 (tmp12 + tmp13) 11585
  let t10 := tmp4 + tmp5
  let t11 := tmp5 + tmp6
  let t12 := tmp6 + tmp7
  let z5 := mulQ14 (t10 - t12) 6270
  let z2 := mulQ14 t10 8867 + z5
  let z4 := mulQ14 t12 21407 + z5
  let z3 := mulQ14 t11 11585
  let z11 := tmp7 + z3
  let z13 := tmp7 - z3
  [tmp10 + tmp11, z11 + z4, tmp13 + z1, z13 - z2, tmp10 - tmp11, z13 + z2, tmp13 - z1, z11 - z4]

/-- AAN8 of eight elements of a list, from start on, step apart. -/
def aan8At (x : List Int) (start step : Nat) : List Int :=
  aan8 (x.getD start 0) (x.getD (start + step) 0) (x.getD (start + 2 * step) 0) (x.getD (start + 3 * step) 0)
    (x.getD (start + 4 * step) 0) (x.getD (start + 5 * step) 0) (x.getD (start + 6 * step) 0)
    (x.getD (start + 7 * step) 0)

/-- The level shift and pre-scale of a sample (41_fdct.md R151). -/
def levelShift (b : Byte) : Int := ((b.toNat : Int) - 128) * 8

/-- The row pass (41_fdct.md R150): 64 values in natural order. -/
def rowPass (x : List Int) : List Int := (List.range 8).flatMap fun r => aan8At x (8 * r) 1

/-- The column pass (41_fdct.md R150): the eight columns, each its outputs from row 0 to row 7. -/
def colPass (w : List Int) : List (List Int) := (List.range 8).map fun c => aan8At w c 8

/-- POST, the Q18 post-scale table in natural order (41_fdct.md R154). -/
def postScale : List Int :=
  [ 4096,  2953,  3135,  3483,  4096,  5213,  7568, 14846,
    2953,  2129,  2260,  2511,  2953,  3759,  5457, 10703,
    3135,  2260,  2399,  2666,  3135,  3990,  5793, 11363,
    3483,  2511,  2666,  2962,  3483,  4433,  6436, 12625,
    4096,  2953,  3135,  3483,  4096,  5213,  7568, 14846,
    5213,  3759,  3990,  4433,  5213,  6635,  9633, 18895,
    7568,  5457,  5793,  6436,  7568,  9633, 13985, 27432,
   14846, 10703, 11363, 12625, 14846, 18895, 27432, 53809]

/-- The post-scale of one two-pass output (41_fdct.md R154). -/
def postOne (o p : Int) : Int := (o * p + 131072) >>> 18

/-- The 64 coefficients of a block of 64 samples, in natural order (41_fdct.md R150). -/
def fdctBlock (samples : List Byte) : List Int :=
  let cols := colPass (rowPass (samples.map levelShift))
  (List.range 64).map fun i => postOne ((cols.getD (i % 8) []).getD (i / 8) 0) (postScale.getD i 0)

/-- FDCT B without acceptance and completion (41_fdct.md R150). -/
def fdctBody (b : Fin 6) (s : State) : Except Halt State :=
  match readAt .blk s.blk s (List.range' (64 * b.val) 64) with
  | .error h => .error h
  | .ok xs => .ok { s with coef := tabOf 0 ((fdctBlock xs).map (BitVec.ofInt 16)) }

/-- The quantized value of coefficient x by divisor q: halves away from zero (42_quant_zigzag.md R170). -/
def quantOne (x : Int) (q : Nat) : Int :=
  let m := (x.natAbs + q / 2) / q
  if 0 ≤ x then (m : Int) else -(m : Int)

/-- The divisors of table t from entry i on, n of them; the first that is 0 raises QZERO with its index
(42_quant_zigzag.md R170). -/
def readDivisors (t : QSel) (s : State) : Nat → Nat → Except Halt (List Nat)
  | _, 0 => .ok []
  | i, n + 1 =>
    match tabGet s.qtab (64 * qselNumber t + i) with
    | none => .error (.unwritten .qtab (64 * qselNumber t + i) s)
    | some q =>
      if q = 0#8 then .error (.raise .qzero (BitVec.ofNat 32 i) s)
      else
        match readDivisors t s (i + 1) n with
        | .error h => .error h
        | .ok qs => .ok (q.toNat :: qs)

/-- QUANT T without acceptance and completion (42_quant_zigzag.md R170). -/
def quantBody (t : QSel) (s : State) : Except Halt State :=
  match readDivisors t s 0 64 with
  | .error h => .error h
  | .ok qs =>
    match readAt .coef s.coef s (List.range 64) with
    | .error h => .error h
    | .ok xs => .ok { s with qcoef := tabOf 0 (List.zipWith (fun x q => BitVec.ofInt 16 (quantOne x.toInt q)) xs qs) }

/-- ZIGZAG without acceptance and completion (42_quant_zigzag.md R177). -/
def zigzagBody (s : State) : Except Halt State :=
  match readAt .qcoef s.qcoef s zzOrder with
  | .error h => .error h
  | .ok xs => .ok { s with zzbuf := tabOf 0 xs }

/-- FDCT (41_fdct.md R150). -/
def execFdct (b : Fin 6) (s : State) : Host.Outcome State Fault Refusal :=
  finish (footprint s.ctrl (.fdct b)) (fdctBody b s)

/-- QUANT (42_quant_zigzag.md R170): its one fault, QZERO, leaves everything but the fault state unchanged
(60_exceptions.md R253(a)). -/
def execQuant (t : QSel) (s : State) : Host.Outcome State Fault Refusal :=
  finish Footprint.none (quantBody t s)

/-- ZIGZAG (42_quant_zigzag.md R177). -/
def execZigzag (s : State) : Host.Outcome State Fault Refusal :=
  finish (footprint s.ctrl .zigzag) (zigzagBody s)

end Sys2Proof.Machine
end

