-- ==== Sys2Proof/Machine/Sequencer.lean ====
section
/-! DEFINITION. The MCU sequencer: ENC_MCU and ENC_SCAN (44_sequencer.md), and the overlap of a command's output
with its own source (70_reset_and_hazards.md R303). -/

namespace Sys2Proof.Machine

/-- FDCT, QUANT, ZIGZAG and ENC_BLOCK for one block (44_sequencer.md R231). -/
def codeBlock (e : Fin 6 × QSel × Component) (s : State) : Except Halt State :=
  match fdctBody e.1 s with
  | .error h => .error h
  | .ok s1 =>
    match quantBody e.2.1 s1 with
    | .error h => .error h
    | .ok s2 =>
      match zigzagBody s2 with
      | .error h => .error h
      | .ok s3 => encBlockBody e.2.2 s3

/-- The blocks of an MCU in turn (44_sequencer.md R231). -/
def codeBlocks : List (Fin 6 × QSel × Component) → State → Except Halt State
  | [], s => .ok s
  | e :: es, s =>
    match codeBlock e s with
    | .error h => .error h
    | .ok t => codeBlocks es t

/-- ENC_MCU after its ConfigCheck (44_sequencer.md R231). -/
def encMcuBody (s : State) : Except Halt State :=
  match loadMcuBody s with
  | .error h => .error h
  | .ok t => codeBlocks (blockOrder s.ctrl) t

/-- The MCUs at the listed positions in turn, MCUPOS set before each (44_sequencer.md R232). -/
def codeMcus : List (Nat × Nat) → State → Except Halt State
  | [], s => .ok s
  | p :: ps, s =>
    match encMcuBody { s with mcuPos := ⟨BitVec.ofNat 16 p.1, BitVec.ofNat 16 p.2⟩ } with
    | .error h => .error h
    | .ok t => codeMcus ps t

/-- The MCU positions (column, row) of the frame in raster order (44_sequencer.md R232). -/
def scanOrder (s : State) : List (Nat × Nat) :=
  (List.range (gridY s)).flatMap fun my => (List.range (gridX s)).map fun mx => (mx, my)

/-- ENC_SCAN after its ConfigCheck (44_sequencer.md R232). -/
def encScanBody (s : State) : Except Halt State :=
  match codeMcus (scanOrder s) (dcResetBody s) with
  | .error h => .error h
  | .ok t => if s.ctrl.stats then .ok t else flushBody t

/-- The state a body reached. -/
def reached : Except Halt State → State
  | .ok t => t
  | .error (.raise _ _ t) => t
  | .error (.unwritten _ _ t) => t

/-- Whether one of the bytes written from DSTPTR of s on, up to DSTPTR of t, is a source byte of the frame. -/
def overlaps (s t : State) : Bool :=
  (List.range (t.dstPtr - s.dstPtr).toNat).any fun j => isSourceByte s (s.dstPtr + BitVec.ofNat 32 j)

/-- The bytes between DSTPTR and DSTLIM. -/
def roomLeft (s : State) : Nat := s.dstLim.toNat - s.dstPtr.toNat

/-- A body in which the first n bytes from DSTPTR on read as any value, taken where they are the very bytes it
writes, up to where it completes, faults or stops at an unwritten entry; where they are not, the body as it stands
(70_reset_and_hazards.md R303, 20_memory.md R76). -/
def overlapped (body : State → Except Halt State) (n : Nat) (s : State) : Except Halt State :=
  let x := body { s with racySrc := ⟨s.dstPtr.toNat, s.dstPtr.toNat + n⟩ :: s.racySrc }
  if (reached x).dstPtr.toNat = s.dstPtr.toNat + n then x else body s

/-- A body whose output may overlap its own source (70_reset_and_hazards.md R303): where it does, the samples read
at the addresses it writes, and at no others, are any value. How many bytes it writes then depends on those values,
so the number is a free value that must come true (notes/assumptions/5.md). -/
def withOverlap (body : State → Except Halt State) (s : State) : Except Halt State :=
  let t := reached (body s)
  if overlaps s t then
    let s' := advance t.draws s
    overlapped body ((freeNow s').toNat % (roomLeft s + 1)) (advance 1 s')
  else body s

/-- ENC_MCU (44_sequencer.md R231). -/
def execEncMcu (s : State) : Host.Outcome State Fault Refusal :=
  match configCheck true s with
  | some sub => .next (enterFault .config sub s)
  | none => finish (footprint s.ctrl .encMcu) (withOverlap encMcuBody s)

/-- ENC_SCAN (44_sequencer.md R232). -/
def execEncScan (s : State) : Host.Outcome State Fault Refusal :=
  match configCheck false s with
  | some sub => .next (enterFault .config sub s)
  | none => finish (footprint s.ctrl .encScan) (withOverlap encScanBody s)

/-- The configuration check of a command, if it has one (60_exceptions.md R262). -/
def checkOf : Instr → State → Option Word
  | .loadMcu, s => configCheck true s
  | .encMcu, s => configCheck true s
  | .encScan, s => configCheck false s
  | _, _ => none

/-- What a command does after its configuration check and before it completes. -/
def bodyOf : Instr → State → Except Halt State
  | .nop, s => .ok s
  | .dcReset, s => .ok (dcResetBody s)
  | .freqClear, s => .ok (freqClearBody s)
  | .loadMcu, s => loadMcuBody s
  | .fdct b, s => fdctBody b s
  | .quant t, s => quantBody t s
  | .zigzag, s => zigzagBody s
  | .encBlock c, s => encBlockBody c s
  | .putbits v n, s => putBits (v.toNat % 2 ^ n.toNat) n.toNat s
  | .flush, s => flushBody s
  | .encMcu, s => withOverlap encMcuBody s
  | .encScan, s => withOverlap encScanBody s

/-- The run of a command up to where it completes or stops, for what can be said of a command in the middle
(70_reset_and_hazards.md R292, R301). -/
def runOf (i : Instr) (s : State) : Except Halt State :=
  match checkOf i s with
  | some sub => .error (.raise .config sub s)
  | none => bodyOf i s

end Sys2Proof.Machine
end

