-- ==== Sys2Proof/Machine/Dispatch.lean ====
section
/-! DEFINITION. The meaning of every command: one arm per constructor of Instr. -/

namespace Sys2Proof.Machine

def exec (i : Instr) (s : State) : Host.Outcome State Fault Refusal :=
  match i with
  | .nop => Sys2Proof.Machine.execNop s
  | .dcReset => Sys2Proof.Machine.execDcReset s
  | .freqClear => Sys2Proof.Machine.execFreqClear s
  | .loadMcu => Sys2Proof.Machine.execLoadMcu s
  | .fdct b => Sys2Proof.Machine.execFdct b s
  | .quant t => Sys2Proof.Machine.execQuant t s
  | .zigzag => Sys2Proof.Machine.execZigzag s
  | .encBlock c => Sys2Proof.Machine.execEncBlock c s
  | .putbits v n => Sys2Proof.Machine.execPutbits v n s
  | .flush => Sys2Proof.Machine.execFlush s
  | .encMcu => Sys2Proof.Machine.execEncMcu s
  | .encScan => Sys2Proof.Machine.execEncScan s

end Sys2Proof.Machine
end

