-- ==== Sys2Proof/Machine/Engine.lean ====
section
/-! DEFINITION. The engine's step: it decodes the accepted word and runs the command (30_encoding.md R100). -/

namespace Sys2Proof.Machine

/-- The command the engine is executing, if BUSY = 1 and the accepted word is one. -/
def running (s : State) : Option Instr :=
  if s.status.busy then
    match decode s.lastCmd with
    | .ok i => some i
    | .error _ => none
  else none

/-- The engine's step (30_encoding.md R100(b) to (d)): the whole command, or ILLEGAL_CMD with the word (R106,
60_exceptions.md R269); an idle engine does nothing and keeps all its state (60_exceptions.md R285). -/
def engineStep (s : State) : Host.Outcome State Fault Refusal :=
  if s.status.busy then
    match decode s.lastCmd with
    | .ok i => exec i s
    | .error _ => .next (enterFault .illegalCmd s.lastCmd s)
  else .next s

end Sys2Proof.Machine
end

