-- ==== Sys2Proof/Machine/HostPort.lean ====
section
/-! DEFINITION. The register port, the host's direct access to external memory, and the two resets
(20_memory.md R70 to R75, 30_encoding.md R100, 70_reset_and_hazards.md R290 to R303). -/

namespace Sys2Proof.Machine

/-- The registers of 10_state.md R23, in offset order. -/
inductive Reg where
  | id | ctrl | status | cmd | frame | mcuPos | src0 | src1 | src2 | stride | dstPtr | dstLim
  | dcPred0 | dcPred1 | dcPred2 | pack | errInfo | irqEn | irqStat
  deriving DecidableEq, Repr

/-- What an assigned offset of the register window names (10_state.md R23, R47), an entry by its index in its
region. -/
inductive Target where
  | reg (r : Reg)
  | qtab (k : Nat)
  | huff (k : Nat)
  | freq (k : Nat)
  | blk (k : Nat)
  | coef (k : Nat)
  | qcoef (k : Nat)
  | zzbuf (k : Nat)
  deriving DecidableEq, Repr

/-- The registers at offsets 0x000, 0x004, and so on (10_state.md R23). -/
def registerMap : List Reg :=
  [.id, .ctrl, .status, .cmd, .frame, .mcuPos, .src0, .src1, .src2, .stride, .dstPtr, .dstLim,
   .dcPred0, .dcPred1, .dcPred2, .pack, .errInfo, .irqEn, .irqStat]

/-- What an offset names; none for a misaligned or reserved offset (10_state.md R37, R47). -/
def decodeOffset (off : Nat) : Option Target :=
  if off % 4 ≠ 0 then none
  else if off < 0x400 then (registerMap[off / 4]?).map Target.reg
  else if off < 0x600 then some (.qtab ((off - 0x400) / 4))
  else if off < 0x1000 then none
  else if off < 0x2000 then some (.huff ((off - 0x1000) / 4))
  else if off < 0x3000 then some (.freq ((off - 0x2000) / 4))
  else if off < 0x3600 then some (.blk ((off - 0x3000) / 4))
  else if off < 0x3800 then none
  else if off < 0x3900 then some (.coef ((off - 0x3800) / 4))
  else if off < 0x3A00 then some (.qcoef ((off - 0x3900) / 4))
  else if off < 0x3B00 then some (.zzbuf ((off - 0x3A00) / 4))
  else none

/-- The word a register shows (10_state.md R24 to R36). -/
def readReg (s : State) : Reg → Word
  | .id => idWord
  | .ctrl => ctrlWord s.ctrl
  | .status => statusWord s.status
  | .cmd => s.lastCmd
  | .frame => frameWord s.frame
  | .mcuPos => mcuPosWord s.mcuPos
  | .src0 => s.src0
  | .src1 => s.src1
  | .src2 => s.src2
  | .stride => s.stride
  | .dstPtr => s.dstPtr
  | .dstLim => s.dstLim
  | .dcPred0 => halfWord s.dcPred0
  | .dcPred1 => halfWord s.dcPred1
  | .dcPred2 => halfWord s.dcPred2
  | .pack => packWord s.pack
  | .errInfo => s.errInfo
  | .irqEn => irqWord s.irqEn
  | .irqStat => irqWord s.irqStat

/-- The word a target shows, none for an entry that holds no value (10_state.md R40 to R46). -/
def readTarget (s : State) : Target → Option Word
  | .reg r => some (readReg s r)
  | .qtab k => (tabGet s.qtab k).map byteWord
  | .huff k => (tabGet s.huff k).map huffWord
  | .freq k => tabGet s.freq k
  | .blk k => (tabGet s.blk k).map byteWord
  | .coef k => (tabGet s.coef k).map halfWord
  | .qcoef k => (tabGet s.qcoef k).map halfWord
  | .zzbuf k => (tabGet s.zzbuf k).map halfWord

/-- Any value a target can show, from a free word: reserved bits still read 0 (20_memory.md R71). -/
def anyWord (w : Word) : Target → Word
  | .reg .dcPred0 => halfWord (w.setWidth 16)
  | .reg .dcPred1 => halfWord (w.setWidth 16)
  | .reg .dcPred2 => halfWord (w.setWidth 16)
  | .reg .pack => packWord (packOfWord w)
  | .reg _ => w
  | .qtab _ => byteWord (w.setWidth 8)
  | .huff _ => huffWord (huffOfWord w)
  | .freq _ => w
  | .blk _ => byteWord (w.setWidth 8)
  | .coef _ => halfWord (w.setWidth 16)
  | .qcoef _ => halfWord (w.setWidth 16)
  | .zzbuf _ => halfWord (w.setWidth 16)

/-- Whether a command with the given footprint writes a target (70_reset_and_hazards.md R301). -/
def covers (fp : Footprint) : Target → Bool
  | .reg .dcPred0 => fp.preds.contains .y
  | .reg .dcPred1 => fp.preds.contains .cb
  | .reg .dcPred2 => fp.preds.contains .cr
  | .reg .pack => fp.pack
  | .reg .dstPtr => fp.stream
  | .reg .mcuPos => fp.mcuPos
  | .reg _ => false
  | .qtab _ => false
  | .huff _ => false
  | .freq k => fp.freqs.contains (k / 256)
  | .blk k => fp.blks.contains (k / 64)
  | .coef _ => fp.coef
  | .qcoef _ => fp.qcoef
  | .zzbuf _ => fp.zzbuf

/-- The footprint of the command the engine is executing; an illegal word writes nothing (30_encoding.md R106). -/
def runningFootprint (s : State) : Footprint :=
  match running s with
  | some i => footprint s.ctrl i
  | none => Footprint.none

/-- n more bytes of a bit stream of any value, through the bit packer, as long as it takes them. -/
def emitAny : Nat → State → State
  | 0, s => s
  | n + 1, s =>
    match putBits ((freeNow s).toNat % 256) 8 (advance 1 s) with
    | .ok t => emitAny n t
    | .error (.raise _ _ t) => t
    | .error (.unwritten _ _ t) => t

/-- A state whose memory and DSTPTR show the bytes a command would write: those of its run, and after an unwritten
entry, where the chip goes on with any value (60_exceptions.md R268), some number of bytes of any bits. -/
def outputOf (i : Instr) (s : State) : State :=
  match runOf i s with
  | .ok t => t
  | .error (.raise _ _ t) => t
  | .error (.unwritten _ _ t) => emitAny ((freeNow t).toNat % (roomLeft t + 1)) (advance 1 t)

/-- The state whose memory shows the bytes the running command would write, if it writes any. -/
def runningOutput (s : State) : Option State :=
  match running s with
  | none => none
  | some i => if (footprint s.ctrl i).stream then some (outputOf i s) else none

/-- Copy n bytes from one memory to another, from an address on. -/
def copyBytes (src : List Host.Cell) (a : Word) : Nat → List Host.Cell → List Host.Cell
  | 0, m => m
  | n + 1, m => copyBytes src (a + 1#32) n (Memory.write m a.toNat (Memory.read src a.toNat))

/-- Some prefix of the bytes the running command would write, which one being free, t being the state that shows
them (70_reset_and_hazards.md R292). -/
def writePrefix (s t : State) : State :=
  let n := (t.dstPtr - s.dstPtr).toNat
  if n = 0 then { s with draws := t.draws }
  else
    { s with
      mem := copyBytes t.mem s.dstPtr ((Config.free t.draws).toNat % (n + 1)) s.mem
      draws := t.draws + 1 }

/-- The bytes in memory when a reset ends a command (70_reset_and_hazards.md R292). -/
def abortBytes (s : State) : State :=
  match runningOutput s with
  | none => s
  | some t => writePrefix s t

/-- A reset ends the running command, if there is one, before the registers are reset (70_reset_and_hazards.md
R292): any value in the tables and buffers it writes, a prefix of its bytes in memory. -/
def abortRunning (s : State) : State :=
  match running s with
  | none => s
  | some i => freeTables (footprint s.ctrl i) (abortBytes s)

/-- The soft reset (70_reset_and_hazards.md R291, R292). -/
def softReset (s : State) : State := { resetRegisters (abortRunning s) with resp := .done }

/-- The hard reset (70_reset_and_hazards.md R290, R292, R293). -/
def hardReset (s : State) : State := forgetTables (resetRegisters (abortRunning s))

/-- A write to CMD (30_encoding.md R100(a), (b)). -/
def submit (w : Word) (s : State) : State :=
  if s.status.busy || s.status.fault then { s with status := { s.status with cmdRej := true } }
  else { s with lastCmd := w, status := { s.status with busy := true } }

/-- A write to STATUS clears the write-1-to-clear bits (10_state.md R27, 60_exceptions.md R255). -/
def writeStatus (w : Word) (s : State) : State :=
  let t := if w.getLsbD 1 then clearFault s else s
  { t with
    status := { t.status with
      cmdRej := t.status.cmdRej && !w.getLsbD 2
      wIgn := t.status.wIgn && !w.getLsbD 3 } }

/-- A write to IRQSTAT clears the bits written 1 (10_state.md R36). -/
def writeIrqStat (w : Word) (s : State) : State :=
  { s with irqStat := ⟨s.irqStat.done && !w.getLsbD 0, s.irqStat.fault && !w.getLsbD 1⟩ }

/-- A write that stores into a register, table or buffer (10_state.md R25 to R46); a word for a register that is
not plain storage changes nothing here. -/
def store (w : Word) (s : State) : Target → State
  | .reg .ctrl => { s with ctrl := ctrlOfWord w }
  | .reg .frame => { s with frame := frameOfWord w }
  | .reg .mcuPos => { s with mcuPos := mcuPosOfWord w }
  | .reg .src0 => { s with src0 := w }
  | .reg .src1 => { s with src1 := w }
  | .reg .src2 => { s with src2 := w }
  | .reg .stride => { s with stride := w }
  | .reg .dstPtr => { s with dstPtr := w }
  | .reg .dstLim => { s with dstLim := w }
  | .reg .dcPred0 => { s with dcPred0 := w.setWidth 16 }
  | .reg .dcPred1 => { s with dcPred1 := w.setWidth 16 }
  | .reg .dcPred2 => { s with dcPred2 := w.setWidth 16 }
  | .reg .pack => { s with pack := packOfWord w }
  | .reg .id => s
  | .reg .status => s
  | .reg .cmd => s
  | .reg .errInfo => s
  | .reg .irqEn => s
  | .reg .irqStat => s
  | .qtab k => { s with qtab := tabSet s.qtab k (w.setWidth 8) }
  | .huff k => { s with huff := tabSet s.huff k (huffOfWord w) }
  | .freq k => { s with freq := tabSet s.freq k w }
  | .blk k => { s with blk := tabSet s.blk k (w.setWidth 8) }
  | .coef k => { s with coef := tabSet s.coef k (w.setWidth 16) }
  | .qcoef k => { s with qcoef := tabSet s.qcoef k (w.setWidth 16) }
  | .zzbuf k => { s with zzbuf := tabSet s.zzbuf k (w.setWidth 16) }

/-- A plain store while a command runs is ignored and leaves WIGN (70_reset_and_hazards.md R300). -/
def storeUnlessBusy (w : Word) (tgt : Target) (s : State) : State :=
  if s.status.busy then { s with status := { s.status with wIgn := true } } else store w s tgt

/-- A register-port write of a word to an assigned offset (20_memory.md R71, 70_reset_and_hazards.md R300). -/
def writeTarget (w : Word) (s : State) : Target → State
  | .reg .id => { s with resp := .done }
  | .reg .errInfo => { s with resp := .done }
  | .reg .status => { writeStatus w s with resp := .done }
  | .reg .cmd => { submit w s with resp := .done }
  | .reg .irqEn => { s with irqEn := irqOfWord w, resp := .done }
  | .reg .irqStat => { writeIrqStat w s with resp := .done }
  | .reg .ctrl => if w.getLsbD 0 then softReset s else { storeUnlessBusy w (.reg .ctrl) s with resp := .done }
  | tgt => { storeUnlessBusy w tgt s with resp := .done }

/-- What a register-port transaction names, none where it ends in an error response (20_memory.md R72). -/
def portTarget (off : BitVec 16) (width : Nat) : Option Target :=
  if width = 32 then decodeOffset off.toNat else none

/-- A register-port write (20_memory.md R71, R72). -/
def regWrite (off : BitVec 16) (width : Nat) (w : Word) (s : State) : State :=
  match portTarget off width with
  | none => { s with resp := .busError }
  | some tgt => writeTarget w s tgt

/-- A register-port read (20_memory.md R71, R72): it has no side effect; what the running command writes
(70_reset_and_hazards.md R301) and an entry that holds no value (93_implementation_defined.md U1) read as any
value. -/
def regRead (off : BitVec 16) (width : Nat) (s : State) : State :=
  match portTarget off width with
  | none => { s with resp := .busError }
  | some tgt =>
    if covers (runningFootprint s) tgt then advance 1 { s with resp := .data (anyWord (freeNow s) tgt) }
    else
      match readTarget s tgt with
      | some w => { s with resp := .data w }
      | none => advance 1 { s with resp := .data (anyWord (freeNow s) tgt) }

/-- Another agent writes a byte of external memory; while a command runs, what the command reads there, and what
a byte it writes there ends as, is any value (70_reset_and_hazards.md R302). -/
def hostMemWrite (a : Word) (b : Byte) (s : State) : State :=
  let r : AddrRange := ⟨a.toNat, a.toNat + 1⟩
  { s with
    mem := Memory.write s.mem a.toNat b
    racySrc := if s.status.busy then r :: s.racySrc else s.racySrc
    racyDst := if s.status.busy then r :: s.racyDst else s.racyDst
    resp := .done }

/-- The host reads a byte of external memory; one the running command would write reads as any value
(70_reset_and_hazards.md R301, 20_memory.md R87). -/
def hostMemRead (a : Word) (s : State) : State :=
  match runningOutput s with
  | none => { s with resp := .byte (Memory.read s.mem a.toNat) }
  | some t =>
    if s.dstPtr ≤ a ∧ a < t.dstPtr then
      { s with resp := .byte ((Config.free t.draws).setWidth 8), draws := t.draws + 1 }
    else { s with resp := .byte (Memory.read s.mem a.toNat) }

/-- One event (60_exceptions.md R261). -/
def handleEvent (e : Event) (s : State) : Host.Outcome State Fault Refusal :=
  match e with
  | .regWrite off width w => .next (regWrite off width w s)
  | .regRead off width => .next (regRead off width s)
  | .memWrite a b => .next (hostMemWrite a b s)
  | .memRead a => .next (hostMemRead a s)
  | .hardReset => .next (hardReset s)
  | .engine => engineStep s

end Sys2Proof.Machine
end

