-- ==== Sys2Proof/Machine/Step.lean ====
section
/-! DEFINITION. One step of the whole system: the next event of the host and platform, or, with none left, the
engine's step (00_scope.md R9 to R11). -/

namespace Sys2Proof.Machine

/-- One step: the event at the head of the inputs acts; with no event left the engine acts. -/
def step (s : State) : Host.Outcome State Fault Refusal :=
  match s.inputs with
  | [] => engineStep s
  | e :: rest => handleEvent e { s with inputs := rest }

/-- The state in which the word w has just been accepted and the engine's turn is next: LASTCMD and BUSY as an
accepted write of w to CMD leaves them (30_encoding.md R100(b)), no fault pending, the engine's turn first among
the events (notes/assumptions/6.md). -/
def State.withFetchWord (s : State) (nbits w : Nat) : State :=
  { clearFault s with
    lastCmd := BitVec.ofNat 32 (w % 2 ^ nbits)
    status := { s.status with busy := true, fault := false, errCode := 0#8 }
    inputs := .engine :: s.inputs }

end Sys2Proof.Machine
end

