-- ==== Sys2Proof/Safety.lean ====
section
/-! DEFINITION. The terms in which claims are stated: the invariant of the machine, when a command has what it
needs, what a body may change, the symbols of a block, and the bits of a stream. -/

namespace Sys2Proof.Safety

open Sys2Proof.Machine

/-! The invariant. -/

/-- Storage is in canonical form and PACK holds no bit at or above CNT (20_memory.md R75, 10_state.md R33, R40 to
R47). -/
def StorageInv (s : State) : Prop :=
  Memory.wf s.mem ∧ tabWf 128 s.qtab ∧ tabWf 1024 s.huff ∧ tabWf 1024 s.freq ∧ tabWf 384 s.blk ∧
  tabWf 64 s.coef ∧ tabWf 64 s.qcoef ∧ tabWf 64 s.zzbuf ∧ s.pack.acc.toNat < 2 ^ s.pack.cnt.toNat

/-- BUSY and FAULT are never 1 together; ERRCODE is 0 when FAULT = 0 and a code of 60_exceptions.md R251 when
FAULT = 1; ERRINFO is 0 when FAULT = 0 (10_state.md R27, R34); nothing races with an idle engine. -/
def ControlInv (s : State) : Prop :=
  ¬ (s.status.busy = true ∧ s.status.fault = true) ∧
  (s.status.fault = false → s.status.errCode = 0#8 ∧ s.errInfo = 0#32) ∧
  (s.status.fault = true → 1 ≤ s.status.errCode.toNat ∧ s.status.errCode.toNat ≤ 7) ∧
  (s.status.busy = false → s.racySrc = [] ∧ s.racyDst = [])

/-- The invariant of the machine. -/
def Inv (s : State) : Prop := StorageInv s ∧ ControlInv s

/-! What a command needs. -/

/-- Every entry from lo on, n of them, holds a value. -/
abbrev Written {α : Type} (st : Store α) (lo n : Nat) : Prop := ∀ i < n, (tabGet st (lo + i)).isSome = true

/-- There is room for n bytes below DSTLIM, and none of their addresses answers a write with an error. -/
def RoomFor (n : Nat) (s : State) : Prop :=
  s.dstPtr.toNat + n ≤ s.dstLim.toNat ∧
  ∀ a : Word, s.dstPtr.toNat ≤ a.toNat → a.toNat < s.dstPtr.toNat + n → busError s .write a = false

/-- The symbol has a code of 1 to 16 bits (10_state.md R41). -/
def HasCode (s : State) (t sym : Nat) : Prop :=
  ∃ e, tabGet s.huff (256 * t + sym) = some e ∧ 1 ≤ e.len.toNat ∧ e.len.toNat ≤ 16

/-- The symbols AC coding can use: EOB, ZRL, and run and category with a category of 1 to 10 (43_entropy.md R198,
R200, R201). -/
def AcSymbolUsed (sym : Nat) : Prop :=
  sym = 0x00 ∨ sym = 0xF0 ∨ (sym < 256 ∧ 1 ≤ sym % 16 ∧ sym % 16 ≤ 10)

/-- Every symbol a component's coding can use has a code. -/
def CodesReady (c : Component) (s : State) : Prop :=
  (∀ k ≤ 11, HasCode s (dcTable c) k) ∧ ∀ sym, AcSymbolUsed sym → HasCode s (acTable c) sym

/-- Every counter of a component's two tables holds a value (60_exceptions.md R268). -/
def CountersReady (c : Component) (s : State) : Prop :=
  Written s.freq (256 * dcTable c) 256 ∧ Written s.freq (256 * acTable c) 256

/-- The value of ZZBUF[k]. -/
def zzAt (s : State) (k : Nat) : Int := ((tabGet s.zzbuf k).getD 0#16).toInt

/-- The DC difference of the block in ZZBUF as component c (43_entropy.md R205). -/
def dcDiff (c : Component) (s : State) : Int := zzAt s 0 - (pred s c).toInt

/-- ZZBUF is written and within the category limits of 43_entropy.md R211. -/
def Codable (c : Component) (s : State) : Prop :=
  Written s.zzbuf 0 64 ∧ (dcDiff c s).natAbs < 2048 ∧ ∀ k, 1 ≤ k → k < 64 → (zzAt s k).natAbs < 1024

/-- Every divisor of a table is written and is not 0. -/
def DivisorsReady (t : QSel) (s : State) : Prop :=
  ∀ i < 64, ∃ q, tabGet s.qtab (64 * qselNumber t + i) = some q ∧ q ≠ 0#8

/-- A predictor in the range of a quantized DC from the block's own datapath (43_entropy.md R211). -/
def PredInRange (s : State) (c : Component) : Prop := -1024 ≤ (pred s c).toInt ∧ (pred s c).toInt ≤ 1016

/-- No address LOAD_MCU reads answers with an error. -/
def ReadsAnswered (s : State) : Prop := ∀ a ∈ mcuAddrs s, busError s .read a = false

/-- No address LOAD_MCU reads has a read side effect, or was written by another agent while BUSY = 1. -/
def ReadsPlain (s : State) : Prop :=
  ∀ a ∈ mcuAddrs s, inRanges s.racySrc a.toNat = false ∧ inRanges s.volatileSrc a.toNat = false

/-- No source byte of the frame answers a read with an error. -/
def FrameAnswered (s : State) : Prop := ∀ a : Word, isSourceByte s a = true → busError s .read a = false

/-- The tables that every block of the mode needs are loaded, for the pass CTRL.STATS selects. -/
def TablesReady (s : State) : Prop :=
  ∀ e ∈ blockOrder s.ctrl, DivisorsReady e.2.1 s ∧
    (s.ctrl.stats = true → CountersReady e.2.2 s) ∧ (s.ctrl.stats = false → CodesReady e.2.2 s)

/-! The opcode table (30_encoding.md R105, R106), as masks and matches. -/

/-- The format-Z words. -/
def formatZWords : List Word :=
  [0x00000000#32, 0x00000001#32, 0x00000002#32, 0x00000010#32, 0x00000022#32, 0x00000032#32, 0x00000040#32,
   0x00000041#32]

/-- A word matches a row of the opcode table and its field values are legal. -/
def LegalWord (w : Word) : Prop :=
  (w &&& 0xFFFFFFFF#32) ∈ formatZWords ∨
  (w &&& 0xFFFFF8FF#32 = 0x00000020#32 ∧ (w.extractLsb' 8 3).toNat ≤ 5) ∨
  w &&& 0xFFFFFEFF#32 = 0x00000021#32 ∨
  (w &&& 0xFFFFFCFF#32 = 0x00000030#32 ∧ (w.extractLsb' 8 2).toNat ≤ 2) ∨
  (w &&& 0x0000E0FF#32 = 0x00000031#32 ∧ 1 ≤ (w.extractLsb' 8 5).toNat ∧ (w.extractLsb' 8 5).toNat ≤ 16)

/-! Words for outcomes and frames. -/


/-- What the body of a command may change at most (43_entropy.md R210, 44_sequencer.md R231, R232), DSTPTR only
forwards, and memory only from DSTPTR on up to where DSTPTR ends. -/
def EngineFrame (s t : State) : Prop :=
  t = { s with
    mcuPos := t.mcuPos, dcPred0 := t.dcPred0, dcPred1 := t.dcPred1, dcPred2 := t.dcPred2, pack := t.pack
    dstPtr := t.dstPtr, freq := t.freq, blk := t.blk, coef := t.coef, qcoef := t.qcoef, zzbuf := t.zzbuf
    mem := t.mem, draws := t.draws } ∧
  s.dstPtr.toNat ≤ t.dstPtr.toNat ∧ s.draws ≤ t.draws ∧
  ∀ a : Nat, ¬ (s.dstPtr.toNat ≤ a ∧ a < t.dstPtr.toNat) → Memory.read t.mem a = Memory.read s.mem a

/-- The same for the bit packer alone: PACK, DSTPTR and the output bytes (43_entropy.md R190). -/
def StreamFrame (s t : State) : Prop :=
  t = { s with pack := t.pack, dstPtr := t.dstPtr, mem := t.mem, draws := t.draws } ∧
  s.dstPtr.toNat ≤ t.dstPtr.toNat ∧ s.draws ≤ t.draws ∧
  ∀ a : Nat, ¬ (s.dstPtr.toNat ≤ a ∧ a < t.dstPtr.toNat) → Memory.read t.mem a = Memory.read s.mem a

/-- A relation between a state and the state a body reached, whether it ended or faulted. -/
def Reaches (R : State → State → Prop) (s : State) : Except Halt State → Prop
  | .ok t => R s t
  | .error (.raise _ _ t) => R s t
  | .error (.unwritten _ _ t) => R s t

/-! The register window (10_state.md R23, R47). -/

/-- A reserved offset of the register window (10_state.md R37, R47). -/
def ReservedOffset (off : Nat) : Prop :=
  (0x04C ≤ off ∧ off < 0x400) ∨ (0x600 ≤ off ∧ off < 0x1000) ∨ (0x3600 ≤ off ∧ off < 0x3800) ∨ 0x3B00 ≤ off

/-- The low 16 bits of a word, sign-extended. -/
def signedLow (w : Word) : Word := (w.setWidth 16).signExtend 32

/-- What a register that stores what is written, a table entry or a buffer element shows after a word was written to it (10_state.md R25 to
R46); none for the registers that are not plain storage. -/
def storedWord (w : Word) : Target → Option Word
  | .reg .ctrl => some (w &&& 0x0000007E#32)
  | .reg .frame => some w
  | .reg .mcuPos => some w
  | .reg .src0 => some w
  | .reg .src1 => some w
  | .reg .src2 => some w
  | .reg .stride => some w
  | .reg .dstPtr => some w
  | .reg .dstLim => some w
  | .reg .dcPred0 => some (signedLow w)
  | .reg .dcPred1 => some (signedLow w)
  | .reg .dcPred2 => some (signedLow w)
  | .reg .pack => some (BitVec.ofNat 32 (w.toNat / 256 % 8 * 256 + w.toNat % 128 % 2 ^ (w.toNat / 256 % 8)))
  | .reg .id => none
  | .reg .status => none
  | .reg .cmd => none
  | .reg .errInfo => none
  | .reg .irqEn => some (w &&& 0x00000003#32)
  | .reg .irqStat => none
  | .qtab _ => some (w &&& 0x000000FF#32)
  | .huff _ => some (w &&& 0x001FFFFF#32)
  | .freq _ => some w
  | .blk _ => some (w &&& 0x000000FF#32)
  | .coef _ => some (signedLow w)
  | .qcoef _ => some (signedLow w)
  | .zzbuf _ => some (signedLow w)

/-- Every register shows its reset value (70_reset_and_hazards.md R290). -/
def RegistersReset (s : State) : Prop :=
  readReg s .id = 0x4A500001#32 ∧ readReg s .ctrl = 0x00000044#32 ∧
  ∀ r, r ≠ .id → r ≠ .ctrl → readReg s r = 0x00000000#32

/-! Pixels (40_csc.md R131). -/

/-- Pixel(x, y) from memory as it stands. -/
def pixelAt (s : State) (x y : Nat) : Byte × Byte × Byte :=
  pixelOf s.ctrl.infmt ((pixelAddrs s x y).map fun a => Memory.read s.mem a.toNat)

/-- The first pixel column of the MCU at MCUPOS (40_csc.md R135). -/
def mcuX0 (s : State) : Nat := s.mcuPos.mx.toNat * mcuSize s.ctrl

/-- The first pixel row of the MCU at MCUPOS (40_csc.md R135). -/
def mcuY0 (s : State) : Nat := s.mcuPos.my.toNat * mcuSize s.ctrl

/-- The rounded average of four samples (40_csc.md R136). -/
def average4 (a b c d : Byte) : Byte := BitVec.ofNat 8 ((a.toNat + b.toNat + c.toNat + d.toNat + 2) / 4)

/-! Symbols (43_entropy.md R200 to R205), as pure lists: symbol, magnitude bits, their number. -/

/-- The AC symbols of the values still to code after a run of r zeros; std selects AcStd or AcSrc. -/
def acSyms (std : Bool) : Nat → List Int → List (Nat × Nat × Nat)
  | r, [] => if 0 < r then [(0x00, 0, 0)] else []
  | r, v :: vs =>
    if v = 0 then
      if std then acSyms std (r + 1) vs
      else if r + 1 = 16 then (0xF0, 0, 0) :: acSyms std 0 vs
      else acSyms std (r + 1) vs
    else List.replicate (r / 16) (0xF0, 0, 0) ++ (r % 16 * 16 + cat v, mag v (cat v), cat v) :: acSyms std 0 vs

/-- The AC values of ZZBUF, k = 1..63. -/
def acValues (s : State) : List Int := (List.range' 1 63).map (zzAt s)

/-- The symbols of the block in ZZBUF as component c, each with its table. -/
def blockSyms (c : Component) (s : State) : List (Nat × Nat × Nat × Nat) :=
  (dcTable c, cat (dcDiff c s), mag (dcDiff c s) (cat (dcDiff c s)), cat (dcDiff c s)) ::
    (acSyms s.ctrl.acmode 0 (acValues s)).map fun y => (acTable c, y)

/-- Symbol for each element of a list in turn. -/
def codeSyms : List (Nat × Nat × Nat × Nat) → State → Except Halt State
  | [], s => .ok s
  | y :: ys, s =>
    match symbol y.1 y.2.1 y.2.2.1 y.2.2.2 s with
    | .error h => .error h
    | .ok t => codeSyms ys t

/-- How many zeros end a list. -/
def trailingZeros (vs : List Int) : Nat := (vs.reverse.takeWhile (fun v => v = 0)).length

/-! Bits and bytes of the stream (43_entropy.md R190 to R193). -/

/-- The low n bits of v, most significant first. -/
def bitsOf : Nat → Nat → List Bool
  | 0, _ => []
  | n + 1, v => (v / 2 ^ n % 2 == 1) :: bitsOf n v

/-- The pending bits in PACK, oldest first. -/
def pendingBits (s : State) : List Bool := bitsOf s.pack.cnt.toNat s.pack.acc.toNat

/-- The bits of bytes, each from bit 7 to bit 0. -/
def byteBits (bs : List Byte) : List Bool := bs.flatMap fun b => bitsOf 8 b.toNat

/-- Every 0xFF followed by 0x00 (43_entropy.md R191). -/
def stuffed (bs : List Byte) : List Byte := bs.flatMap fun b => if b = 0xFF#8 then [b, 0x00#8] else [b]

/-- n bytes of a memory from an address on. -/
def bytesFrom (m : List Host.Cell) (a n : Nat) : List Byte := (List.range n).map fun i => Memory.read m (a + i)

/-- From s to t the packer appended the bits new to the bit stream (43_entropy.md R190 to R193): the pending bits
before and the new ones are the bits of some bytes and the pending bits after, and those bytes, stuffed, are what
stands in memory from the old DSTPTR to the new one. -/
def Appends (s t : State) (new : List Bool) : Prop :=
  ∃ bs : List Byte,
    pendingBits s ++ new = byteBits bs ++ pendingBits t ∧
    t.dstPtr.toNat = s.dstPtr.toNat + (stuffed bs).length ∧
    bytesFrom t.mem s.dstPtr.toNat (stuffed bs).length = stuffed bs

/-- The bits of a symbol: its code, then its magnitude bits (43_entropy.md R196). -/
def symBits (s : State) (y : Nat × Nat × Nat × Nat) : List Bool :=
  match tabGet s.huff (256 * y.1 + y.2.1) with
  | none => []
  | some e => bitsOf e.len.toNat e.code.toNat ++ bitsOf y.2.2.2 y.2.2.1

/-- The number a list of bits shows, the first bit the highest. -/
def bitsValue (bs : List Bool) : Nat := bs.foldl (fun v b => 2 * v + b.toNat) 0

/-- The complete bytes of a bit stream, bit 7 first (43_entropy.md R190). -/
def completeBytes : List Bool → List Byte
  | b7 :: b6 :: b5 :: b4 :: b3 :: b2 :: b1 :: b0 :: rest =>
    BitVec.ofNat 8 (bitsValue [b7, b6, b5, b4, b3, b2, b1, b0]) :: completeBytes rest
  | _ => []

/-- The bytes the packer writes when the bits new are appended, stuffed (43_entropy.md R190, R191). -/
def streamBytes (s : State) (new : List Bool) : List Byte := stuffed (completeBytes (pendingBits s ++ new))

/-- From s to t exactly the bytes that the bits new complete were written, whatever PACK holds then. -/
def WroteBits (s t : State) (new : List Bool) : Prop :=
  t.dstPtr.toNat = s.dstPtr.toNat + (streamBytes s new).length ∧
  (s.racyDst = [] → bytesFrom t.mem s.dstPtr.toNat (streamBytes s new).length = streamBytes s new) ∧
  ∀ a : Nat, ¬ (s.dstPtr.toNat ≤ a ∧ a < t.dstPtr.toNat) → Memory.read t.mem a = Memory.read s.mem a

/-- The n-th byte from DSTPTR on, counted from 0, is the first that cannot be written: it meets DSTLIM or its
address answers a write with an error (43_entropy.md R192, 20_memory.md R77). -/
def StopsAt (s : State) (n : Nat) : Prop :=
  (∀ j < n, s.dstPtr.toNat + j < s.dstLim.toNat ∧ busError s .write (s.dstPtr + BitVec.ofNat 32 j) = false) ∧
  (s.dstLim.toNat ≤ s.dstPtr.toNat + n ∨ busError s .write (s.dstPtr + BitVec.ofNat 32 n) = true)

/-- The fault state in which the n-th of the bytes out could not be written: DST_OVF at the limit, else BUS_ERR,
its address in ERRINFO and in DSTPTR, the bytes before it in memory (60_exceptions.md R253(b), (c), R266, R267). -/
def OutputFault (s t : State) (out : List Byte) (n : Nat) : Prop :=
  t.status.fault = true ∧ t.status.busy = false ∧
  t.status.errCode = (if s.dstLim.toNat ≤ s.dstPtr.toNat + n then 6#8 else 7#8) ∧
  t.errInfo = t.dstPtr ∧ t.dstPtr.toNat = s.dstPtr.toNat + n ∧
  (s.racyDst = [] → bytesFrom t.mem s.dstPtr.toNat n = out.take n) ∧
  ∀ a : Nat, ¬ (s.dstPtr.toNat ≤ a ∧ a < s.dstPtr.toNat + n) → Memory.read t.mem a = Memory.read s.mem a

/-- The bits new are those a PUTBITS, a FLUSH or an ENC_BLOCK appends in the state s (43_entropy.md R222, R223,
R210). -/
def Emits (s : State) (i : Instr) (new : List Bool) : Prop :=
  (∃ v n, i = .putbits v n ∧ i.wf = true ∧ new = bitsOf n.toNat v.toNat) ∨
  (i = .flush ∧ s.pack.cnt ≠ 0#3 ∧ new = List.replicate (8 - s.pack.cnt.toNat) true) ∨
  (∃ c, i = .encBlock c ∧ s.ctrl.stats = false ∧ Codable c s ∧ CodesReady c s ∧
    new = (blockSyms c s).flatMap (symBits s))

/-- The AC symbols sent by the time the values listed have been coded, after a run of r zeros: no EOB yet, and in
AcStd no ZRL for a run that is still open. -/
def acBefore (std : Bool) : Nat → List Int → List (Nat × Nat × Nat)
  | _, [] => []
  | r, v :: vs =>
    if v = 0 then
      if std then acBefore std (r + 1) vs
      else if r + 1 = 16 then (0xF0, 0, 0) :: acBefore std 0 vs
      else acBefore std (r + 1) vs
    else List.replicate (r / 16) (0xF0, 0, 0) ++ (r % 16 * 16 + cat v, mag v (cat v), cat v) :: acBefore std 0 vs

/-- The symbols of a block coded before the coding loop reaches ZZBUF[k], each with its table. -/
def symsBefore (c : Component) (s : State) (k : Nat) : List (Nat × Nat × Nat × Nat) :=
  (dcTable c, cat (dcDiff c s), mag (dcDiff c s) (cat (dcDiff c s)), cat (dcDiff c s)) ::
    (acBefore s.ctrl.acmode 0 ((List.range' 1 (k - 1)).map (zzAt s))).map fun y => (acTable c, y)

/-- Every 0xFF among the bytes from a up to b is followed by 0x00 before b (43_entropy.md R193). -/
def Stuffed (m : List Host.Cell) (a b : Nat) : Prop :=
  ∀ j, a ≤ j → j < b → Memory.read m j = 0xFF#8 → j + 1 < b ∧ Memory.read m (j + 1) = 0x00#8

/-! Commands in sequence. -/

/-- Commands run one after another; the first that faults or stops is the last. -/
def runAll : List Instr → State → Host.Outcome State Fault Refusal
  | [], s => .next s
  | i :: is, s =>
    match exec i s with
    | .next t => if t.status.fault then .next t else runAll is t
    | .fault f => .fault f
    | .refused r => .refused r

/-- The commands whose effects ENC_MCU performs (44_sequencer.md R231). -/
def mcuCommands (c : Ctrl) : List Instr :=
  .loadMcu :: (blockOrder c).flatMap fun e => [.fdct e.1, .quant e.2.1, .zigzag, .encBlock e.2.2]

/-- ENC_MCU at each listed MCU position in turn, as the host would set MCUPOS and issue it. -/
def runMcus : List (Nat × Nat) → State → Host.Outcome State Fault Refusal
  | [], s => .next s
  | p :: ps, s =>
    match exec .encMcu { s with mcuPos := ⟨BitVec.ofNat 16 p.1, BitVec.ofNat 16 p.2⟩ } with
    | .next t => if t.status.fault then .next t else runMcus ps t
    | .fault f => .fault f
    | .refused r => .refused r

/-- The MCU positions (column, row) of the frame, left to right and then top to bottom, the n-th being column
n mod GX of row n div GX (44_sequencer.md R232, R233). -/
def rasterOrder (s : State) : List (Nat × Nat) :=
  let m := if s.ctrl.mode = 2#2 then 16 else 8
  let gx := (s.frame.w.toNat + m - 1) / m
  let gy := (s.frame.h.toNat + m - 1) / m
  (List.range (gx * gy)).map fun n => (n % gx, n / gx)

/-- The commands whose effects ENC_SCAN performs: DC_RESET, ENC_MCU at every MCU position, and FLUSH in an emitting
pass (44_sequencer.md R232). -/
def runScan (s : State) : Host.Outcome State Fault Refusal :=
  match exec .dcReset s with
  | .next t =>
    match runMcus (rasterOrder s) t with
    | .next u => if u.status.fault || s.ctrl.stats then .next u else exec .flush u
    | .fault f => .fault f
    | .refused r => .refused r
  | .fault f => .fault f
  | .refused r => .refused r

/-- The whole output region lies outside the source region of the frame (70_reset_and_hazards.md R303). -/
def OutputDisjoint (s : State) : Prop :=
  ∀ a : Word, s.dstPtr ≤ a → a < s.dstLim → isSourceByte s a = false

/-- A longer command faulted where the commands in sequence did: the same code, ERRINFO, memory and DSTPTR. -/
def FaultsLike (t u : State) : Prop :=
  u.status = t.status ∧ u.errInfo = t.errInfo ∧ u.mem = t.mem ∧ u.dstPtr = t.dstPtr

/-- No entry of any table or buffer holds a value (70_reset_and_hazards.md R293). -/
def TablesEmpty (t : State) : Prop :=
  t.qtab = [] ∧ t.huff = [] ∧ t.freq = [] ∧ t.blk = [] ∧ t.coef = [] ∧ t.qcoef = [] ∧ t.zzbuf = []

/-- The tables and buffers a footprint does not name are as before. -/
def TablesKept (fp : Footprint) (s t : State) : Prop :=
  t.qtab = s.qtab ∧ t.huff = s.huff ∧ (fp.coef = false → t.coef = s.coef) ∧ (fp.qcoef = false → t.qcoef = s.qcoef) ∧
  (fp.zzbuf = false → t.zzbuf = s.zzbuf) ∧
  (∀ k < 384, k / 64 ∉ fp.blks → tabGet t.blk k = tabGet s.blk k) ∧
  ∀ k < 1024, k / 256 ∉ fp.freqs → tabGet t.freq k = tabGet s.freq k

end Sys2Proof.Safety
end

