-- ==== Sys2Proof/Certificates/Slice0/Obligations.lean ====
section
/-! DEFINITION. The statements for the provers, each formalising rules of spec/. -/

open Sys2Proof Sys2Proof.Machine Sys2Proof.Safety

/-! Encoding (30_encoding.md). -/

/-- Decoding the word of a well-formed command gives the command back, with every operand at every legal value
(R103, R105, R108). -/
def Obligations.DecodeOfEncode : Prop :=
  ∀ i : Instr, i.wf = true → decode (encode i) = .ok i

/-- What the decoder accepts is well formed and is the word of that command; for PUTBITS only the bits of V above
N may differ, and V mod 2^N is the operand (R103, R107). -/
def Obligations.EncodeOfDecode : Prop :=
  ∀ (w : Word) (i : Instr), decode w = .ok i →
    i.wf = true ∧
    ((∀ v n, i ≠ .putbits v n) → encode i = w) ∧
    (∀ v n, i = .putbits v n →
      (encode i).extractLsb' 0 16 = w.extractLsb' 0 16 ∧ v.toNat = (w.extractLsb' 16 16).toNat % 2 ^ n.toNat)

/-- The decoder accepts exactly the words that match a row of the opcode table with legal fields; every other word
is illegal (R105, R106). -/
def Obligations.DecodeExactlyTheTable : Prop :=
  ∀ w : Word, (∃ i, decode w = .ok i) ↔ LegalWord w

/-- The worked encodings of R107. -/
def Obligations.WorkedEncodings : Prop :=
  decode 0x00000320#32 = .ok (.fdct 3) ∧ decode 0x00000620#32 = .error .block ∧
  decode 0x00000121#32 = .ok (.quant .chroma) ∧ decode 0x00000321#32 = .error .reserved ∧
  decode 0x00000230#32 = .ok (.encBlock .cr) ∧ decode 0x00FF0831#32 = .ok (.putbits 0xFF#16 8#5) ∧
  decode 0x00050331#32 = .ok (.putbits 5#16 3#5) ∧ decode 0x00011031#32 = .ok (.putbits 1#16 16#5) ∧
  decode 0x00001131#32 = .error .count ∧ decode 0x00002831#32 = .error .reserved ∧
  decode 0x00000000#32 = .ok .nop ∧ decode 0xFFFFFFFF#32 = .error .opcode

/-! The machine (00_scope.md R10, 30_encoding.md R100). -/

/-- When a command is executing, the engine's step is exec of the command the accepted word decodes to, with no
event left or at the engine's turn; which agent moves next is the model's scheduling
(notes/assumptions/6.md). -/
def Obligations.StepRunsDecoded : Prop :=
  ∀ (s : State) (i : Instr) (rest : List Event), s.status.busy = true → decode s.lastCmd = .ok i →
    (s.inputs = [] → step s = exec i s) ∧
    (s.inputs = .engine :: rest → step s = exec i { s with inputs := rest })

/-- An idle block does nothing and keeps all its state (60_exceptions.md R285). -/
def Obligations.IdleKeepsAllState : Prop :=
  ∀ s : State, s.status.busy = false → s.inputs = [] → step s = .next s

/-- A write to CMD is rejected while BUSY = 1 or FAULT = 1, and leaves only CMDREJ; otherwise it is accepted
(R100(a), (b)). -/
def Obligations.CmdWriteAcceptedOrRejected : Prop :=
  ∀ (s : State) (w : Word) (rest : List Event), s.inputs = .regWrite 0x00C#16 32 w :: rest →
    (s.status.busy = true ∨ s.status.fault = true →
      step s = .next { s with inputs := rest, resp := .done, status := { s.status with cmdRej := true } }) ∧
    (s.status.busy = false → s.status.fault = false →
      step s = .next { s with
        inputs := rest, resp := .done, lastCmd := w, status := { s.status with busy := true } })

/-- An accepted word that is no command raises ILLEGAL_CMD with the word in ERRINFO, and nothing but the fault
state changes (60_exceptions.md R252, R269). -/
def Obligations.IllegalWordFaults : Prop :=
  ∀ (s : State) (e : DecodeError), s.status.busy = true → s.inputs = [] → decode s.lastCmd = .error e →
    step s = .next { s with
      status := { s.status with errCode := 1#8, fault := true, busy := false }
      errInfo := s.lastCmd
      irqStat := { s.irqStat with fault := true }
      racySrc := [], racyDst := [] }

/-- A command that ends, ends with BUSY = 0: it completes, with DONE set and the fault state as it was, or it
faults, with a code of R251, FAULT and IRQSTAT.FAULT set and DONE as it was; the interrupt line follows (30_encoding.md R100(c),
(d), 60_exceptions.md R251, R252, R270). -/
def Obligations.CommandOutcomes : Prop :=
  ∀ (i : Instr) (s t : State), exec i s = .next t →
    t.status.busy = false ∧
    ((t.status.fault = s.status.fault ∧ t.status.errCode = s.status.errCode ∧ t.errInfo = s.errInfo ∧
        t.irqStat = { s.irqStat with done := true } ∧
        irq t = (s.irqEn.done || (s.irqStat.fault && s.irqEn.fault))) ∨
     (t.status.fault = true ∧ 1 ≤ t.status.errCode.toNat ∧ t.status.errCode.toNat ≤ 7 ∧
        t.irqStat = { s.irqStat with fault := true } ∧
        irq t = ((s.irqStat.done && s.irqEn.done) || s.irqEn.fault)))

/-- The frame of every command: whatever the outcome, it writes STATUS, IRQSTAT and ERRINFO and, of all else, only
what its rule says it writes, DSTPTR only forwards, and memory only from the old DSTPTR up to the new one
(60_exceptions.md R253(b), (c), (e)); the model's own fields take only free values and drop the races. -/
def Obligations.CommandsWriteOnlyTheirFootprint : Prop :=
  ∀ (i : Instr) (s t : State), exec i s = .next t →
    t = { s with
      status := ⟨false, t.status.fault, s.status.cmdRej, s.status.wIgn, t.status.errCode⟩
      errInfo := t.errInfo, irqStat := t.irqStat, racySrc := [], racyDst := [], draws := t.draws
      mcuPos := t.mcuPos, dcPred0 := t.dcPred0, dcPred1 := t.dcPred1, dcPred2 := t.dcPred2, pack := t.pack
      dstPtr := t.dstPtr, freq := t.freq, blk := t.blk, coef := t.coef, qcoef := t.qcoef, zzbuf := t.zzbuf
      mem := t.mem } ∧
    s.dstPtr.toNat ≤ t.dstPtr.toNat ∧
    (∀ a : Nat, ¬ (s.dstPtr.toNat ≤ a ∧ a < t.dstPtr.toNat) → Memory.read t.mem a = Memory.read s.mem a) ∧
    ((footprint s.ctrl i).stream = false → t.mem = s.mem ∧ t.dstPtr = s.dstPtr) ∧
    ((footprint s.ctrl i).pack = false → t.pack = s.pack) ∧
    ((footprint s.ctrl i).mcuPos = false → t.mcuPos = s.mcuPos) ∧
    ((footprint s.ctrl i).coef = false → t.coef = s.coef) ∧
    ((footprint s.ctrl i).qcoef = false → t.qcoef = s.qcoef) ∧
    ((footprint s.ctrl i).zzbuf = false → t.zzbuf = s.zzbuf) ∧
    (∀ c, c ∉ (footprint s.ctrl i).preds → pred t c = pred s c) ∧
    (∀ k < 384, k / 64 ∉ (footprint s.ctrl i).blks → tabGet t.blk k = tabGet s.blk k) ∧
    (∀ k < 1024, k / 256 ∉ (footprint s.ctrl i).freqs → tabGet t.freq k = tabGet s.freq k)

/-- The invariant of the machine is kept by every step: storage stays canonical, PACK holds no bit at or above
CNT, BUSY and FAULT are never 1 together, ERRCODE and ERRINFO are 0 without a fault (10_state.md R27, R33, R34);
the canonical form and the races are the model's (notes/assumptions/2.md, 5.md, 7.md). -/
def Obligations.InvariantKept : Prop :=
  ∀ s t : State, Inv s → step s = .next t → Inv t

/-- The invariant holds after reset. -/
def Obligations.InvariantAtReset : Prop := Inv State.reset

/-- After a hard reset every register shows its reset value, the interrupt line is low, and no table or buffer
entry holds a value (70_reset_and_hazards.md R290, R293). -/
def Obligations.ResetState : Prop :=
  RegistersReset State.reset ∧ irq State.reset = false ∧ State.reset.status.busy = false ∧
  ∀ k, tabGet State.reset.qtab k = none ∧ tabGet State.reset.huff k = none ∧ tabGet State.reset.freq k = none ∧
    tabGet State.reset.blk k = none ∧ tabGet State.reset.coef k = none ∧ tabGet State.reset.qcoef k = none ∧
    tabGet State.reset.zzbuf k = none

/-- A reset of an idle block: the soft reset sets every register and keeps tables and buffers; the hard reset also
leaves every entry without a value (70_reset_and_hazards.md R290, R291, R293). That memory is kept, since only
MemWrite writes it (20_memory.md R77), and that a hard reset is one event, are the model's (notes/assumptions/15.md). -/
def Obligations.ResetsWhenIdle : Prop :=
  ∀ (s : State) (w : Word) (rest : List Event), s.status.busy = false →
    (s.inputs = .regWrite 0x004#16 32 w :: rest → w.getLsbD 0 = true →
      ∃ t, step s = .next t ∧ RegistersReset t ∧ t.qtab = s.qtab ∧ t.huff = s.huff ∧ t.freq = s.freq ∧
        t.blk = s.blk ∧ t.coef = s.coef ∧ t.qcoef = s.qcoef ∧ t.zzbuf = s.zzbuf ∧ t.mem = s.mem) ∧
    (s.inputs = .hardReset :: rest →
      ∃ t, step s = .next t ∧ RegistersReset t ∧ TablesEmpty t ∧ t.mem = s.mem)

/-- A reset while BUSY = 1, soft or hard: the registers are reset; the soft reset keeps every table and buffer the
running command does not write, the hard reset leaves none with a value; memory changes at most from DSTPTR up to
DSTLIM (43_entropy.md R192); and where the running command would end in the state u, memory holds some prefix of the
bytes it would write (70_reset_and_hazards.md R290 to R293). That these are the bytes of exec at the reset is the
model's choice (notes/assumptions/9.md). -/
def Obligations.ResetDuringCommand : Prop :=
  ∀ (s : State) (e : Event) (rest : List Event), s.status.busy = true → s.inputs = e :: rest →
    (e = .hardReset ∨ ∃ w : Word, e = .regWrite 0x004#16 32 w ∧ w.getLsbD 0 = true) →
    ∃ t, step s = .next t ∧ RegistersReset t ∧
      (e = .hardReset → TablesEmpty t) ∧ (e ≠ .hardReset → TablesKept (runningFootprint s) s t) ∧
      (∀ a : Nat, ¬ (s.dstPtr.toNat ≤ a ∧ a < s.dstLim.toNat) → Memory.read t.mem a = Memory.read s.mem a) ∧
      ∀ (i : Instr) (u : State), decode s.lastCmd = .ok i → exec i { s with inputs := rest } = .next u →
        ∃ k : Nat, s.dstPtr.toNat + k ≤ u.dstPtr.toNat ∧
          ∀ a : Nat, Memory.read t.mem a =
            if s.dstPtr.toNat ≤ a ∧ a < s.dstPtr.toNat + k then Memory.read u.mem a else Memory.read s.mem a

/-- While a command is executing, no register-port write but a reset changes anything a command reads: at most
STATUS (BUSY stays 1), IRQEN, IRQSTAT and ERRINFO change; and a write to any register, table or buffer other than
CMD, STATUS, IRQEN, IRQSTAT, ID, ERRINFO and a CTRL write with bit 0 = 1 is ignored and leaves WIGN
(70_reset_and_hazards.md R300). -/
def Obligations.BusyWriteIgnored : Prop :=
  ∀ (s : State) (off : BitVec 16) (width : Nat) (w : Word) (rest : List Event), s.status.busy = true →
    s.inputs = .regWrite off width w :: rest →
    (¬ (off = 0x004#16 ∧ width = 32 ∧ w.getLsbD 0 = true) →
      ∃ t, step s = .next t ∧ t.status.busy = true ∧
        t = { s with
          inputs := rest, resp := t.resp, status := t.status, irqEn := t.irqEn, irqStat := t.irqStat
          errInfo := t.errInfo }) ∧
    ∀ tgt : Target, width = 32 → decodeOffset off.toNat = some tgt →
      tgt ∉ [.reg .cmd, .reg .status, .reg .irqEn, .reg .irqStat, .reg .id, .reg .errInfo] →
      ¬ (tgt = .reg .ctrl ∧ w.getLsbD 0 = true) →
      step s = .next { s with inputs := rest, resp := .done, status := { s.status with wIgn := true } }

/-- A register-port transaction at a misaligned or reserved offset, or not 32 bits wide, ends with an error
response and changes no state (20_memory.md R72). -/
def Obligations.PortErrorResponse : Prop :=
  ∀ (s : State) (off : BitVec 16) (width : Nat) (w : Word) (rest : List Event),
    (off.toNat % 4 ≠ 0 ∨ ReservedOffset off.toNat ∨ width ≠ 32) →
    (s.inputs = .regWrite off width w :: rest → step s = .next { s with inputs := rest, resp := .busError }) ∧
    (s.inputs = .regRead off width :: rest → step s = .next { s with inputs := rest, resp := .busError })

/-- A register-port read changes nothing but its answer (and the model's count of free values,
notes/assumptions/1.md); what a running command
does not write, and holds a value, reads as its value (20_memory.md R71, 70_reset_and_hazards.md R301). -/
def Obligations.PortReadsChangeNothing : Prop :=
  ∀ (s : State) (off : BitVec 16) (width : Nat) (rest : List Event), s.inputs = .regRead off width :: rest →
    ∃ (n : Nat) (r : PortResponse), step s = .next { s with inputs := rest, resp := r, draws := s.draws + n } ∧
      ∀ (tgt : Target) (v : Word), width = 32 → decodeOffset off.toNat = some tgt →
        covers (runningFootprint s) tgt = false → readTarget s tgt = some v → n = 0 ∧ r = .data v

/-- A word written to a register that stores what is written, a table entry or a buffer element of an idle block
reads back as the rule of its target says: reserved bits 0, 16-bit elements sign-extended, PACK with ACC below
2^CNT (10_state.md R25 to R46); CTRL for a word with bit 0 = 0. -/
def Obligations.WrittenWordReadsBack : Prop :=
  ∀ (s : State) (off : BitVec 16) (w v : Word) (rest : List Event) (tgt : Target), s.status.busy = false →
    decodeOffset off.toNat = some tgt → storedWord w tgt = some v → (tgt = .reg .ctrl → w.getLsbD 0 = false) →
    s.inputs = .regWrite off 32 w :: .regRead off 32 :: rest →
    ∃ t u, step s = .next t ∧ step t = .next u ∧ u.resp = .data v ∧ u.inputs = rest

/-- The writes that do not store: STATUS clears FAULT with ERRCODE and ERRINFO, CMDREJ and WIGN exactly where bits 1,
2 and 3 are 1 (10_state.md R27, 60_exceptions.md R255); IRQSTAT clears DONE and FAULT exactly where bits 0 and 1 are
1 (R36); IRQEN stores bits 0 and 1 (R35); ID and ERRINFO ignore the write (R24, R34). Nothing else changes, with
BUSY = 1 as with BUSY = 0 (70_reset_and_hazards.md R300). -/
def Obligations.StatusAndInterruptWrites : Prop :=
  ∀ (s : State) (w : Word) (rest : List Event),
    (s.inputs = .regWrite 0x008#16 32 w :: rest →
      step s = .next { s with
        inputs := rest, resp := .done, errInfo := if w.getLsbD 1 then 0#32 else s.errInfo
        status := ⟨s.status.busy, s.status.fault && !w.getLsbD 1, s.status.cmdRej && !w.getLsbD 2,
          s.status.wIgn && !w.getLsbD 3, if w.getLsbD 1 then 0#8 else s.status.errCode⟩ }) ∧
    (s.inputs = .regWrite 0x044#16 32 w :: rest →
      step s = .next { s with inputs := rest, resp := .done, irqEn := ⟨w.getLsbD 0, w.getLsbD 1⟩ }) ∧
    (s.inputs = .regWrite 0x048#16 32 w :: rest →
      step s = .next { s with
        inputs := rest, resp := .done
        irqStat := ⟨s.irqStat.done && !w.getLsbD 0, s.irqStat.fault && !w.getLsbD 1⟩ }) ∧
    (s.inputs = .regWrite 0x000#16 32 w :: rest ∨ s.inputs = .regWrite 0x040#16 32 w :: rest →
      step s = .next { s with inputs := rest, resp := .done })

/-- External memory as the host and other agents reach it: a direct write changes that byte alone, and while BUSY = 1
marks it as one the running command reads and leaves as any value (70_reset_and_hazards.md R302); a direct read
changes nothing but its answer (and the model's count of free values) and gives the byte, unless the running command
would write it (20_memory.md R75, R87, 70_reset_and_hazards.md R301). The marks, and the bytes of exec as those the
command would write, are the model's (notes/assumptions/5.md, 10.md). -/
def Obligations.HostMemoryAccess : Prop :=
  ∀ (s : State) (a : Word) (rest : List Event),
    (∀ b : Byte, s.inputs = .memWrite a b :: rest →
      ∃ t, step s = .next t ∧
        t = { s with
          inputs := rest, resp := .done, mem := t.mem, racySrc := t.racySrc, racyDst := t.racyDst } ∧
        Memory.read t.mem a.toNat = b ∧ (∀ x, x ≠ a.toNat → Memory.read t.mem x = Memory.read s.mem x) ∧
        ∀ x, inRanges t.racySrc x = (inRanges s.racySrc x || (s.status.busy && decide (x = a.toNat))) ∧
          inRanges t.racyDst x = (inRanges s.racyDst x || (s.status.busy && decide (x = a.toNat)))) ∧
    (s.inputs = .memRead a :: rest →
      ∃ t v, step s = .next t ∧ t = { s with inputs := rest, resp := .byte v, draws := t.draws } ∧
        ((runningFootprint s).stream = false → v = Memory.read s.mem a.toNat) ∧
        ∀ (i : Instr) (u : State), decode s.lastCmd = .ok i → exec i { s with inputs := rest } = .next u →
          ¬ (s.dstPtr ≤ a ∧ a < u.dstPtr) → v = Memory.read s.mem a.toNat)

/-! Control commands. -/

/-- NOP does nothing, completes and sets DONE (44_sequencer.md R230). -/
def Obligations.NopCompletes : Prop :=
  ∀ s : State, exec .nop s = .next { s with
    status := { s.status with busy := false }, irqStat := { s.irqStat with done := true }
    racySrc := [], racyDst := [] }

/-- DC_RESET sets the three predictors to 0 and completes; nothing else changes (43_entropy.md R220). -/
def Obligations.DcResetCompletes : Prop :=
  ∀ s : State, exec .dcReset s = .next { s with
    dcPred0 := 0#16, dcPred1 := 0#16, dcPred2 := 0#16
    status := { s.status with busy := false }, irqStat := { s.irqStat with done := true }
    racySrc := [], racyDst := [] }

/-- FREQ_CLEAR sets all 1024 counters to 0 and completes; nothing else changes (43_entropy.md R221). -/
def Obligations.FreqClearCompletes : Prop :=
  ∀ s : State, ∃ t, exec .freqClear s = .next t ∧ t = { complete s with freq := t.freq } ∧
    ∀ tbl < 4, ∀ sym < 256, tabGet t.freq (256 * tbl + sym) = some 0#32

/-! LOAD_MCU (40_csc.md) and the configuration check. -/

/-- ConfigCheck answers the first subcode whose condition holds, and none exactly when none holds
(60_exceptions.md R262); MCUPOS lies outside the grid when its MCU begins outside the frame (44_sequencer.md R233). -/
def Obligations.ConfigCheckSubcodes : Prop :=
  ∀ (p : Bool) (s : State),
    let c1 := s.frame.w = 0#16 ∨ s.frame.h = 0#16
    let c2 := s.ctrl.mode = 3#2
    let c3 := s.ctrl.infmt = 3#2
    let c4 := s.ctrl.infmt = 2#2 ∧ s.ctrl.mode ≠ 0#2
    let c5 := p = true ∧ (s.frame.w.toNat ≤ mcuX0 s ∨ s.frame.h.toNat ≤ mcuY0 s)
    (c1 → configCheck p s = some 1#32) ∧
    (¬ c1 → c2 → configCheck p s = some 2#32) ∧
    (¬ c1 → ¬ c2 → c3 → configCheck p s = some 3#32) ∧
    (¬ c1 → ¬ c2 → ¬ c3 → c4 → configCheck p s = some 4#32) ∧
    (¬ c1 → ¬ c2 → ¬ c3 → ¬ c4 → c5 → configCheck p s = some 5#32) ∧
    (¬ c1 → ¬ c2 → ¬ c3 → ¬ c4 → ¬ c5 → configCheck p s = none)

/-- A command whose ConfigCheck fails raises CONFIG with the subcode and changes nothing else
(60_exceptions.md R253(a), R262, 40_csc.md R140). -/
def Obligations.ConfigFaultChangesNothing : Prop :=
  ∀ (s : State) (sub : Word),
    let faulted : State := { s with
      status := { s.status with errCode := 2#8, fault := true, busy := false }
      errInfo := sub, irqStat := { s.irqStat with fault := true }, racySrc := [], racyDst := [] }
    (configCheck true s = some sub → exec .loadMcu s = .next faulted ∧ exec .encMcu s = .next faulted) ∧
    (configCheck false s = some sub → exec .encScan s = .next faulted)

/-- LOAD_MCU completes when its configuration is legal and every address it reads is answered: it writes all 64
samples of each block of the mode, keeps the other blocks, and changes nothing else (40_csc.md R135, R141). -/
def Obligations.LoadMcuCompletes : Prop :=
  ∀ s : State, configCheck true s = none → ReadsAnswered s →
    ∃ t, exec .loadMcu s = .next t ∧ t = { complete s with blk := t.blk, draws := t.draws } ∧
      ∀ b < 6,
        (b ∈ (blockOrder s.ctrl).map (fun e => e.1.val) → Written t.blk (64 * b) 64) ∧
        (b ∉ (blockOrder s.ctrl).map (fun e => e.1.val) →
          ∀ i < 64, tabGet t.blk (64 * b + i) = tabGet s.blk (64 * b + i))

/-- The samples LOAD_MCU writes in GRAY and YUV444, from source memory nobody changes meanwhile: element 8*py + px
of the block is the component of pixel (X0 + px, Y0 + py) (40_csc.md R135, R137). -/
def Obligations.LoadMcuFullResolution : Prop :=
  ∀ s : State, configCheck true s = none → ReadsAnswered s → ReadsPlain s → s.ctrl.mode ≠ 2#2 →
    ∃ t, exec .loadMcu s = .next t ∧ t = { complete s with blk := t.blk } ∧
      ∀ py < 8, ∀ px < 8,
        tabGet t.blk (8 * py + px) = some (pixelAt s (mcuX0 s + px) (mcuY0 s + py)).1 ∧
        (s.ctrl.mode = 1#2 →
          tabGet t.blk (256 + (8 * py + px)) = some (pixelAt s (mcuX0 s + px) (mcuY0 s + py)).2.1 ∧
          tabGet t.blk (320 + (8 * py + px)) = some (pixelAt s (mcuX0 s + px) (mcuY0 s + py)).2.2)

/-- The samples LOAD_MCU writes in YUV420: four luma blocks, top-left, top-right, bottom-left, bottom-right, and
the two chroma blocks of rounded 2x2 averages (40_csc.md R135, R136). -/
def Obligations.LoadMcuSubsampled : Prop :=
  ∀ s : State, configCheck true s = none → ReadsAnswered s → ReadsPlain s → s.ctrl.mode = 2#2 →
    ∃ t, exec .loadMcu s = .next t ∧ t = { complete s with blk := t.blk } ∧
      (∀ by' < 2, ∀ bx < 2, ∀ y < 8, ∀ x < 8,
        tabGet t.blk (64 * (2 * by' + bx) + (8 * y + x)) =
          some (pixelAt s (mcuX0 s + 8 * bx + x) (mcuY0 s + 8 * by' + y)).1) ∧
      (∀ cy < 8, ∀ cx < 8,
        let p := fun dx dy => pixelAt s (mcuX0 s + 2 * cx + dx) (mcuY0 s + 2 * cy + dy)
        tabGet t.blk (256 + (8 * cy + cx)) =
          some (average4 (p 0 0).2.1 (p 1 0).2.1 (p 0 1).2.1 (p 1 1).2.1) ∧
        tabGet t.blk (320 + (8 * cy + cx)) =
          some (average4 (p 0 0).2.2 (p 1 0).2.2 (p 0 1).2.2 (p 1 1).2.2))

/-- Where Pixel(x, y) reads, for each input format, with edge replication: a BGR24 pixel is three bytes B, G, R at
SRC0 + sy*STRIDE + 3*sx; a planar or gray sample is one byte at SRCp + sy*STRIDE + sx, modulo 2^32
(40_csc.md R131, R134). -/
def Obligations.PixelByFormat : Prop :=
  ∀ (s : State) (x y : Nat),
    let sx := if x < s.frame.w.toNat then x else s.frame.w.toNat - 1
    let sy := if y < s.frame.h.toNat then y else s.frame.h.toNat - 1
    let byteAt := fun (base : Word) (off : Nat) =>
      Memory.read s.mem ((base.toNat + sy * s.stride.toNat + off) % 2 ^ 32)
    (s.ctrl.infmt = 0#2 →
      let b := byteAt s.src0 (3 * sx)
      let g := byteAt s.src0 (3 * sx + 1)
      let r := byteAt s.src0 (3 * sx + 2)
      pixelAt s x y = (cscY b g r, cscCb b g r, cscCr b g r)) ∧
    (s.ctrl.infmt = 1#2 → s.ctrl.mode ≠ 0#2 →
      pixelAt s x y = (byteAt s.src0 sx, byteAt s.src1 sx, byteAt s.src2 sx)) ∧
    (s.ctrl.infmt = 2#2 ∨ (s.ctrl.infmt = 1#2 ∧ s.ctrl.mode = 0#2) → (pixelAt s x y).1 = byteAt s.src0 sx)

/-- The colour conversion: each component is its Q14 sum, rounded, shifted and clamped; Y never needs the clamp,
Cb and Cr before it lie in 1..256; a gray input gives (g, 128, 128) (40_csc.md R132, R133). -/
def Obligations.ColourConversion : Prop :=
  ∀ b g r : Byte,
    let y : Int := (4899 * r.toNat + 9617 * g.toNat + 1868 * b.toNat + 8192) / 16384
    let cb : Int := (-2765 * r.toNat - 5427 * g.toNat + 8192 * b.toNat + 8192) / 16384 + 128
    let cr : Int := (8192 * r.toNat - 6860 * g.toNat - 1332 * b.toNat + 8192) / 16384 + 128
    (0 ≤ y ∧ y ≤ 255 ∧ ((cscY b g r).toNat : Int) = y) ∧
    (1 ≤ cb ∧ cb ≤ 256 ∧ ((cscCb b g r).toNat : Int) = min cb 255) ∧
    (1 ≤ cr ∧ cr ≤ 256 ∧ ((cscCr b g r).toNat : Int) = min cr 255) ∧
    (b = g → g = r → (cscY b g r, cscCb b g r, cscCr b g r) = (g, 128#8, 128#8))

/-- Every address LOAD_MCU reads is a source byte of a pixel inside the image (40_csc.md R134). -/
def Obligations.SourceReadsInsideImage : Prop :=
  ∀ s : State, s.frame.w ≠ 0#16 → s.frame.h ≠ 0#16 → ∀ a ∈ mcuAddrs s, isSourceByte s a = true

/-- A LOAD_MCU one of whose reads answers with an error raises BUS_ERR with one of those addresses in ERRINFO; it
changes no memory and nothing but the sample blocks of the mode (40_csc.md R139, 60_exceptions.md R267). -/
def Obligations.LoadMcuBusError : Prop :=
  ∀ (s : State) (a : Word), configCheck true s = none → a ∈ mcuAddrs s → busError s .read a = true →
    ∃ t, exec .loadMcu s = .next t ∧ t.status.fault = true ∧ t.status.busy = false ∧ t.status.errCode = 7#8 ∧
      t.errInfo ∈ mcuAddrs s ∧ busError s .read t.errInfo = true ∧
      t = { s with
        status := t.status, errInfo := t.errInfo, irqStat := { s.irqStat with fault := true }
        racySrc := [], racyDst := [], draws := t.draws, blk := t.blk } ∧
      ∀ b < 6, b ∉ (blockOrder s.ctrl).map (fun e => e.1.val) →
        ∀ i < 64, tabGet t.blk (64 * b + i) = tabGet s.blk (64 * b + i)

/-! FDCT (41_fdct.md). -/

/-- FDCT completes when its block is written: level shift and pre-scale, the row pass, the column pass, the
post-scale; it writes all 64 entries of COEF and nothing else (R150 to R154). -/
def Obligations.FdctCompletes : Prop :=
  ∀ (b : Fin 6) (s : State), Written s.blk (64 * b.val) 64 →
    let sample := fun i => ((tabGet s.blk (64 * b.val + i)).getD 0#8).toNat
    let x := (List.range 64).map fun i => ((sample i : Int) - 128) * 8
    let w := (List.range 8).flatMap fun r => aan8At x (8 * r) 1
    ∃ t, exec (.fdct b) s = .next t ∧ t = { complete s with coef := t.coef } ∧
      ∀ u < 8, ∀ v < 8, tabGet t.coef (8 * u + v) =
        some (BitVec.ofInt 16 (((aan8At w v 8).getD u 0 * postScale.getD (8 * u + v) 0 + 131072) / 262144))

/-- A flat block gives COEF[0] = 8*(s - 128) and every AC coefficient 0 (R157). -/
def Obligations.FdctFlatBlock : Prop :=
  ∀ b : Byte, fdctBlock (List.replicate 64 b) = (8 * ((b.toNat : Int) - 128)) :: List.replicate 63 0

/-- Raising every sample by the same k raises COEF[0] by 8*k and leaves every other coefficient, exactly (R157). -/
def Obligations.FdctOffsetExact : Prop :=
  ∀ (xs : List Byte) (k : Nat), xs.length = 64 → (∀ b ∈ xs, b.toNat + k ≤ 255) →
    ∀ i < 64, (fdctBlock (xs.map fun b => b + BitVec.ofNat 8 k)).getD i 0 =
      (fdctBlock xs).getD i 0 + if i = 0 then 8 * (k : Int) else 0

/-- COEF[0] is floor(S/8 + 1/2), S the sum of the level-shifted samples (R155). -/
def Obligations.FdctDcIsRoundedMean : Prop :=
  ∀ xs : List Byte, xs.length = 64 →
    (fdctBlock xs).getD 0 0 = ((xs.map fun b => (b.toNat : Int) - 128).sum + 4) / 8

/-- The datapath stays within the category limits of the coder: COEF[0] in -1024..1016 and every AC coefficient of
magnitude at most 1023, so of category at most 10 (R155 as 43_entropy.md R211 uses it). -/
def Obligations.FdctWithinCategoryLimits : Prop :=
  ∀ xs : List Byte, xs.length = 64 →
    (-1024 ≤ (fdctBlock xs).getD 0 0 ∧ (fdctBlock xs).getD 0 0 ≤ 1016) ∧
    ∀ i, 1 ≤ i → i < 64 → ((fdctBlock xs).getD i 0).natAbs ≤ 1023

/-- The bound R155 gives for AC coefficients; the samples 255 in columns 0, 3, 4, 7 and 0 in the others give
COEF[4] = 1020 by the arithmetic of R150 to R154, so it is expected to fail (NOTES.md). -/
def Obligations.FdctAcBoundOfTheSpec : Prop :=
  ∀ xs : List Byte, xs.length = 64 → ∀ i, 1 ≤ i → i < 64 → ((fdctBlock xs).getD i 0).natAbs ≤ 929

/-! QUANT and ZIGZAG (42_quant_zigzag.md). -/

/-- QUANT completes when the table's divisors are written and not 0 and COEF is written: QCOEF[i] is
(|x| + q div 2) div q with the sign of x; nothing else changes (R170). -/
def Obligations.QuantCompletes : Prop :=
  ∀ (tb : QSel) (s : State), DivisorsReady tb s → Written s.coef 0 64 →
    ∃ t, exec (.quant tb) s = .next t ∧ t = { complete s with qcoef := t.qcoef } ∧
      ∀ i < 64, ∀ (q : Byte) (x : Half), tabGet s.qtab (64 * qselNumber tb + i) = some q → tabGet s.coef i = some x →
        let m : Int := (x.toInt.natAbs + q.toNat / 2) / q.toNat
        tabGet t.qcoef i = some (BitVec.ofInt 16 (if 0 ≤ x.toInt then m else -m))

/-- QUANT with a zero divisor raises QZERO with the smallest such index and changes nothing else (R170,
60_exceptions.md R253(a), R263). That it does so whether or not later divisors and COEF are written is the order of
R170's loop, as the model reads it (notes/assumptions/7.md). -/
def Obligations.QuantZeroDivisor : Prop :=
  ∀ (tb : QSel) (s : State) (i : Nat), i < 64 → tabGet s.qtab (64 * qselNumber tb + i) = some 0#8 →
    (∀ j < i, ∃ q, tabGet s.qtab (64 * qselNumber tb + j) = some q ∧ q ≠ 0#8) →
    exec (.quant tb) s = .next { s with
      status := { s.status with errCode := 3#8, fault := true, busy := false }
      errInfo := BitVec.ofNat 32 i, irqStat := { s.irqStat with fault := true }, racySrc := [], racyDst := [] }

/-- The rounding law: with |x| = n*q + r, the quotient is n + 1 if r >= q - q div 2 and n otherwise, with the sign
of x; a half of an even q rounds away from zero; -x quantizes to minus the value of x (R171). -/
def Obligations.QuantRoundingLaw : Prop :=
  ∀ (x : Int) (q n r : Nat), 1 ≤ q → q ≤ 255 → r < q → x.natAbs = n * q + r →
    let m : Int := if q - q / 2 ≤ r then n + 1 else n
    (0 ≤ x → quantOne x q = m) ∧ (x < 0 → quantOne x q = -m) ∧ quantOne (-x) q = -quantOne x q ∧
    (q % 2 = 0 → r = q / 2 → m = n + 1) ∧ (q % 2 = 1 → 2 * r ≠ q)

/-- The dead zone: after QUANT, QCOEF[i] is 0 exactly when |COEF[i]| < q - q div 2, and with q = 1 it is COEF[i]
(R172). -/
def Obligations.QuantDeadZone : Prop :=
  ∀ (tb : QSel) (s : State), DivisorsReady tb s → Written s.coef 0 64 →
    ∃ t, exec (.quant tb) s = .next t ∧
      ∀ i < 64, ∀ (q : Byte) (x : Half), tabGet s.qtab (64 * qselNumber tb + i) = some q → tabGet s.coef i = some x →
        (tabGet t.qcoef i = some 0#16 ↔ x.toInt.natAbs < q.toNat - q.toNat / 2) ∧
        (q = 1#8 → tabGet t.qcoef i = some x)

/-- ZIGZAG completes when QCOEF is written: ZZBUF[k] is QCOEF[ZZORDER[k]], and ZZINV takes it back; nothing else
changes (R177, R178). -/
def Obligations.ZigzagCompletes : Prop :=
  ∀ s : State, Written s.qcoef 0 64 →
    ∃ t, exec .zigzag s = .next t ∧ t = { complete s with zzbuf := t.zzbuf } ∧
      (∀ k < 64, tabGet t.zzbuf k = tabGet s.qcoef (zzOrder.getD k 0)) ∧
      (∀ i < 64, tabGet t.zzbuf (zzInv.getD i 0) = tabGet s.qcoef i) ∧
      (∀ i < 64, zzOrder.getD (zzInv.getD i 0) 64 = i ∧ zzInv.getD (zzOrder.getD i 0) 64 = i) ∧
      zzOrder.getD 0 64 = 0 ∧ zzOrder.getD 1 64 = 1 ∧ zzOrder.getD 2 64 = 8 ∧ zzOrder.getD 63 64 = 63

/-! The entropy coder (43_entropy.md). -/

/-- The category is the bit length of the magnitude: 0 for 0, else the c with 2^(c-1) <= |v| < 2^c (R194). -/
def Obligations.CategoryIsBitLength : Prop :=
  cat 0 = 0 ∧ ∀ v : Int, v ≠ 0 → 1 ≤ cat v ∧ 2 ^ (cat v - 1) ≤ v.natAbs ∧ v.natAbs < 2 ^ cat v

/-- The magnitude bits: v itself for a positive v, beginning with 1; v + 2^c - 1 for a negative v, beginning with
0 (R195). -/
def Obligations.MagnitudeBits : Prop :=
  ∀ v : Int, v ≠ 0 →
    (0 < v → (mag v (cat v) : Int) = v ∧ 2 ^ (cat v - 1) ≤ mag v (cat v)) ∧
    (v < 0 → (mag v (cat v) : Int) = v + 2 ^ cat v - 1 ∧ mag v (cat v) < 2 ^ (cat v - 1)) ∧
    mag v (cat v) < 2 ^ cat v

/-- PUTBITS completes with room for four bytes and appends the N low bits of V to the bit stream: complete bytes,
each 0xFF followed by 0x00, go to memory from DSTPTR on, the rest stays in PACK; nothing else changes (R190 to
R192, R222). -/
def Obligations.PutbitsAppendsItsBits : Prop :=
  ∀ (s : State) (v : Half) (n : BitVec 5), (Instr.putbits v n).wf = true →
    s.pack.acc.toNat < 2 ^ s.pack.cnt.toNat → RoomFor 4 s →
    ∃ t, exec (.putbits v n) s = .next t ∧
      t = { complete s with pack := t.pack, dstPtr := t.dstPtr, mem := t.mem, draws := t.draws } ∧
      (∀ a : Nat, ¬ (s.dstPtr.toNat ≤ a ∧ a < t.dstPtr.toNat) → Memory.read t.mem a = Memory.read s.mem a) ∧
      t.pack.acc.toNat < 2 ^ t.pack.cnt.toNat ∧
      (s.racyDst = [] → Appends s t (bitsOf n.toNat v.toNat))

/-- FLUSH with no pending bit does nothing but complete; with pending bits and room for two bytes it writes the
byte they begin, filled with 1-bits, and a 0x00 after it if it is 0xFF, and leaves PACK empty (R223). -/
def Obligations.FlushPadsWithOnes : Prop :=
  ∀ s : State, s.pack.acc.toNat < 2 ^ s.pack.cnt.toNat →
    (s.pack.cnt = 0#3 → exec .flush s = .next (complete s)) ∧
    (s.pack.cnt ≠ 0#3 → RoomFor 2 s →
      let pad := 8 - s.pack.cnt.toNat
      let b := s.pack.acc.toNat * 2 ^ pad + (2 ^ pad - 1)
      let len := if b = 255 then 2 else 1
      ∃ t, exec .flush s = .next t ∧
        t = { complete s with
          pack := ⟨0#3, 0#7⟩, dstPtr := s.dstPtr + BitVec.ofNat 32 len, mem := t.mem, draws := t.draws } ∧
        (∀ a : Nat, ¬ (s.dstPtr.toNat ≤ a ∧ a < s.dstPtr.toNat + len) →
          Memory.read t.mem a = Memory.read s.mem a) ∧
        (s.racyDst = [] →
          (Memory.read t.mem s.dstPtr.toNat).toNat = b ∧
          (b = 255 → Memory.read t.mem (s.dstPtr.toNat + 1) = 0x00#8)))

/-- A PUTBITS, FLUSH or ENC_BLOCK one of whose bytes, the stuffed 0x00 among them, meets DSTLIM or an address that
answers the write with an error: it ends in the fault state with DST_OVF or BUS_ERR, the address in ERRINFO and
DSTPTR, and exactly the bytes before it in memory (43_entropy.md R192, 60_exceptions.md R253(b), (c), R266, R267). -/
def Obligations.OutputFaults : Prop :=
  ∀ (s : State) (i : Instr) (new : List Bool) (n : Nat), s.pack.acc.toNat < 2 ^ s.pack.cnt.toNat → Emits s i new →
    n < (streamBytes s new).length → StopsAt s n →
    ∃ t, exec i s = .next t ∧ OutputFault s t (streamBytes s new) n

/-- ENC_BLOCK in a counting pass completes when the block is within the category limits and the counters are
written: it adds to each counter the number of times the block's symbols name it, saturating, takes ZZBUF[0] as
the predictor, and touches no bit, byte, pointer or other state (R196, R200, R201, R205, R206, R210, R212). -/
def Obligations.EncBlockCounts : Prop :=
  ∀ (c : Component) (s : State), s.ctrl.stats = true → Codable c s → CountersReady c s →
    ∃ t, exec (.encBlock c) s = .next t ∧
      t = { complete (setPred c ((tabGet s.zzbuf 0).getD 0#16) s) with freq := t.freq } ∧
      ∀ k, tabGet t.freq k = (tabGet s.freq k).map fun old =>
        BitVec.ofNat 32 (min (old.toNat + (blockSyms c s).countP fun y => 256 * y.1 + y.2.1 == k) (2 ^ 32 - 1))

/-- ENC_BLOCK in an emitting pass completes when the block is within the category limits, every symbol it can use
has a code and there is room for 512 bytes: it appends the code and the magnitude bits of each symbol of the block
in order, takes ZZBUF[0] as the predictor, and changes nothing else (R190 to R196, R200, R201, R205, R206, R210,
R213). -/
def Obligations.EncBlockEmitsItsSymbols : Prop :=
  ∀ (c : Component) (s : State), s.ctrl.stats = false → Codable c s → CodesReady c s →
    s.pack.acc.toNat < 2 ^ s.pack.cnt.toNat → RoomFor 512 s →
    ∃ t, exec (.encBlock c) s = .next t ∧
      t = { complete (setPred c ((tabGet s.zzbuf 0).getD 0#16) s) with
        pack := t.pack, dstPtr := t.dstPtr, mem := t.mem, draws := t.draws } ∧
      (∀ a : Nat, ¬ (s.dstPtr.toNat ≤ a ∧ a < t.dstPtr.toNat) → Memory.read t.mem a = Memory.read s.mem a) ∧
      t.dstPtr.toNat ≤ s.dstPtr.toNat + 512 ∧ t.pack.acc.toNat < 2 ^ t.pack.cnt.toNat ∧
      (s.racyDst = [] → Appends s t ((blockSyms c s).flatMap (symBits s)))

/-- The faults of ENC_BLOCK besides those of the output: a DC difference of category above 11 raises CAT_OVF with
ERRINFO 0 and writes nothing; the first AC coefficient of category above 10 raises CAT_OVF with its index, in a
counting pass with no byte written and in an emitting pass with the bytes of the symbols before it; in an emitting
pass the first symbol whose entry has LEN 0 or above 16 raises HUFF_MISSING with t*256 + s and the bytes of the
symbols before it, a DC symbol also where nothing else of the block is known (R196, R200, R201, R211,
60_exceptions.md R253(b), (c), R264, R265). -/
def Obligations.EncBlockFaults : Prop :=
  ∀ (c : Component) (s : State), (tabGet s.zzbuf 0).isSome = true →
    (2048 ≤ (dcDiff c s).natAbs →
      ∃ t, exec (.encBlock c) s = .next t ∧ t.status.fault = true ∧ t.status.errCode = 4#8 ∧ t.errInfo = 0#32 ∧
        t.mem = s.mem ∧ t.dstPtr = s.dstPtr) ∧
    (∀ k, 1 ≤ k → k < 64 → (dcDiff c s).natAbs < 2048 → Written s.zzbuf 0 (k + 1) →
      1024 ≤ (zzAt s k).natAbs → (∀ j, 1 ≤ j → j < k → (zzAt s j).natAbs < 1024) →
      (s.ctrl.stats = true → CountersReady c s →
        ∃ t, exec (.encBlock c) s = .next t ∧ t.status.fault = true ∧ t.status.errCode = 4#8 ∧
          t.errInfo = BitVec.ofNat 32 k ∧ t.mem = s.mem ∧ t.dstPtr = s.dstPtr) ∧
      (s.ctrl.stats = false → CodesReady c s → s.pack.acc.toNat < 2 ^ s.pack.cnt.toNat → RoomFor 512 s →
        ∃ t, exec (.encBlock c) s = .next t ∧ t.status.fault = true ∧ t.status.errCode = 4#8 ∧
          t.errInfo = BitVec.ofNat 32 k ∧ WroteBits s t ((symsBefore c s k).flatMap (symBits s)))) ∧
    (∀ e : HuffEntry, s.ctrl.stats = false → (dcDiff c s).natAbs < 2048 →
      tabGet s.huff (256 * dcTable c + cat (dcDiff c s)) = some e → e.len.toNat = 0 ∨ 16 < e.len.toNat →
      ∃ t, exec (.encBlock c) s = .next t ∧ t.status.fault = true ∧ t.status.errCode = 5#8 ∧
        t.errInfo = BitVec.ofNat 32 (256 * dcTable c + cat (dcDiff c s)) ∧ t.mem = s.mem ∧ t.dstPtr = s.dstPtr) ∧
    (∀ pre y post (e : HuffEntry), s.ctrl.stats = false → Codable c s → blockSyms c s = pre ++ y :: post →
      (∀ p ∈ pre, HasCode s p.1 p.2.1) → tabGet s.huff (256 * y.1 + y.2.1) = some e →
      e.len.toNat = 0 ∨ 16 < e.len.toNat → s.pack.acc.toNat < 2 ^ s.pack.cnt.toNat → RoomFor 512 s →
      ∃ t, exec (.encBlock c) s = .next t ∧ t.status.fault = true ∧ t.status.errCode = 5#8 ∧
        t.errInfo = BitVec.ofNat 32 (256 * y.1 + y.2.1) ∧ WroteBits s t (pre.flatMap (symBits s)))

/-- STD and SRC code the same symbols exactly when fewer than 16 zeros end the block (R202). -/
def Obligations.AcModesAgreeOnShortTails : Prop :=
  ∀ vs : List Int, vs.length = 63 → (acSyms true 0 vs = acSyms false 0 vs ↔ trailingZeros vs < 16)

/-- Every 0xFF a completed command wrote is followed by a 0x00 it wrote: the stream holds no marker (R193). -/
def Obligations.StreamHoldsNoMarker : Prop :=
  ∀ (i : Instr) (s t : State), exec i s = .next t → t.status.fault = false → s.racyDst = [] →
    Stuffed t.mem s.dstPtr.toNat t.dstPtr.toNat

/-! The sequencer (44_sequencer.md). -/

/-- ENC_MCU gives what LOAD_MCU and then FDCT, QUANT, ZIGZAG and ENC_BLOCK for each block of the mode give when
they are issued one by one (R231, R235, 60_exceptions.md R284): if its output does not overlap its source, the same
state where all of them complete, and the same code, ERRINFO, memory and DSTPTR where one faults; if the output
region is disjoint from the source, the same model fault where one meets an unwritten entry (60_exceptions.md
R268). -/
def Obligations.EncMcuIsItsCommands : Prop :=
  ∀ s : State, s.racySrc = [] → s.racyDst = [] → s.status.fault = false →
    (∀ t, runAll (mcuCommands s.ctrl) s = .next t → overlaps s t = false →
      (t.status.fault = false → exec .encMcu s = .next t) ∧
      (t.status.fault = true → ∃ u, exec .encMcu s = .next u ∧ FaultsLike t u)) ∧
    ∀ f, OutputDisjoint s → runAll (mcuCommands s.ctrl) s = .fault f → exec .encMcu s = .fault f

/-- ENC_SCAN gives what DC_RESET, then ENC_MCU at each MCU position in raster order, and in an emitting pass FLUSH
give when they are issued one by one, MCUPOS set before each ENC_MCU, if the configuration is legal and the output
region is disjoint from the source: the same state where all of them complete, the same code, ERRINFO, memory and
DSTPTR where one faults, the same model fault where one meets an unwritten entry (R231, R232, R233). -/
def Obligations.EncScanIsItsCommands : Prop :=
  ∀ s : State, s.racySrc = [] → s.racyDst = [] → s.status.fault = false → configCheck false s = none →
    OutputDisjoint s →
    (∀ t, runScan s = .next t →
      (t.status.fault = false → exec .encScan s = .next t) ∧
      (t.status.fault = true → ∃ u, exec .encScan s = .next u ∧ FaultsLike t u)) ∧
    ∀ f, runScan s = .fault f → exec .encScan s = .fault f

/-- ENC_MCU completes when the configuration is legal, the reads are answered, the tables are loaded, the
predictors of the components it codes come from the block's own datapath and, in an emitting pass, there is room for
3072 bytes: it keeps MCUPOS, and in a counting pass it writes no byte and keeps PACK and DSTPTR (R231). That it ends
rests on every transaction being answered (70_reset_and_hazards.md R311, notes/assumptions/12.md). -/
def Obligations.EncMcuCompletes : Prop :=
  ∀ s : State, configCheck true s = none → ReadsAnswered s → TablesReady s →
    (∀ e ∈ blockOrder s.ctrl, PredInRange s e.2.2) → (s.ctrl.stats = false → RoomFor 3072 s) →
    ∃ t, exec .encMcu s = .next t ∧ t.status = { s.status with busy := false } ∧
      t.irqStat = { s.irqStat with done := true } ∧ t.mcuPos = s.mcuPos ∧
      (∀ e ∈ blockOrder s.ctrl, PredInRange t e.2.2) ∧
      t.dstPtr.toNat ≤ s.dstPtr.toNat + 3072 ∧
      (s.ctrl.stats = true → t.mem = s.mem ∧ t.pack = s.pack ∧ t.dstPtr = s.dstPtr) ∧
      (s.ctrl.stats = false → t.freq = s.freq)

/-- ENC_SCAN completes when the configuration is legal, no source byte of the frame answers with an error, the
tables are loaded and, in an emitting pass, there is room for 3072 bytes for each MCU and 2 more: MCUPOS ends at
the last MCU, PACK is empty after an emitting pass, and a counting pass writes no byte and keeps PACK and DSTPTR
(R232, R233). What it codes is EncScanIsItsCommands; that it ends rests on every transaction being answered
(70_reset_and_hazards.md R311, notes/assumptions/12.md). -/
def Obligations.EncScanCompletes : Prop :=
  ∀ s : State, configCheck false s = none → FrameAnswered s → TablesReady s →
    (s.ctrl.stats = false → RoomFor (3072 * (gridX s * gridY s) + 2) s) →
    ∃ t, exec .encScan s = .next t ∧ t.status = { s.status with busy := false } ∧
      t.irqStat = { s.irqStat with done := true } ∧
      t.mcuPos = ⟨BitVec.ofNat 16 (gridX s - 1), BitVec.ofNat 16 (gridY s - 1)⟩ ∧
      (s.ctrl.stats = true → t.mem = s.mem ∧ t.pack = s.pack ∧ t.dstPtr = s.dstPtr) ∧
      (s.ctrl.stats = false → t.pack = ⟨0#3, 0#7⟩ ∧ t.freq = s.freq)

/-- The block's own datapath never raises CAT_OVF: an ENC_SCAN never ends with it, whatever the samples, the
divisors and the tables (43_entropy.md R211, 60_exceptions.md R264). -/
def Obligations.ScanNeverOverflowsCategory : Prop :=
  ∀ s t : State, s.status.errCode ≠ 4#8 → exec .encScan s = .next t → t.status.errCode ≠ 4#8

/-- A command that reads an entry nobody has written stops in the model fault unwritten, with the region and the
first such index (60_exceptions.md R268), counted over the whole region, the model's choice
(notes/assumptions/7.md): FDCT in BLK; QUANT in QTAB, and then in COEF; ZIGZAG in QCOEF; ENC_BLOCK in ZZBUF, and in
HUFF or FREQ at the first of the block's symbols that has no entry; ENC_MCU and ENC_SCAN in QTAB at their first
block, and otherwise where their commands do (EncMcuIsItsCommands, EncScanIsItsCommands). -/
def Obligations.UnwrittenEntryStops : Prop :=
  ∀ s : State,
    (∀ (b : Fin 6) (k : Nat), k < 64 → Written s.blk (64 * b.val) k → tabGet s.blk (64 * b.val + k) = none →
      exec (.fdct b) s = .fault (.unwritten .blk (64 * b.val + k))) ∧
    (∀ (tb : QSel) (k : Nat), k < 64 →
      (∀ j < k, ∃ q, tabGet s.qtab (64 * qselNumber tb + j) = some q ∧ q ≠ 0#8) →
      tabGet s.qtab (64 * qselNumber tb + k) = none →
      exec (.quant tb) s = .fault (.unwritten .qtab (64 * qselNumber tb + k))) ∧
    (∀ k : Nat, k < 64 → (∀ j < k, (tabGet s.qcoef (zzOrder.getD j 0)).isSome = true) →
      tabGet s.qcoef (zzOrder.getD k 0) = none →
      exec .zigzag s = .fault (.unwritten .qcoef (zzOrder.getD k 0))) ∧
    (∀ (tb : QSel) (k : Nat), k < 64 → DivisorsReady tb s → Written s.coef 0 k → tabGet s.coef k = none →
      exec (.quant tb) s = .fault (.unwritten .coef k)) ∧
    (∀ c : Component, tabGet s.zzbuf 0 = none → exec (.encBlock c) s = .fault (.unwritten .zzbuf 0)) ∧
    (∀ (c : Component) (k : Nat), 1 ≤ k → k < 64 → Written s.zzbuf 0 k → tabGet s.zzbuf k = none →
      (dcDiff c s).natAbs < 2048 → (∀ j, 1 ≤ j → j < k → (zzAt s j).natAbs < 1024) →
      (s.ctrl.stats = true → CountersReady c s) → (s.ctrl.stats = false → CodesReady c s ∧ RoomFor 512 s) →
      exec (.encBlock c) s = .fault (.unwritten .zzbuf k)) ∧
    (∀ (c : Component) pre y post, s.ctrl.stats = false → Codable c s → blockSyms c s = pre ++ y :: post →
      (∀ p ∈ pre, HasCode s p.1 p.2.1) → tabGet s.huff (256 * y.1 + y.2.1) = none → RoomFor 512 s →
      exec (.encBlock c) s = .fault (.unwritten .huff (256 * y.1 + y.2.1))) ∧
    (∀ (c : Component) pre y post, s.ctrl.stats = true → Codable c s → blockSyms c s = pre ++ y :: post →
      (∀ p ∈ pre, (tabGet s.freq (256 * p.1 + p.2.1)).isSome = true) → tabGet s.freq (256 * y.1 + y.2.1) = none →
      exec (.encBlock c) s = .fault (.unwritten .freq (256 * y.1 + y.2.1))) ∧
    (∀ k : Nat, k < 64 → (∀ j < k, ∃ q, tabGet s.qtab j = some q ∧ q ≠ 0#8) → tabGet s.qtab k = none →
      (configCheck true s = none → ReadsAnswered s → exec .encMcu s = .fault (.unwritten .qtab k)) ∧
      (configCheck false s = none → FrameAnswered s → exec .encScan s = .fault (.unwritten .qtab k)))
end

