-- ==== Sys2Proof/Laws/State.lean ====
section
/-! SUPPORT. One lemma per field per named update of State, so that no proof unfolds an update. -/

namespace Sys2Proof.Machine

/-! advance -/

@[simp] theorem advance_ctrl (n : Nat) (s : State) : (advance n s).ctrl = s.ctrl := rfl
@[simp] theorem advance_status (n : Nat) (s : State) : (advance n s).status = s.status := rfl
@[simp] theorem advance_lastCmd (n : Nat) (s : State) : (advance n s).lastCmd = s.lastCmd := rfl
@[simp] theorem advance_frame (n : Nat) (s : State) : (advance n s).frame = s.frame := rfl
@[simp] theorem advance_mcuPos (n : Nat) (s : State) : (advance n s).mcuPos = s.mcuPos := rfl
@[simp] theorem advance_src0 (n : Nat) (s : State) : (advance n s).src0 = s.src0 := rfl
@[simp] theorem advance_src1 (n : Nat) (s : State) : (advance n s).src1 = s.src1 := rfl
@[simp] theorem advance_src2 (n : Nat) (s : State) : (advance n s).src2 = s.src2 := rfl
@[simp] theorem advance_stride (n : Nat) (s : State) : (advance n s).stride = s.stride := rfl
@[simp] theorem advance_dstPtr (n : Nat) (s : State) : (advance n s).dstPtr = s.dstPtr := rfl
@[simp] theorem advance_dstLim (n : Nat) (s : State) : (advance n s).dstLim = s.dstLim := rfl
@[simp] theorem advance_dcPred0 (n : Nat) (s : State) : (advance n s).dcPred0 = s.dcPred0 := rfl
@[simp] theorem advance_dcPred1 (n : Nat) (s : State) : (advance n s).dcPred1 = s.dcPred1 := rfl
@[simp] theorem advance_dcPred2 (n : Nat) (s : State) : (advance n s).dcPred2 = s.dcPred2 := rfl
@[simp] theorem advance_pack (n : Nat) (s : State) : (advance n s).pack = s.pack := rfl
@[simp] theorem advance_errInfo (n : Nat) (s : State) : (advance n s).errInfo = s.errInfo := rfl
@[simp] theorem advance_irqEn (n : Nat) (s : State) : (advance n s).irqEn = s.irqEn := rfl
@[simp] theorem advance_irqStat (n : Nat) (s : State) : (advance n s).irqStat = s.irqStat := rfl
@[simp] theorem advance_qtab (n : Nat) (s : State) : (advance n s).qtab = s.qtab := rfl
@[simp] theorem advance_huff (n : Nat) (s : State) : (advance n s).huff = s.huff := rfl
@[simp] theorem advance_freq (n : Nat) (s : State) : (advance n s).freq = s.freq := rfl
@[simp] theorem advance_blk (n : Nat) (s : State) : (advance n s).blk = s.blk := rfl
@[simp] theorem advance_coef (n : Nat) (s : State) : (advance n s).coef = s.coef := rfl
@[simp] theorem advance_qcoef (n : Nat) (s : State) : (advance n s).qcoef = s.qcoef := rfl
@[simp] theorem advance_zzbuf (n : Nat) (s : State) : (advance n s).zzbuf = s.zzbuf := rfl
@[simp] theorem advance_mem (n : Nat) (s : State) : (advance n s).mem = s.mem := rfl
@[simp] theorem advance_busErr (n : Nat) (s : State) : (advance n s).busErr = s.busErr := rfl
@[simp] theorem advance_volatileSrc (n : Nat) (s : State) : (advance n s).volatileSrc = s.volatileSrc := rfl
@[simp] theorem advance_racySrc (n : Nat) (s : State) : (advance n s).racySrc = s.racySrc := rfl
@[simp] theorem advance_racyDst (n : Nat) (s : State) : (advance n s).racyDst = s.racyDst := rfl
@[simp] theorem advance_draws (n : Nat) (s : State) : (advance n s).draws = s.draws + n := rfl
@[simp] theorem advance_inputs (n : Nat) (s : State) : (advance n s).inputs = s.inputs := rfl
@[simp] theorem advance_resp (n : Nat) (s : State) : (advance n s).resp = s.resp := rfl

/-! complete -/

@[simp] theorem complete_ctrl (s : State) : (complete s).ctrl = s.ctrl := rfl
@[simp] theorem complete_status (s : State) : (complete s).status = ⟨false, s.status.fault, s.status.cmdRej, s.status.wIgn, s.status.errCode⟩ := rfl
@[simp] theorem complete_lastCmd (s : State) : (complete s).lastCmd = s.lastCmd := rfl
@[simp] theorem complete_frame (s : State) : (complete s).frame = s.frame := rfl
@[simp] theorem complete_mcuPos (s : State) : (complete s).mcuPos = s.mcuPos := rfl
@[simp] theorem complete_src0 (s : State) : (complete s).src0 = s.src0 := rfl
@[simp] theorem complete_src1 (s : State) : (complete s).src1 = s.src1 := rfl
@[simp] theorem complete_src2 (s : State) : (complete s).src2 = s.src2 := rfl
@[simp] theorem complete_stride (s : State) : (complete s).stride = s.stride := rfl
@[simp] theorem complete_dstPtr (s : State) : (complete s).dstPtr = s.dstPtr := rfl
@[simp] theorem complete_dstLim (s : State) : (complete s).dstLim = s.dstLim := rfl
@[simp] theorem complete_dcPred0 (s : State) : (complete s).dcPred0 = s.dcPred0 := rfl
@[simp] theorem complete_dcPred1 (s : State) : (complete s).dcPred1 = s.dcPred1 := rfl
@[simp] theorem complete_dcPred2 (s : State) : (complete s).dcPred2 = s.dcPred2 := rfl
@[simp] theorem complete_pack (s : State) : (complete s).pack = s.pack := rfl
@[simp] theorem complete_errInfo (s : State) : (complete s).errInfo = s.errInfo := rfl
@[simp] theorem complete_irqEn (s : State) : (complete s).irqEn = s.irqEn := rfl
@[simp] theorem complete_irqStat (s : State) : (complete s).irqStat = ⟨true, s.irqStat.fault⟩ := rfl
@[simp] theorem complete_qtab (s : State) : (complete s).qtab = s.qtab := rfl
@[simp] theorem complete_huff (s : State) : (complete s).huff = s.huff := rfl
@[simp] theorem complete_freq (s : State) : (complete s).freq = s.freq := rfl
@[simp] theorem complete_blk (s : State) : (complete s).blk = s.blk := rfl
@[simp] theorem complete_coef (s : State) : (complete s).coef = s.coef := rfl
@[simp] theorem complete_qcoef (s : State) : (complete s).qcoef = s.qcoef := rfl
@[simp] theorem complete_zzbuf (s : State) : (complete s).zzbuf = s.zzbuf := rfl
@[simp] theorem complete_mem (s : State) : (complete s).mem = s.mem := rfl
@[simp] theorem complete_busErr (s : State) : (complete s).busErr = s.busErr := rfl
@[simp] theorem complete_volatileSrc (s : State) : (complete s).volatileSrc = s.volatileSrc := rfl
@[simp] theorem complete_racySrc (s : State) : (complete s).racySrc = [] := rfl
@[simp] theorem complete_racyDst (s : State) : (complete s).racyDst = [] := rfl
@[simp] theorem complete_draws (s : State) : (complete s).draws = s.draws := rfl
@[simp] theorem complete_inputs (s : State) : (complete s).inputs = s.inputs := rfl
@[simp] theorem complete_resp (s : State) : (complete s).resp = s.resp := rfl

/-! enterFault -/

@[simp] theorem enterFault_ctrl (c : FaultCode) (w : Word) (s : State) : (enterFault c w s).ctrl = s.ctrl := rfl
@[simp] theorem enterFault_status (c : FaultCode) (w : Word) (s : State) : (enterFault c w s).status = ⟨false, true, s.status.cmdRej, s.status.wIgn, faultNumber c⟩ := rfl
@[simp] theorem enterFault_lastCmd (c : FaultCode) (w : Word) (s : State) : (enterFault c w s).lastCmd = s.lastCmd := rfl
@[simp] theorem enterFault_frame (c : FaultCode) (w : Word) (s : State) : (enterFault c w s).frame = s.frame := rfl
@[simp] theorem enterFault_mcuPos (c : FaultCode) (w : Word) (s : State) : (enterFault c w s).mcuPos = s.mcuPos := rfl
@[simp] theorem enterFault_src0 (c : FaultCode) (w : Word) (s : State) : (enterFault c w s).src0 = s.src0 := rfl
@[simp] theorem enterFault_src1 (c : FaultCode) (w : Word) (s : State) : (enterFault c w s).src1 = s.src1 := rfl
@[simp] theorem enterFault_src2 (c : FaultCode) (w : Word) (s : State) : (enterFault c w s).src2 = s.src2 := rfl
@[simp] theorem enterFault_stride (c : FaultCode) (w : Word) (s : State) : (enterFault c w s).stride = s.stride := rfl
@[simp] theorem enterFault_dstPtr (c : FaultCode) (w : Word) (s : State) : (enterFault c w s).dstPtr = s.dstPtr := rfl
@[simp] theorem enterFault_dstLim (c : FaultCode) (w : Word) (s : State) : (enterFault c w s).dstLim = s.dstLim := rfl
@[simp] theorem enterFault_dcPred0 (c : FaultCode) (w : Word) (s : State) : (enterFault c w s).dcPred0 = s.dcPred0 := rfl
@[simp] theorem enterFault_dcPred1 (c : FaultCode) (w : Word) (s : State) : (enterFault c w s).dcPred1 = s.dcPred1 := rfl
@[simp] theorem enterFault_dcPred2 (c : FaultCode) (w : Word) (s : State) : (enterFault c w s).dcPred2 = s.dcPred2 := rfl
@[simp] theorem enterFault_pack (c : FaultCode) (w : Word) (s : State) : (enterFault c w s).pack = s.pack := rfl
@[simp] theorem enterFault_errInfo (c : FaultCode) (w : Word) (s : State) : (enterFault c w s).errInfo = w := rfl
@[simp] theorem enterFault_irqEn (c : FaultCode) (w : Word) (s : State) : (enterFault c w s).irqEn = s.irqEn := rfl
@[simp] theorem enterFault_irqStat (c : FaultCode) (w : Word) (s : State) : (enterFault c w s).irqStat = ⟨s.irqStat.done, true⟩ := rfl
@[simp] theorem enterFault_qtab (c : FaultCode) (w : Word) (s : State) : (enterFault c w s).qtab = s.qtab := rfl
@[simp] theorem enterFault_huff (c : FaultCode) (w : Word) (s : State) : (enterFault c w s).huff = s.huff := rfl
@[simp] theorem enterFault_freq (c : FaultCode) (w : Word) (s : State) : (enterFault c w s).freq = s.freq := rfl
@[simp] theorem enterFault_blk (c : FaultCode) (w : Word) (s : State) : (enterFault c w s).blk = s.blk := rfl
@[simp] theorem enterFault_coef (c : FaultCode) (w : Word) (s : State) : (enterFault c w s).coef = s.coef := rfl
@[simp] theorem enterFault_qcoef (c : FaultCode) (w : Word) (s : State) : (enterFault c w s).qcoef = s.qcoef := rfl
@[simp] theorem enterFault_zzbuf (c : FaultCode) (w : Word) (s : State) : (enterFault c w s).zzbuf = s.zzbuf := rfl
@[simp] theorem enterFault_mem (c : FaultCode) (w : Word) (s : State) : (enterFault c w s).mem = s.mem := rfl
@[simp] theorem enterFault_busErr (c : FaultCode) (w : Word) (s : State) : (enterFault c w s).busErr = s.busErr := rfl
@[simp] theorem enterFault_volatileSrc (c : FaultCode) (w : Word) (s : State) : (enterFault c w s).volatileSrc = s.volatileSrc := rfl
@[simp] theorem enterFault_racySrc (c : FaultCode) (w : Word) (s : State) : (enterFault c w s).racySrc = [] := rfl
@[simp] theorem enterFault_racyDst (c : FaultCode) (w : Word) (s : State) : (enterFault c w s).racyDst = [] := rfl
@[simp] theorem enterFault_draws (c : FaultCode) (w : Word) (s : State) : (enterFault c w s).draws = s.draws := rfl
@[simp] theorem enterFault_inputs (c : FaultCode) (w : Word) (s : State) : (enterFault c w s).inputs = s.inputs := rfl
@[simp] theorem enterFault_resp (c : FaultCode) (w : Word) (s : State) : (enterFault c w s).resp = s.resp := rfl

/-! clearFault -/

@[simp] theorem clearFault_ctrl (s : State) : (clearFault s).ctrl = s.ctrl := rfl
@[simp] theorem clearFault_status (s : State) : (clearFault s).status = ⟨s.status.busy, false, s.status.cmdRej, s.status.wIgn, 0#8⟩ := rfl
@[simp] theorem clearFault_lastCmd (s : State) : (clearFault s).lastCmd = s.lastCmd := rfl
@[simp] theorem clearFault_frame (s : State) : (clearFault s).frame = s.frame := rfl
@[simp] theorem clearFault_mcuPos (s : State) : (clearFault s).mcuPos = s.mcuPos := rfl
@[simp] theorem clearFault_src0 (s : State) : (clearFault s).src0 = s.src0 := rfl
@[simp] theorem clearFault_src1 (s : State) : (clearFault s).src1 = s.src1 := rfl
@[simp] theorem clearFault_src2 (s : State) : (clearFault s).src2 = s.src2 := rfl
@[simp] theorem clearFault_stride (s : State) : (clearFault s).stride = s.stride := rfl
@[simp] theorem clearFault_dstPtr (s : State) : (clearFault s).dstPtr = s.dstPtr := rfl
@[simp] theorem clearFault_dstLim (s : State) : (clearFault s).dstLim = s.dstLim := rfl
@[simp] theorem clearFault_dcPred0 (s : State) : (clearFault s).dcPred0 = s.dcPred0 := rfl
@[simp] theorem clearFault_dcPred1 (s : State) : (clearFault s).dcPred1 = s.dcPred1 := rfl
@[simp] theorem clearFault_dcPred2 (s : State) : (clearFault s).dcPred2 = s.dcPred2 := rfl
@[simp] theorem clearFault_pack (s : State) : (clearFault s).pack = s.pack := rfl
@[simp] theorem clearFault_errInfo (s : State) : (clearFault s).errInfo = 0#32 := rfl
@[simp] theorem clearFault_irqEn (s : State) : (clearFault s).irqEn = s.irqEn := rfl
@[simp] theorem clearFault_irqStat (s : State) : (clearFault s).irqStat = s.irqStat := rfl
@[simp] theorem clearFault_qtab (s : State) : (clearFault s).qtab = s.qtab := rfl
@[simp] theorem clearFault_huff (s : State) : (clearFault s).huff = s.huff := rfl
@[simp] theorem clearFault_freq (s : State) : (clearFault s).freq = s.freq := rfl
@[simp] theorem clearFault_blk (s : State) : (clearFault s).blk = s.blk := rfl
@[simp] theorem clearFault_coef (s : State) : (clearFault s).coef = s.coef := rfl
@[simp] theorem clearFault_qcoef (s : State) : (clearFault s).qcoef = s.qcoef := rfl
@[simp] theorem clearFault_zzbuf (s : State) : (clearFault s).zzbuf = s.zzbuf := rfl
@[simp] theorem clearFault_mem (s : State) : (clearFault s).mem = s.mem := rfl
@[simp] theorem clearFault_busErr (s : State) : (clearFault s).busErr = s.busErr := rfl
@[simp] theorem clearFault_volatileSrc (s : State) : (clearFault s).volatileSrc = s.volatileSrc := rfl
@[simp] theorem clearFault_racySrc (s : State) : (clearFault s).racySrc = s.racySrc := rfl
@[simp] theorem clearFault_racyDst (s : State) : (clearFault s).racyDst = s.racyDst := rfl
@[simp] theorem clearFault_draws (s : State) : (clearFault s).draws = s.draws := rfl
@[simp] theorem clearFault_inputs (s : State) : (clearFault s).inputs = s.inputs := rfl
@[simp] theorem clearFault_resp (s : State) : (clearFault s).resp = s.resp := rfl

/-! dcResetBody -/

@[simp] theorem dcResetBody_ctrl (s : State) : (dcResetBody s).ctrl = s.ctrl := rfl
@[simp] theorem dcResetBody_status (s : State) : (dcResetBody s).status = s.status := rfl
@[simp] theorem dcResetBody_lastCmd (s : State) : (dcResetBody s).lastCmd = s.lastCmd := rfl
@[simp] theorem dcResetBody_frame (s : State) : (dcResetBody s).frame = s.frame := rfl
@[simp] theorem dcResetBody_mcuPos (s : State) : (dcResetBody s).mcuPos = s.mcuPos := rfl
@[simp] theorem dcResetBody_src0 (s : State) : (dcResetBody s).src0 = s.src0 := rfl
@[simp] theorem dcResetBody_src1 (s : State) : (dcResetBody s).src1 = s.src1 := rfl
@[simp] theorem dcResetBody_src2 (s : State) : (dcResetBody s).src2 = s.src2 := rfl
@[simp] theorem dcResetBody_stride (s : State) : (dcResetBody s).stride = s.stride := rfl
@[simp] theorem dcResetBody_dstPtr (s : State) : (dcResetBody s).dstPtr = s.dstPtr := rfl
@[simp] theorem dcResetBody_dstLim (s : State) : (dcResetBody s).dstLim = s.dstLim := rfl
@[simp] theorem dcResetBody_dcPred0 (s : State) : (dcResetBody s).dcPred0 = 0#16 := rfl
@[simp] theorem dcResetBody_dcPred1 (s : State) : (dcResetBody s).dcPred1 = 0#16 := rfl
@[simp] theorem dcResetBody_dcPred2 (s : State) : (dcResetBody s).dcPred2 = 0#16 := rfl
@[simp] theorem dcResetBody_pack (s : State) : (dcResetBody s).pack = s.pack := rfl
@[simp] theorem dcResetBody_errInfo (s : State) : (dcResetBody s).errInfo = s.errInfo := rfl
@[simp] theorem dcResetBody_irqEn (s : State) : (dcResetBody s).irqEn = s.irqEn := rfl
@[simp] theorem dcResetBody_irqStat (s : State) : (dcResetBody s).irqStat = s.irqStat := rfl
@[simp] theorem dcResetBody_qtab (s : State) : (dcResetBody s).qtab = s.qtab := rfl
@[simp] theorem dcResetBody_huff (s : State) : (dcResetBody s).huff = s.huff := rfl
@[simp] theorem dcResetBody_freq (s : State) : (dcResetBody s).freq = s.freq := rfl
@[simp] theorem dcResetBody_blk (s : State) : (dcResetBody s).blk = s.blk := rfl
@[simp] theorem dcResetBody_coef (s : State) : (dcResetBody s).coef = s.coef := rfl
@[simp] theorem dcResetBody_qcoef (s : State) : (dcResetBody s).qcoef = s.qcoef := rfl
@[simp] theorem dcResetBody_zzbuf (s : State) : (dcResetBody s).zzbuf = s.zzbuf := rfl
@[simp] theorem dcResetBody_mem (s : State) : (dcResetBody s).mem = s.mem := rfl
@[simp] theorem dcResetBody_busErr (s : State) : (dcResetBody s).busErr = s.busErr := rfl
@[simp] theorem dcResetBody_volatileSrc (s : State) : (dcResetBody s).volatileSrc = s.volatileSrc := rfl
@[simp] theorem dcResetBody_racySrc (s : State) : (dcResetBody s).racySrc = s.racySrc := rfl
@[simp] theorem dcResetBody_racyDst (s : State) : (dcResetBody s).racyDst = s.racyDst := rfl
@[simp] theorem dcResetBody_draws (s : State) : (dcResetBody s).draws = s.draws := rfl
@[simp] theorem dcResetBody_inputs (s : State) : (dcResetBody s).inputs = s.inputs := rfl
@[simp] theorem dcResetBody_resp (s : State) : (dcResetBody s).resp = s.resp := rfl

/-! freqClearBody -/

@[simp] theorem freqClearBody_ctrl (s : State) : (freqClearBody s).ctrl = s.ctrl := rfl
@[simp] theorem freqClearBody_status (s : State) : (freqClearBody s).status = s.status := rfl
@[simp] theorem freqClearBody_lastCmd (s : State) : (freqClearBody s).lastCmd = s.lastCmd := rfl
@[simp] theorem freqClearBody_frame (s : State) : (freqClearBody s).frame = s.frame := rfl
@[simp] theorem freqClearBody_mcuPos (s : State) : (freqClearBody s).mcuPos = s.mcuPos := rfl
@[simp] theorem freqClearBody_src0 (s : State) : (freqClearBody s).src0 = s.src0 := rfl
@[simp] theorem freqClearBody_src1 (s : State) : (freqClearBody s).src1 = s.src1 := rfl
@[simp] theorem freqClearBody_src2 (s : State) : (freqClearBody s).src2 = s.src2 := rfl
@[simp] theorem freqClearBody_stride (s : State) : (freqClearBody s).stride = s.stride := rfl
@[simp] theorem freqClearBody_dstPtr (s : State) : (freqClearBody s).dstPtr = s.dstPtr := rfl
@[simp] theorem freqClearBody_dstLim (s : State) : (freqClearBody s).dstLim = s.dstLim := rfl
@[simp] theorem freqClearBody_dcPred0 (s : State) : (freqClearBody s).dcPred0 = s.dcPred0 := rfl
@[simp] theorem freqClearBody_dcPred1 (s : State) : (freqClearBody s).dcPred1 = s.dcPred1 := rfl
@[simp] theorem freqClearBody_dcPred2 (s : State) : (freqClearBody s).dcPred2 = s.dcPred2 := rfl
@[simp] theorem freqClearBody_pack (s : State) : (freqClearBody s).pack = s.pack := rfl
@[simp] theorem freqClearBody_errInfo (s : State) : (freqClearBody s).errInfo = s.errInfo := rfl
@[simp] theorem freqClearBody_irqEn (s : State) : (freqClearBody s).irqEn = s.irqEn := rfl
@[simp] theorem freqClearBody_irqStat (s : State) : (freqClearBody s).irqStat = s.irqStat := rfl
@[simp] theorem freqClearBody_qtab (s : State) : (freqClearBody s).qtab = s.qtab := rfl
@[simp] theorem freqClearBody_huff (s : State) : (freqClearBody s).huff = s.huff := rfl
@[simp] theorem freqClearBody_freq (s : State) : (freqClearBody s).freq = tabOf 0 (List.replicate 1024 0#32) := by simp only [freqClearBody]
@[simp] theorem freqClearBody_blk (s : State) : (freqClearBody s).blk = s.blk := rfl
@[simp] theorem freqClearBody_coef (s : State) : (freqClearBody s).coef = s.coef := rfl
@[simp] theorem freqClearBody_qcoef (s : State) : (freqClearBody s).qcoef = s.qcoef := rfl
@[simp] theorem freqClearBody_zzbuf (s : State) : (freqClearBody s).zzbuf = s.zzbuf := rfl
@[simp] theorem freqClearBody_mem (s : State) : (freqClearBody s).mem = s.mem := rfl
@[simp] theorem freqClearBody_busErr (s : State) : (freqClearBody s).busErr = s.busErr := rfl
@[simp] theorem freqClearBody_volatileSrc (s : State) : (freqClearBody s).volatileSrc = s.volatileSrc := rfl
@[simp] theorem freqClearBody_racySrc (s : State) : (freqClearBody s).racySrc = s.racySrc := rfl
@[simp] theorem freqClearBody_racyDst (s : State) : (freqClearBody s).racyDst = s.racyDst := rfl
@[simp] theorem freqClearBody_draws (s : State) : (freqClearBody s).draws = s.draws := rfl
@[simp] theorem freqClearBody_inputs (s : State) : (freqClearBody s).inputs = s.inputs := rfl
@[simp] theorem freqClearBody_resp (s : State) : (freqClearBody s).resp = s.resp := rfl

/-! setPred -/

@[simp] theorem setPred_ctrl (c : Component) (p : Half) (s : State) : (setPred c p s).ctrl = s.ctrl := by cases c <;> rfl
@[simp] theorem setPred_status (c : Component) (p : Half) (s : State) : (setPred c p s).status = s.status := by cases c <;> rfl
@[simp] theorem setPred_lastCmd (c : Component) (p : Half) (s : State) : (setPred c p s).lastCmd = s.lastCmd := by cases c <;> rfl
@[simp] theorem setPred_frame (c : Component) (p : Half) (s : State) : (setPred c p s).frame = s.frame := by cases c <;> rfl
@[simp] theorem setPred_mcuPos (c : Component) (p : Half) (s : State) : (setPred c p s).mcuPos = s.mcuPos := by cases c <;> rfl
@[simp] theorem setPred_src0 (c : Component) (p : Half) (s : State) : (setPred c p s).src0 = s.src0 := by cases c <;> rfl
@[simp] theorem setPred_src1 (c : Component) (p : Half) (s : State) : (setPred c p s).src1 = s.src1 := by cases c <;> rfl
@[simp] theorem setPred_src2 (c : Component) (p : Half) (s : State) : (setPred c p s).src2 = s.src2 := by cases c <;> rfl
@[simp] theorem setPred_stride (c : Component) (p : Half) (s : State) : (setPred c p s).stride = s.stride := by cases c <;> rfl
@[simp] theorem setPred_dstPtr (c : Component) (p : Half) (s : State) : (setPred c p s).dstPtr = s.dstPtr := by cases c <;> rfl
@[simp] theorem setPred_dstLim (c : Component) (p : Half) (s : State) : (setPred c p s).dstLim = s.dstLim := by cases c <;> rfl
@[simp] theorem setPred_pack (c : Component) (p : Half) (s : State) : (setPred c p s).pack = s.pack := by cases c <;> rfl
@[simp] theorem setPred_errInfo (c : Component) (p : Half) (s : State) : (setPred c p s).errInfo = s.errInfo := by cases c <;> rfl
@[simp] theorem setPred_irqEn (c : Component) (p : Half) (s : State) : (setPred c p s).irqEn = s.irqEn := by cases c <;> rfl
@[simp] theorem setPred_irqStat (c : Component) (p : Half) (s : State) : (setPred c p s).irqStat = s.irqStat := by cases c <;> rfl
@[simp] theorem setPred_qtab (c : Component) (p : Half) (s : State) : (setPred c p s).qtab = s.qtab := by cases c <;> rfl
@[simp] theorem setPred_huff (c : Component) (p : Half) (s : State) : (setPred c p s).huff = s.huff := by cases c <;> rfl
@[simp] theorem setPred_freq (c : Component) (p : Half) (s : State) : (setPred c p s).freq = s.freq := by cases c <;> rfl
@[simp] theorem setPred_blk (c : Component) (p : Half) (s : State) : (setPred c p s).blk = s.blk := by cases c <;> rfl
@[simp] theorem setPred_coef (c : Component) (p : Half) (s : State) : (setPred c p s).coef = s.coef := by cases c <;> rfl
@[simp] theorem setPred_qcoef (c : Component) (p : Half) (s : State) : (setPred c p s).qcoef = s.qcoef := by cases c <;> rfl
@[simp] theorem setPred_zzbuf (c : Component) (p : Half) (s : State) : (setPred c p s).zzbuf = s.zzbuf := by cases c <;> rfl
@[simp] theorem setPred_mem (c : Component) (p : Half) (s : State) : (setPred c p s).mem = s.mem := by cases c <;> rfl
@[simp] theorem setPred_busErr (c : Component) (p : Half) (s : State) : (setPred c p s).busErr = s.busErr := by cases c <;> rfl
@[simp] theorem setPred_volatileSrc (c : Component) (p : Half) (s : State) : (setPred c p s).volatileSrc = s.volatileSrc := by cases c <;> rfl
@[simp] theorem setPred_racySrc (c : Component) (p : Half) (s : State) : (setPred c p s).racySrc = s.racySrc := by cases c <;> rfl
@[simp] theorem setPred_racyDst (c : Component) (p : Half) (s : State) : (setPred c p s).racyDst = s.racyDst := by cases c <;> rfl
@[simp] theorem setPred_draws (c : Component) (p : Half) (s : State) : (setPred c p s).draws = s.draws := by cases c <;> rfl
@[simp] theorem setPred_inputs (c : Component) (p : Half) (s : State) : (setPred c p s).inputs = s.inputs := by cases c <;> rfl
@[simp] theorem setPred_resp (c : Component) (p : Half) (s : State) : (setPred c p s).resp = s.resp := by cases c <;> rfl
@[simp] theorem pred_setPred (c : Component) (p : Half) (s : State) : pred (setPred c p s) c = p := by cases c <;> rfl
theorem pred_setPred_ne (c d : Component) (p : Half) (s : State) (h : d ≠ c) : pred (setPred c p s) d = pred s d := by
  cases c <;> cases d <;> first | rfl | exact absurd rfl h

end Sys2Proof.Machine
end

