-- ==== Sys2Proof/Laws/Storage.lean ====
section
/-! SUPPORT. The laws of sparse storage and of external memory: read after write, canonical form. -/

namespace Sys2Proof.Machine

/-! Reading after writing. -/

@[simp] theorem tabGet_nil {α : Type} (k : Nat) : tabGet ([] : Store α) k = none := rfl

@[simp] theorem tabGet_tabSet_same {α : Type} (st : Store α) (k : Nat) (v : α) : tabGet (tabSet st k v) k = some v := by
  induction st with
  | nil => simp [tabSet, tabGet]
  | cons c rest ih =>
    obtain ⟨j, w⟩ := c
    unfold tabSet
    split
    · simp [tabGet]
    · split
      · simp [tabGet]
      · rename_i h1 h2
        simp [tabGet, Ne.symm h2, ih]

theorem tabGet_tabSet_ne {α : Type} (st : Store α) (k m : Nat) (v : α) (h : m ≠ k) :
    tabGet (tabSet st k v) m = tabGet st m := by
  induction st with
  | nil => simp [tabSet, tabGet, Ne.symm h]
  | cons c rest ih =>
    obtain ⟨j, w⟩ := c
    unfold tabSet
    split
    · simp [tabGet, Ne.symm h]
    · split
      · rename_i h1 h2
        subst h2
        simp [tabGet, Ne.symm h]
      · simp [tabGet, ih]

theorem tabGet_tabSet {α : Type} (st : Store α) (k m : Nat) (v : α) :
    tabGet (tabSet st k v) m = if m = k then some v else tabGet st m := by
  split
  · next h => rw [h, tabGet_tabSet_same]
  · next h => exact tabGet_tabSet_ne st k m v h

theorem tabGet_tabSetRun {α : Type} (vs : List α) (st : Store α) (lo m : Nat) :
    tabGet (tabSetRun st lo vs) m =
      if lo ≤ m ∧ m < lo + vs.length then vs[m - lo]? else tabGet st m := by
  induction vs generalizing st lo with
  | nil => simp only [tabSetRun, List.length_nil]; rw [if_neg (by omega)]
  | cons v vs ih =>
    simp only [tabSetRun, ih, tabGet_tabSet, List.length_cons]
    by_cases h : m = lo
    · subst h; rw [if_neg (by omega), if_pos rfl, if_pos (by omega)]; simp
    · by_cases h2 : lo + 1 ≤ m ∧ m < lo + 1 + vs.length
      · rw [if_pos h2, if_pos (by omega), show m - lo = (m - (lo + 1)) + 1 by omega, List.getElem?_cons_succ]
      · rw [if_neg h2, if_neg h, if_neg (by omega)]

theorem tabGet_tabOf {α : Type} (vs : List α) (lo m : Nat) :
    tabGet (tabOf lo vs) m = if lo ≤ m then vs[m - lo]? else none := by
  induction vs generalizing lo with
  | nil => simp [tabOf]
  | cons v vs ih =>
    simp only [tabOf, tabGet, ih]
    by_cases h : lo = m
    · subst h; simp
    · rw [if_neg h]
      by_cases h2 : lo + 1 ≤ m
      · rw [if_pos h2, if_pos (by omega), show m - lo = (m - (lo + 1)) + 1 by omega, List.getElem?_cons_succ]
      · rw [if_neg h2, if_neg (by omega)]

theorem tabGet_filter_ne {α : Type} (st : Store α) (k m : Nat) :
    tabGet (st.filter (fun c => c.1 ≠ k)) m = if m = k then none else tabGet st m := by
  induction st with
  | nil => simp
  | cons c rest ih =>
    obtain ⟨j, w⟩ := c
    by_cases hj : j = k
    · subst hj
      simp only [List.filter_cons, ne_eq, not_true_eq_false, decide_false, Bool.false_eq_true, if_false] at ih ⊢
      rw [ih]
      by_cases hm : m = j
      · simp [hm]
      · simp [hm, tabGet, Ne.symm hm]
    · simp only [List.filter_cons, ne_eq, hj, not_false_eq_true, decide_true, if_true] at ih ⊢
      simp only [tabGet, ih]
      by_cases hm : j = m
      · subst hm; simp [hj]
      · simp [hm]

@[simp] theorem Memory.read_write_same (m : List Host.Cell) (a : Nat) (b : Byte) :
    Memory.read (Memory.write m a b) a = b := by
  unfold Memory.read Memory.write
  split
  · next h => rw [tabGet_filter_ne, if_pos rfl]; simp [h]
  · simp

theorem Memory.read_write_ne (m : List Host.Cell) (a c : Nat) (b : Byte) (h : c ≠ a) :
    Memory.read (Memory.write m a b) c = Memory.read m c := by
  unfold Memory.read Memory.write
  split
  · rw [tabGet_filter_ne, if_neg h]
  · rw [tabGet_tabSet_ne _ _ _ _ h]

/-! The canonical form. -/

theorem keys_tabSet {α : Type} (st : Store α) (k : Nat) (v : α) (x : Nat) :
    x ∈ (tabSet st k v).map Prod.fst ↔ x = k ∨ x ∈ st.map Prod.fst := by
  induction st with
  | nil => simp [tabSet]
  | cons c rest ih =>
    obtain ⟨j, w⟩ := c
    unfold tabSet
    split
    · simp
    · split
      · next h => subst h; simp
      · rw [List.map_cons, List.mem_cons, ih]; simp only [List.map_cons, List.mem_cons]; tauto

theorem tabWf_tabSet {α : Type} (size : Nat) (st : Store α) (k : Nat) (v : α) (hk : k < size) (h : tabWf size st) :
    tabWf size (tabSet st k v) := by
  refine ⟨?_, fun x hx => ?_⟩
  · replace h := h.1
    induction st with
    | nil => simp [tabSet]
    | cons c rest ih =>
      obtain ⟨j, w⟩ := c
      simp only [List.map_cons, List.pairwise_cons] at h
      unfold tabSet
      split
      · next hkj =>
        simp only [List.map_cons, List.pairwise_cons, List.mem_cons]
        refine ⟨fun x hx => ?_, h⟩
        rcases hx with rfl | hx
        · exact hkj
        · exact lt_trans hkj (h.1 x hx)
      · split
        · next h2 => subst h2; simpa using h
        · next h1 h2 =>
          simp only [List.map_cons, List.pairwise_cons]
          refine ⟨fun x hx => ?_, ih h.2⟩
          rcases (keys_tabSet _ _ _ _).1 hx with rfl | hx
          · omega
          · exact h.1 x hx
  · rcases (keys_tabSet _ _ _ _).1 hx with rfl | hx
    · exact hk
    · exact h.2 x hx

theorem tabWf_tabSetRun {α : Type} (size : Nat) (vs : List α) (st : Store α) (lo : Nat) (hk : lo + vs.length ≤ size)
    (h : tabWf size st) : tabWf size (tabSetRun st lo vs) := by
  induction vs generalizing st lo with
  | nil => exact h
  | cons v vs ih =>
    simp only [List.length_cons] at hk
    exact ih _ _ (by omega) (tabWf_tabSet _ _ _ _ (by omega) h)

theorem keys_tabOf {α : Type} (vs : List α) (lo : Nat) : (tabOf lo vs).map Prod.fst = List.range' lo vs.length := by
  induction vs generalizing lo with
  | nil => rfl
  | cons v vs ih => simp [tabOf, ih, List.range'_succ]

theorem tabWf_tabOf {α : Type} (size : Nat) (vs : List α) (hk : vs.length ≤ size) : tabWf size (tabOf 0 vs) := by
  rw [tabWf, keys_tabOf]
  refine ⟨List.pairwise_lt_range', fun k hk' => ?_⟩
  have := (List.mem_range'_1.1 hk').2
  omega

theorem tabWf_nil {α : Type} (size : Nat) : tabWf size ([] : Store α) := by simp [tabWf]

theorem tabWf_fillFree {α : Type} (conv : Word → α) (lo n d size : Nat) (st : Store α) (hk : lo + n ≤ size)
    (h : tabWf size st) : tabWf size (fillFree conv lo n d st) :=
  tabWf_tabSetRun _ _ _ _ (by simpa using hk) h

theorem mem_tabSet {α : Type} (st : Store α) (k : Nat) (v : α) (c : Nat × α) (h : c ∈ tabSet st k v) :
    c = (k, v) ∨ c ∈ st := by
  induction st with
  | nil => simpa [tabSet] using h
  | cons d rest ih =>
    obtain ⟨j, w⟩ := d
    unfold tabSet at h
    split at h
    · simpa using h
    · split at h
      · rcases List.mem_cons.1 h with h | h
        · exact .inl h
        · exact .inr (List.mem_cons_of_mem _ h)
      · rcases List.mem_cons.1 h with h | h
        · exact .inr (by simp [h])
        · rcases ih h with h | h
          · exact .inl h
          · exact .inr (List.mem_cons_of_mem _ h)

/-- Writing a byte keeps the canonical form of external memory. -/
theorem Memory.wf_write (m : List Host.Cell) (a : Nat) (b : Byte) (ha : a < 2 ^ 32) (h : Memory.wf m) :
    Memory.wf (Memory.write m a b) := by
  unfold Memory.write
  split
  · refine ⟨⟨?_, fun k hk => ?_⟩, fun c hc => ?_⟩
    · exact h.1.1.sublist (List.filter_sublist.map _)
    · exact h.1.2 k ((List.filter_sublist.map _).subset hk)
    · exact h.2 c (List.mem_of_mem_filter hc)
  · next hb =>
    refine ⟨tabWf_tabSet _ _ _ _ ha h.1, fun c hc => ?_⟩
    rcases mem_tabSet _ _ _ _ hc with rfl | hc
    · exact hb
    · exact h.2 c hc

/-- Copying bytes keeps the canonical form of external memory. -/
theorem Memory.wf_copyBytes (src : List Host.Cell) (n : Nat) (a : Word) (m : List Host.Cell) (h : Memory.wf m) :
    Memory.wf (copyBytes src a n m) := by
  induction n generalizing a m with
  | zero => exact h
  | succ n ih => exact ih _ _ (Memory.wf_write _ _ _ a.isLt h)

/-! Reading a list of entries. -/

/-- readAt answers the values at its indices, and only if all of them are written. -/
theorem readAt_ok {α : Type} (r : Region) (st : Store α) (s : State) (ks : List Nat) (vs : List α) :
    readAt r st s ks = .ok vs ↔ ks.map (tabGet st) = vs.map some := by
  induction ks generalizing vs with
  | nil => cases vs <;> simp [readAt]
  | cons k ks ih =>
    unfold readAt
    cases hk : tabGet st k with
    | none => cases vs <;> simp [hk]
    | some v =>
      cases hr : readAt r st s ks with
      | error e =>
        cases vs with
        | nil => simp
        | cons w ws =>
          simp only [reduceCtorEq, List.map_cons, List.cons.injEq, hk, Option.some.injEq, false_iff, not_and]
          intro _ hh
          rw [(ih ws).2 hh] at hr
          cases hr
      | ok ws =>
        have := ih ws
        cases vs with
        | nil => simp
        | cons w us =>
          simp only [Except.ok.injEq, List.cons.injEq, List.map_cons, hk, Option.some.injEq]
          rw [(this.1 hr)]
          constructor
          · rintro ⟨rfl, rfl⟩; exact ⟨rfl, rfl⟩
          · rintro ⟨rfl, h⟩; exact ⟨rfl, List.map_injective_iff.2 (fun _ _ => by simp) h⟩

/-- Where every index is written, readAt answers. -/
theorem readAt_of_written {α : Type} (r : Region) (st : Store α) (s : State) (ks : List Nat)
    (h : ∀ k ∈ ks, (tabGet st k).isSome = true) : ∃ vs, readAt r st s ks = .ok vs ∧ ks.map (tabGet st) = vs.map some := by
  induction ks with
  | nil => exact ⟨[], rfl, rfl⟩
  | cons k ks ih =>
    obtain ⟨vs, hv, hm⟩ := ih (fun x hx => h x (List.mem_cons_of_mem _ hx))
    obtain ⟨v, hv'⟩ := Option.isSome_iff_exists.1 (h k (by simp))
    exact ⟨v :: vs, by simp [readAt, hv', hv], by simp [hv', hm]⟩

/-- readAt stops in one way only: at the first index that is not written. -/
theorem readAt_error {α : Type} (r : Region) (st : Store α) (s : State) (ks : List Nat) (e : Halt) (h : readAt r st s ks = .error e) :
    ∃ k ∈ ks, e = .unwritten r k s ∧ tabGet st k = none := by
  induction ks with
  | nil => simp [readAt] at h
  | cons k ks ih =>
    unfold readAt at h
    cases hk : tabGet st k with
    | none => simp only [hk, Except.error.injEq] at h; exact ⟨k, by simp, h.symm, hk⟩
    | some v =>
      simp only [hk] at h
      cases hr : readAt r st s ks with
      | error e' =>
        simp only [hr, Except.error.injEq] at h
        subst h
        obtain ⟨x, hx, h1, h2⟩ := ih hr
        exact ⟨x, by simp [hx], h1, h2⟩
      | ok vs => simp [hr] at h

theorem readAt_length {α : Type} (r : Region) (st : Store α) (s : State) (ks : List Nat) (vs : List α)
    (h : readAt r st s ks = .ok vs) : vs.length = ks.length := by
  have := congrArg List.length ((readAt_ok r st s ks vs).1 h)
  simpa using this.symm

end Sys2Proof.Machine
end

