-- ==== Sys2Proof/Laws/Stream.lean ====
section
/-! SUPPORT. What the operations on the output stream can do: WriteByte, the stuffed byte, PutBits. -/

namespace Sys2Proof.Machine

open Sys2Proof.Safety

/-! Frames compose. -/

theorem StreamFrame.refl (s : State) : StreamFrame s s := ⟨rfl, le_rfl, le_rfl, fun _ _ => rfl⟩

theorem StreamFrame.trans {a b c : State} (h1 : StreamFrame a b) (h2 : StreamFrame b c) : StreamFrame a c := by
  obtain ⟨e1, p1, d1, m1⟩ := h1
  obtain ⟨e2, p2, d2, m2⟩ := h2
  refine ⟨?_, p1.trans p2, d1.trans d2, fun x hx => ?_⟩
  · rw [e2, e1]
  · rw [m2 x (by omega), m1 x (by omega)]

theorem EngineFrame.refl (s : State) : EngineFrame s s := ⟨rfl, le_rfl, le_rfl, fun _ _ => rfl⟩

theorem EngineFrame.trans {a b c : State} (h1 : EngineFrame a b) (h2 : EngineFrame b c) : EngineFrame a c := by
  obtain ⟨e1, p1, d1, m1⟩ := h1
  obtain ⟨e2, p2, d2, m2⟩ := h2
  refine ⟨?_, p1.trans p2, d1.trans d2, fun x hx => ?_⟩
  · rw [e2, e1]
  · rw [m2 x (by omega), m1 x (by omega)]

theorem StreamFrame.engine {s t : State} (h : StreamFrame s t) : EngineFrame s t := by
  obtain ⟨e, p, d, m⟩ := h
  refine ⟨?_, p, d, m⟩
  rw [e]

/-! Reaching through a sequence of operations. -/

theorem Reaches.mono {R R' : State → State → Prop} {s : State} {x : Except Halt State} (h : Reaches R s x)
    (hr : ∀ t, R s t → R' s t) : Reaches R' s x := by
  match x, h with
  | .ok t, h => exact hr t h
  | .error (.raise _ _ t), h => exact hr t h
  | .error (.unwritten _ _ t), h => exact hr t h

/-- A relation that composes is reached through a halt or through the rest of a body. -/
theorem Reaches.seq {R : State → State → Prop} (trans : ∀ a b c, R a b → R b c → R a c) {s t : State}
    {y : Except Halt State} (h1 : R s t) (h2 : Reaches R t y) : Reaches R s y := by
  match y, h2 with
  | .ok u, h => exact trans _ _ _ h1 h
  | .error (.raise _ _ u), h => exact trans _ _ _ h1 h
  | .error (.unwritten _ _ u), h => exact trans _ _ _ h1 h

/-! The stream operations. -/

/-- What MemWrite can do: write one byte, or raise BUS_ERR and write nothing. -/
theorem memWrite_cases (a : Word) (b : Byte) (s : State) :
    (busError s .write a = true ∧ memWrite a b s = .error (.raise .busErr a s)) ∨
    (busError s .write a = false ∧ ∃ v n, memWrite a b s = .ok (advance n { s with mem := Memory.write s.mem a.toNat v })
      ∧ (inRanges s.racyDst a.toNat = false → v = b ∧ n = 0)) := by
  unfold memWrite
  cases hb : busError s .write a with
  | true => exact .inl ⟨rfl, by simp⟩
  | false =>
    refine .inr ⟨rfl, ?_⟩
    cases hr : inRanges s.racyDst a.toNat with
    | true => exact ⟨(freeNow s).setWidth 8, 1, by simp only [Bool.false_eq_true, if_false, if_true], by simp⟩
    | false => exact ⟨b, 0, by simp only [Bool.false_eq_true, if_false]; rfl, fun _ => ⟨rfl, rfl⟩⟩

/-- What WriteByte can do: raise DST_OVF, raise BUS_ERR, or write one byte and advance DSTPTR by one. -/
theorem writeByte_cases (b : Byte) (s : State) :
    (s.dstLim ≤ s.dstPtr ∧ writeByte b s = .error (.raise .dstOvf s.dstPtr s)) ∨
    (s.dstPtr < s.dstLim ∧ busError s .write s.dstPtr = true ∧ writeByte b s = .error (.raise .busErr s.dstPtr s)) ∨
    (s.dstPtr < s.dstLim ∧ busError s .write s.dstPtr = false ∧ ∃ v n,
      writeByte b s = .ok { s with
        mem := Memory.write s.mem s.dstPtr.toNat v, dstPtr := s.dstPtr + 1#32, draws := s.draws + n } ∧
      (s.dstPtr + 1#32).toNat = s.dstPtr.toNat + 1 ∧
      (inRanges s.racyDst s.dstPtr.toNat = false → v = b ∧ n = 0)) := by
  unfold writeByte
  by_cases hl : s.dstLim ≤ s.dstPtr
  · exact .inl ⟨hl, by rw [if_pos hl]⟩
  · rw [if_neg hl]
    replace hl : s.dstPtr < s.dstLim := by simpa using hl
    rcases memWrite_cases s.dstPtr b s with ⟨hb, h⟩ | ⟨hb, v, n, h, hv⟩
    · exact .inr (.inl ⟨hl, hb, by rw [h]⟩)
    · refine .inr (.inr ⟨hl, hb, v, n, by rw [h]; rfl, ?_, hv⟩)
      bv_omega

/-- WriteByte changes only the stream. -/
theorem writeByte_frame (b : Byte) (s : State) : Reaches StreamFrame s (writeByte b s) := by
  rcases writeByte_cases b s with ⟨_, h⟩ | ⟨_, _, h⟩ | ⟨_, _, v, n, h, hp, _⟩
  · rw [h]; exact StreamFrame.refl s
  · rw [h]; exact StreamFrame.refl s
  · rw [h]
    refine ⟨rfl, ?_, Nat.le_add_right _ _, fun x hx => ?_⟩
    · show s.dstPtr.toNat ≤ (s.dstPtr + 1#32).toNat
      omega
    · replace hx : ¬ (s.dstPtr.toNat ≤ x ∧ x < (s.dstPtr + 1#32).toNat) := hx
      exact Memory.read_write_ne _ _ _ _ (by omega)

/-- WriteByte keeps storage canonical. -/
theorem writeByte_storage (b : Byte) (s : State) :
    Reaches (fun s t => StorageInv s → StorageInv t) s (writeByte b s) := by
  rcases writeByte_cases b s with ⟨_, h⟩ | ⟨_, _, h⟩ | ⟨_, _, v, n, h, _, _⟩
  · rw [h]; exact id
  · rw [h]; exact id
  · rw [h]
    exact fun hi => ⟨Memory.wf_write _ _ _ s.dstPtr.isLt hi.1, hi.2⟩

theorem emitByte_eq (b : Byte) (s : State) :
    emitByte b s = match writeByte b s with
      | .error h => .error h
      | .ok t => if b = 0xFF#8 then writeByte 0x00#8 t else .ok t := rfl

/-- A relation that WriteByte reaches and that composes is reached by the stuffed byte. -/
theorem emitByte_reaches {R : State → State → Prop} (trans : ∀ a b c, R a b → R b c → R a c)
    (hw : ∀ b s, Reaches R s (writeByte b s)) (b : Byte) (s : State) : Reaches R s (emitByte b s) := by
  have h1 := hw b s
  unfold emitByte
  cases hx : writeByte b s with
  | error e => rw [hx] at h1; exact h1
  | ok t =>
    rw [hx] at h1
    show Reaches R s (if b = 0xFF#8 then writeByte 0x00#8 t else .ok t)
    split
    · exact Reaches.seq trans h1 (hw _ t)
    · exact h1

/-- A relation that WriteByte reaches, that composes, and that holds of a new PACK is reached by PutBits. -/
theorem drain_reaches {R : State → State → Prop} (trans : ∀ a b c, R a b → R b c → R a c)
    (hw : ∀ b s, Reaches R s (writeByte b s)) (hp : ∀ s n v, R s { s with pack := packOf n v }) (k rem acc : Nat)
    (s : State) : Reaches R s (drain k rem acc s) := by
  induction k generalizing acc s with
  | zero => exact hp s rem acc
  | succ k ih =>
    have h1 := emitByte_reaches trans hw (BitVec.ofNat 8 (acc / 2 ^ (8 * k + rem))) s
    unfold drain
    cases hx : emitByte (BitVec.ofNat 8 (acc / 2 ^ (8 * k + rem))) s with
    | error e => rw [hx] at h1; exact h1
    | ok t => rw [hx] at h1; exact Reaches.seq trans h1 (ih _ t)

theorem packOf_inv (n v : Nat) : (packOf n v).acc.toNat < 2 ^ (packOf n v).cnt.toNat ∨ 8 ≤ n := by
  by_cases h : 8 ≤ n
  · exact .inr h
  · left
    have hn : n < 8 := by omega
    simp only [packOf, BitVec.toNat_ofNat]
    rw [Nat.mod_eq_of_lt (by omega : n < 2 ^ 3)]
    exact lt_of_le_of_lt (Nat.mod_le _ _) (Nat.mod_lt _ (by positivity))

theorem packOfWord_inv (w : Word) : (packOfWord w).acc.toNat < 2 ^ (packOfWord w).cnt.toNat := by
  rcases packOf_inv (w.extractLsb' 8 3).toNat (w.extractLsb' 0 7).toNat with h | h
  · exact h
  · have := (w.extractLsb' 8 3).isLt; omega

/-- PutBits changes only PACK, DSTPTR and the bytes it writes. -/
theorem putBits_frame (v n : Nat) (s : State) : Reaches StreamFrame s (putBits v n s) :=
  drain_reaches (R := StreamFrame) (fun _ _ _ => StreamFrame.trans) writeByte_frame
    (fun _ _ _ => ⟨rfl, le_rfl, le_rfl, fun _ _ => rfl⟩) _ _ _ _

/-- Moving bytes out keeps storage canonical, if fewer than eight bits stay. -/
theorem drain_storage (k rem acc : Nat) (hrem : rem < 8) (s : State) :
    Reaches (fun s t => StorageInv s → StorageInv t) s (drain k rem acc s) := by
  have trans : ∀ a b c : State, (StorageInv a → StorageInv b) → (StorageInv b → StorageInv c) → StorageInv a → StorageInv c :=
    fun _ _ _ f g x => g (f x)
  induction k generalizing acc s with
  | zero =>
    intro hi
    rcases packOf_inv rem acc with h | h
    · obtain ⟨h1, h2, h3, h4, h5, h6, h7, h8, _⟩ := hi
      exact ⟨h1, h2, h3, h4, h5, h6, h7, h8, h⟩
    · omega
  | succ k ih =>
    have h1 := emitByte_reaches trans writeByte_storage (BitVec.ofNat 8 (acc / 2 ^ (8 * k + rem))) s
    unfold drain
    cases hx : emitByte (BitVec.ofNat 8 (acc / 2 ^ (8 * k + rem))) s with
    | error e => rw [hx] at h1; exact h1
    | ok t => rw [hx] at h1; exact Reaches.seq trans h1 (ih _ t)

/-- PutBits keeps storage canonical. -/
theorem putBits_storage (v n : Nat) (s : State) :
    Reaches (fun s t => StorageInv s → StorageInv t) s (putBits v n s) :=
  drain_storage _ _ _ (Nat.mod_lt _ (by norm_num)) _

end Sys2Proof.Machine
end

