-- ==== Sys2Proof/Laws/Bodies.lean ====
section
/-! SUPPORT. What the bodies of the commands can do, said once: a relation between states that composes and that
holds of each elementary update (EngineRel) is reached by every body, whether it ends or faults. Its two main
cases: a body changes only what EngineFrame names, and it keeps storage canonical. -/

namespace Sys2Proof.Machine

open Sys2Proof.Safety

/-- The elementary updates of the engine, and composition. -/
structure EngineRel (R : State → State → Prop) : Prop where
  refl : ∀ s, R s s
  trans : ∀ a b c, R a b → R b c → R a c
  draw : ∀ n s, R s (advance n s)
  put : ∀ v n s, Reaches R s (putBits v n s)
  count : ∀ k c v s, tabGet s.freq k = some c → R s { s with freq := tabSet s.freq k v }
  pred : ∀ c p s, R s (setPred c p s)
  blk : ∀ m px s, R s { s with blk := storeMcu m px s.blk }
  coef : ∀ vs s, vs.length ≤ 64 → R s { s with coef := tabOf 0 vs }
  qcoef : ∀ vs s, vs.length ≤ 64 → R s { s with qcoef := tabOf 0 vs }
  zzbuf : ∀ vs s, vs.length ≤ 64 → R s { s with zzbuf := tabOf 0 vs }
  pos : ∀ p s, R s { s with mcuPos := p }

variable {R : State → State → Prop}

/-- A step that answers a value and a state, or halts. -/
def ReachesVal {β : Type} (R : State → State → Prop) (s : State) : Except Halt (β × State) → Prop
  | .ok (_, t) => R s t
  | .error (.raise _ _ t) => R s t
  | .error (.unwritten _ _ t) => R s t

theorem ReachesVal.halt {β : Type} {s : State} {e : Halt} (h : ReachesVal (β := β) R s (.error e)) :
    Reaches R s (.error e) := by
  cases e <;> exact h

theorem Reaches.haltVal {β : Type} {s : State} {e : Halt} (h : Reaches R s (.error e)) :
    ReachesVal (β := β) R s (.error e) := by
  cases e <;> exact h

theorem Reaches.halt_trans (hR : EngineRel R) {s t : State} {e : Halt} (h1 : R s t) (h2 : Reaches R t (.error e)) :
    Reaches R s (.error e) := Reaches.seq hR.trans h1 h2

/-! Coding. -/

theorem emitSymbol_reaches (hR : EngineRel R) (t sym v n : Nat) (s : State) : Reaches R s (emitSymbol t sym v n s) := by
  unfold emitSymbol
  cases tabGet s.huff (256 * t + sym) with
  | none => exact hR.refl s
  | some e =>
    show Reaches R s (if _ then _ else _)
    split
    · exact hR.refl s
    · have h1 := hR.put (e.code.toNat % 2 ^ e.len.toNat) e.len.toNat s
      cases hx : putBits (e.code.toNat % 2 ^ e.len.toNat) e.len.toNat s with
      | error e' => rw [hx] at h1; exact h1
      | ok u => rw [hx] at h1; exact Reaches.seq hR.trans h1 (hR.put v n u)

theorem countSymbol_reaches (hR : EngineRel R) (t sym : Nat) (s : State) : Reaches R s (countSymbol t sym s) := by
  unfold countSymbol
  cases h : tabGet s.freq (256 * t + sym) with
  | none => exact hR.refl s
  | some c => exact hR.count _ c _ s h

theorem symbol_reaches (hR : EngineRel R) (t sym v n : Nat) (s : State) : Reaches R s (symbol t sym v n s) := by
  unfold symbol
  split
  · exact countSymbol_reaches hR t sym s
  · exact emitSymbol_reaches hR t sym v n s

theorem zrls_reaches (hR : EngineRel R) (ta n : Nat) (s : State) : Reaches R s (zrls ta n s) := by
  induction n generalizing s with
  | zero => exact hR.refl s
  | succ n ih =>
    have h1 := symbol_reaches hR ta 0xF0 0 0 s
    unfold zrls
    cases hx : symbol ta 0xF0 0 0 s with
    | error e => rw [hx] at h1; exact h1
    | ok t => rw [hx] at h1; exact Reaches.seq hR.trans h1 (ih t)

theorem acNonzero_reaches (hR : EngineRel R) (ta k r : Nat) (v : Int) (s : State) :
    Reaches R s (acNonzero ta k r v s) := by
  unfold acNonzero
  split
  · exact hR.refl s
  · have h1 := zrls_reaches hR ta (r / 16) s
    cases hx : zrls ta (r / 16) s with
    | error e => rw [hx] at h1; exact h1
    | ok t => rw [hx] at h1; exact Reaches.seq hR.trans h1 (symbol_reaches hR _ _ _ _ t)

theorem acZero_reaches (hR : EngineRel R) (ta r : Nat) (s : State) : ReachesVal R s (acZero ta r s) := by
  unfold acZero
  split
  · exact hR.refl s
  · split
    · have h1 := symbol_reaches hR ta 0xF0 0 0 s
      cases hx : symbol ta 0xF0 0 0 s with
      | error e => rw [hx] at h1; exact Reaches.haltVal h1
      | ok t => rw [hx] at h1; exact h1
    · exact hR.refl s

theorem acStep_reaches (hR : EngineRel R) (ta k r : Nat) (s : State) : ReachesVal R s (acStep ta k r s) := by
  unfold acStep
  cases tabGet s.zzbuf k with
  | none => exact hR.refl s
  | some h =>
    show ReachesVal R s (if _ then _ else _)
    split
    · exact acZero_reaches hR ta r s
    · have h1 := acNonzero_reaches hR ta k r h.toInt s
      cases hx : acNonzero ta k r h.toInt s with
      | error e => rw [hx] at h1; exact Reaches.haltVal h1
      | ok t => rw [hx] at h1; exact h1

theorem acLoop_reaches (hR : EngineRel R) (ta n r : Nat) (s : State) : Reaches R s (acLoop ta n r s) := by
  induction n generalizing r s with
  | zero =>
    unfold acLoop
    split
    · exact symbol_reaches hR _ _ _ _ s
    · exact hR.refl s
  | succ n ih =>
    have h1 := acStep_reaches hR ta (63 - n) r s
    unfold acLoop
    cases hx : acStep ta (63 - n) r s with
    | error e => rw [hx] at h1; exact ReachesVal.halt h1
    | ok p => obtain ⟨r', t⟩ := p; rw [hx] at h1; exact Reaches.seq hR.trans h1 (ih r' t)

theorem dcCode_reaches (hR : EngineRel R) (c : Component) (s : State) : Reaches R s (dcCode c s) := by
  unfold dcCode
  cases tabGet s.zzbuf 0 with
  | none => exact hR.refl s
  | some dc =>
    show Reaches R s (if _ then _ else _)
    split
    · exact hR.refl s
    · have h1 := symbol_reaches hR (dcTable c) (cat (dc.toInt - (pred s c).toInt))
        (mag (dc.toInt - (pred s c).toInt) (cat (dc.toInt - (pred s c).toInt))) (cat (dc.toInt - (pred s c).toInt)) s
      cases hx : symbol (dcTable c) (cat (dc.toInt - (pred s c).toInt))
        (mag (dc.toInt - (pred s c).toInt) (cat (dc.toInt - (pred s c).toInt))) (cat (dc.toInt - (pred s c).toInt)) s with
      | error e => rw [hx] at h1; exact h1
      | ok t => rw [hx] at h1; exact hR.trans _ _ _ h1 (hR.pred c dc t)

theorem encBlockBody_reaches (hR : EngineRel R) (c : Component) (s : State) : Reaches R s (encBlockBody c s) := by
  have h1 := dcCode_reaches hR c s
  unfold encBlockBody
  cases hx : dcCode c s with
  | error e => rw [hx] at h1; exact h1
  | ok t => rw [hx] at h1; exact Reaches.seq hR.trans h1 (acLoop_reaches hR _ _ _ t)

theorem flushBody_reaches (hR : EngineRel R) (s : State) : Reaches R s (flushBody s) := by
  unfold flushBody
  split
  · exact hR.put _ _ s
  · exact hR.refl s

/-! The transform path. -/

theorem readAt_reaches (hR : EngineRel R) (s : State) {α : Type} (r : Region) (st : Store α) (ks : List Nat) (e : Halt)
    (h : readAt r st s ks = .error e) : Reaches R s (.error e) := by
  obtain ⟨k, _, rfl, _⟩ := readAt_error r st s ks e h
  exact hR.refl s

@[simp] theorem fdctBlock_length (xs : List Byte) : (fdctBlock xs).length = 64 := by simp [fdctBlock]

theorem fdctBody_reaches (hR : EngineRel R) (b : Fin 6) (s : State) : Reaches R s (fdctBody b s) := by
  unfold fdctBody
  cases hx : readAt .blk s.blk s (List.range' (64 * b.val) 64) with
  | error e => exact readAt_reaches hR s _ _ _ _ hx
  | ok xs => exact hR.coef _ s (by simp)

theorem readDivisors_cases (t : QSel) (s : State) (n i : Nat) :
    (∃ qs, readDivisors t s i n = .ok qs ∧ qs.length = n) ∨
    (∃ j, i ≤ j ∧ j < i + n ∧ tabGet s.qtab (64 * qselNumber t + j) = none ∧
      readDivisors t s i n = .error (.unwritten .qtab (64 * qselNumber t + j) s)) ∨
    (∃ j, i ≤ j ∧ j < i + n ∧ tabGet s.qtab (64 * qselNumber t + j) = some 0#8 ∧
      readDivisors t s i n = .error (.raise .qzero (BitVec.ofNat 32 j) s)) := by
  induction n generalizing i with
  | zero => exact .inl ⟨[], rfl, rfl⟩
  | succ n ih =>
    unfold readDivisors
    cases hq : tabGet s.qtab (64 * qselNumber t + i) with
    | none => exact .inr (.inl ⟨i, le_rfl, by omega, hq, rfl⟩)
    | some q =>
      by_cases h0 : q = 0#8
      · subst h0
        exact .inr (.inr ⟨i, le_rfl, by omega, hq, by simp⟩)
      · simp only [h0, if_false]
        rcases ih (i + 1) with ⟨qs, h, hl⟩ | ⟨j, h1, h2, h3, h4⟩ | ⟨j, h1, h2, h3, h4⟩
        · exact .inl ⟨q.toNat :: qs, by rw [h], by simp [hl]⟩
        · exact .inr (.inl ⟨j, by omega, by omega, h3, by rw [h4]⟩)
        · exact .inr (.inr ⟨j, by omega, by omega, h3, by rw [h4]⟩)

theorem quantBody_reaches (hR : EngineRel R) (t : QSel) (s : State) : Reaches R s (quantBody t s) := by
  unfold quantBody
  rcases readDivisors_cases t s 64 0 with ⟨qs, h, hl⟩ | ⟨j, _, _, _, h⟩ | ⟨j, _, _, _, h⟩
  · rw [h]
    show Reaches R s (match readAt .coef s.coef s (List.range 64) with | .error h => .error h | .ok xs => _)
    cases hx : readAt .coef s.coef s (List.range 64) with
    | error e => exact readAt_reaches hR s _ _ _ _ hx
    | ok xs => exact hR.qcoef _ s (by simp [hl])
  · rw [h]; exact hR.refl s
  · rw [h]; exact hR.refl s

theorem zigzagBody_reaches (hR : EngineRel R) (s : State) : Reaches R s (zigzagBody s) := by
  unfold zigzagBody
  cases hx : readAt .qcoef s.qcoef s zzOrder with
  | error e => exact readAt_reaches hR s _ _ _ _ hx
  | ok xs => exact hR.zzbuf _ s (le_of_eq ((readAt_length _ _ _ _ _ hx).trans rfl))

/-! The colourspace converter. -/

/-- MemRead takes at most one free value and changes nothing else. -/
theorem memRead_cases (a : Word) (s : State) :
    (busError s .read a = true ∧ memRead a s = .error (.raise .busErr a s)) ∨
    (busError s .read a = false ∧ ∃ b n, memRead a s = .ok (b, advance n s) ∧
      (inRanges s.racySrc a.toNat = false → inRanges s.volatileSrc a.toNat = false →
        b = Memory.read s.mem a.toNat ∧ n = 0)) := by
  unfold memRead
  cases hb : busError s .read a with
  | true => exact .inl ⟨rfl, by simp⟩
  | false =>
    refine .inr ⟨rfl, ?_⟩
    cases h1 : inRanges s.racySrc a.toNat <;> cases h2 : inRanges s.volatileSrc a.toNat
    · exact ⟨_, 0, by simp only [Bool.or_self, Bool.false_eq_true, if_false]; rfl, fun _ _ => ⟨rfl, rfl⟩⟩
    all_goals exact ⟨(freeNow s).setWidth 8, 1, by simp, by simp⟩

/-- Reading bytes takes free values and changes nothing else; it raises BUS_ERR at an address in error. -/
theorem readBytes_cases (as : List Word) (s : State) :
    (∃ a ∈ as, ∃ n, busError s .read a = true ∧ readBytes as s = .error (.raise .busErr a (advance n s))) ∨
    ((∀ a ∈ as, busError s .read a = false) ∧ ∃ bs n, readBytes as s = .ok (bs, advance n s) ∧ bs.length = as.length ∧
      ((∀ a ∈ as, inRanges s.racySrc a.toNat = false ∧ inRanges s.volatileSrc a.toNat = false) →
        bs = as.map (fun a => Memory.read s.mem a.toNat) ∧ n = 0)) := by
  induction as generalizing s with
  | nil => exact .inr ⟨by simp, [], 0, rfl, rfl, fun _ => ⟨rfl, rfl⟩⟩
  | cons a as ih =>
    unfold readBytes
    rcases memRead_cases a s with ⟨hb, h⟩ | ⟨hb, b, n, h, hp⟩
    · exact .inl ⟨a, by simp, 0, hb, by rw [h]; rfl⟩
    · rw [h]
      rcases ih (advance n s) with ⟨x, hx, m, hbx, hr⟩ | ⟨hbs, bs, m, hr, hl, hpl⟩
      · refine .inl ⟨x, by simp [hx], n + m, hbx, ?_⟩
        simp only [hr]
        simp [advance, Nat.add_assoc]
      · refine .inr ⟨fun x hx => ?_, b :: bs, n + m, ?_, by simp [hl], fun hall => ?_⟩
        · rcases List.mem_cons.1 hx with rfl | hx
          · exact hb
          · exact hbs x hx
        · simp only [hr]
          simp [advance, Nat.add_assoc]
        · obtain ⟨h1, h2⟩ := hp (hall a (by simp)).1 (hall a (by simp)).2
          obtain ⟨h3, h4⟩ := hpl (fun x hx => hall x (by simp [hx]))
          subst h2 h4
          exact ⟨by rw [h1, h3]; rfl, rfl⟩

/-- Reading pixels takes free values and changes nothing else; it raises BUS_ERR at an address in error. -/
theorem readPixels_cases (ps : List (Nat × Nat)) (s : State) :
    (∃ a ∈ ps.flatMap (fun p => pixelAddrs s p.1 p.2), ∃ n, busError s .read a = true ∧
      readPixels ps s = .error (.raise .busErr a (advance n s))) ∨
    ((∀ a ∈ ps.flatMap (fun p => pixelAddrs s p.1 p.2), busError s .read a = false) ∧
      ∃ px n, readPixels ps s = .ok (px, advance n s) ∧ px.length = ps.length ∧
      ((∀ a ∈ ps.flatMap (fun p => pixelAddrs s p.1 p.2),
          inRanges s.racySrc a.toNat = false ∧ inRanges s.volatileSrc a.toNat = false) →
        px = ps.map (fun p => pixelAt s p.1 p.2) ∧ n = 0)) := by
  induction ps generalizing s with
  | nil => exact .inr ⟨by simp, [], 0, rfl, rfl, fun _ => ⟨rfl, rfl⟩⟩
  | cons p ps ih =>
    unfold readPixels
    rcases readBytes_cases (pixelAddrs s p.1 p.2) s with ⟨a, ha, n, hb, h⟩ | ⟨hbs, bs, n, h, hl, hp⟩
    · exact .inl ⟨a, by simp [ha], n, hb, by rw [h]⟩
    · rw [h]
      have hsame : ∀ x y, pixelAddrs (advance n s) x y = pixelAddrs s x y := fun _ _ => rfl
      rcases ih (advance n s) with ⟨x, hx, m, hbx, hr⟩ | ⟨hbs', px, m, hr, hl', hpl⟩
      · refine .inl ⟨x, ?_, n + m, hbx, ?_⟩
        · rw [List.flatMap_cons]
          exact List.mem_append_right _ hx
        · simp only [hr]
          simp [advance, Nat.add_assoc]
      · refine .inr ⟨fun x hx => ?_, pixelOf s.ctrl.infmt bs :: px, n + m, ?_, by simp [hl'], fun hall => ?_⟩
        · rw [List.flatMap_cons] at hx
          rcases List.mem_append.1 hx with hx | hx
          · exact hbs x hx
          · exact hbs' x hx
        · simp only [hr]
          simp [advance, Nat.add_assoc]
        · rw [List.flatMap_cons] at hall
          obtain ⟨h1, h2⟩ := hp (fun x hx => hall x (List.mem_append_left _ hx))
          obtain ⟨h3, h4⟩ := hpl (fun x hx => hall x (List.mem_append_right _ hx))
          subst h2 h4
          exact ⟨by rw [h1, h3]; rfl, rfl⟩

theorem chooseFree_cases (a : Word) (rest : List Word) (s : State) :
    (chooseFree a rest s).1 ∈ a :: rest ∧ ∃ n, (chooseFree a rest s).2 = advance n s := by
  unfold chooseFree
  split
  · exact ⟨by simp, 0, rfl⟩
  · refine ⟨?_, 1, rfl⟩
    have hlt : (freeNow s).toNat % (rest.length + 1) < (a :: rest).length := by
      simpa using Nat.mod_lt _ (Nat.succ_pos rest.length)
    show (a :: rest).getD _ a ∈ _
    rw [List.getD_eq_getElem _ _ hlt]
    exact List.getElem_mem hlt

/-- What LOAD_MCU's body can do: raise BUS_ERR at an address in error, or write the sample blocks. -/
theorem loadMcuBody_cases (s : State) :
    (∃ a ∈ mcuAddrs s, ∃ n, busError s .read a = true ∧ loadMcuBody s = .error (.raise .busErr a (advance n s))) ∨
    (ReadsAnswered s ∧ ∃ px n, loadMcuBody s =
        .ok (advance n { s with blk := storeMcu s.ctrl.mode px s.blk }) ∧ px.length = (mcuPositions s).length ∧
      (ReadsPlain s → px = (mcuPositions s).map (fun p => pixelAt s p.1 p.2) ∧ n = 0)) := by
  unfold loadMcuBody
  cases hf : (mcuAddrs s).filter (fun a => busError s .read a) with
  | cons a rest =>
    obtain ⟨h1, n, h2⟩ := chooseFree_cases a rest s
    rw [← hf] at h1
    obtain ⟨hm, hb⟩ := List.mem_filter.1 h1
    exact .inl ⟨_, hm, n, hb, by simp only [h2]⟩
  | nil =>
    have hans : ReadsAnswered s := fun a ha => by
      by_contra hb
      have : a ∈ (mcuAddrs s).filter (fun a => busError s .read a) :=
        List.mem_filter.2 ⟨ha, by simpa using hb⟩
      rw [hf] at this
      cases this
    rcases readPixels_cases (mcuPositions s) s with ⟨a, ha, n, hb, h⟩ | ⟨_, px, n, h, hl, hp⟩
    · exact absurd hb (by rw [hans a ha]; simp)
    · exact .inr ⟨hans, px, n, by simp only [h]; rfl, hl, hp⟩

theorem loadMcuBody_reaches (hR : EngineRel R) (s : State) : Reaches R s (loadMcuBody s) := by
  rcases loadMcuBody_cases s with ⟨a, _, n, _, h⟩ | ⟨_, px, n, h, _⟩
  · rw [h]; exact hR.draw n s
  · rw [h]; exact hR.trans _ _ _ (hR.blk _ px s) (hR.draw n _)

/-! The sequencer. -/

theorem codeBlock_reaches (hR : EngineRel R) (e : Fin 6 × QSel × Component) (s : State) :
    Reaches R s (codeBlock e s) := by
  have h1 := fdctBody_reaches hR e.1 s
  unfold codeBlock
  cases hx : fdctBody e.1 s with
  | error h => rw [hx] at h1; exact h1
  | ok s1 =>
    rw [hx] at h1
    refine Reaches.seq hR.trans h1 ?_
    have h2 := quantBody_reaches hR e.2.1 s1
    show Reaches R s1 (match quantBody e.2.1 s1 with | .error h => .error h | .ok s2 => _)
    cases hy : quantBody e.2.1 s1 with
    | error h => rw [hy] at h2; exact h2
    | ok s2 =>
      rw [hy] at h2
      refine Reaches.seq hR.trans h2 ?_
      have h3 := zigzagBody_reaches hR s2
      show Reaches R s2 (match zigzagBody s2 with | .error h => .error h | .ok s3 => _)
      cases hz : zigzagBody s2 with
      | error h => rw [hz] at h3; exact h3
      | ok s3 => rw [hz] at h3; exact Reaches.seq hR.trans h3 (encBlockBody_reaches hR _ s3)

theorem codeBlocks_reaches (hR : EngineRel R) (es : List (Fin 6 × QSel × Component)) (s : State) :
    Reaches R s (codeBlocks es s) := by
  induction es generalizing s with
  | nil => exact hR.refl s
  | cons e es ih =>
    have h1 := codeBlock_reaches hR e s
    unfold codeBlocks
    cases hx : codeBlock e s with
    | error h => rw [hx] at h1; exact h1
    | ok t => rw [hx] at h1; exact Reaches.seq hR.trans h1 (ih t)

theorem encMcuBody_reaches (hR : EngineRel R) (s : State) : Reaches R s (encMcuBody s) := by
  have h1 := loadMcuBody_reaches hR s
  unfold encMcuBody
  cases hx : loadMcuBody s with
  | error h => rw [hx] at h1; exact h1
  | ok t => rw [hx] at h1; exact Reaches.seq hR.trans h1 (codeBlocks_reaches hR _ t)

theorem codeMcus_reaches (hR : EngineRel R) (ps : List (Nat × Nat)) (s : State) : Reaches R s (codeMcus ps s) := by
  induction ps generalizing s with
  | nil => exact hR.refl s
  | cons p ps ih =>
    have h0 := hR.pos ⟨BitVec.ofNat 16 p.1, BitVec.ofNat 16 p.2⟩ s
    have h1 := Reaches.seq hR.trans h0 (encMcuBody_reaches hR { s with mcuPos := ⟨BitVec.ofNat 16 p.1, BitVec.ofNat 16 p.2⟩ })
    unfold codeMcus
    cases hx : encMcuBody { s with mcuPos := ⟨BitVec.ofNat 16 p.1, BitVec.ofNat 16 p.2⟩ } with
    | error h => rw [hx] at h1; exact h1
    | ok t => rw [hx] at h1; exact Reaches.seq hR.trans h1 (ih t)

theorem dcResetBody_eq (s : State) : dcResetBody s = setPred .cr 0#16 (setPred .cb 0#16 (setPred .y 0#16 s)) := rfl

theorem dcResetBody_rel (hR : EngineRel R) (s : State) : R s (dcResetBody s) := by
  rw [dcResetBody_eq]
  exact hR.trans _ _ _ (hR.pred _ _ _) (hR.trans _ _ _ (hR.pred _ _ _) (hR.pred _ _ _))

theorem encScanBody_reaches (hR : EngineRel R) (s : State) : Reaches R s (encScanBody s) := by
  have h1 := Reaches.seq hR.trans (dcResetBody_rel hR s) (codeMcus_reaches hR (scanOrder s) (dcResetBody s))
  unfold encScanBody
  cases hx : codeMcus (scanOrder s) (dcResetBody s) with
  | error h => rw [hx] at h1; exact h1
  | ok t =>
    rw [hx] at h1
    refine Reaches.seq hR.trans h1 ?_
    show Reaches R t (if _ then _ else _)
    split
    · exact hR.refl t
    · exact flushBody_reaches hR t

/-- A run in which source bytes read as any value, however it ends, is one that wrote exactly those bytes; every
other run is the body as it stands. -/
theorem overlapped_cases (body : State → Except Halt State) (n : Nat) (s : State) :
    overlapped body n s = body s ∨
    ((reached (overlapped body n s)).dstPtr.toNat = s.dstPtr.toNat + n ∧
      overlapped body n s =
        body { s with racySrc := ⟨s.dstPtr.toNat, s.dstPtr.toNat + n⟩ :: s.racySrc }) := by
  simp only [overlapped]
  split
  · next h => exact .inr ⟨h, rfl⟩
  · exact .inl rfl

/-- A body with the overlap rule is the body itself, from a state that differs only in free values taken and in
the source ranges that race. -/
theorem withOverlap_cases (body : State → Except Halt State) (s : State) :
    ∃ n rs, withOverlap body s = body (advance n { s with racySrc := rs }) := by
  simp only [withOverlap]
  split
  · rcases overlapped_cases body ((freeNow (advance (reached (body s)).draws s)).toNat % (roomLeft s + 1))
      (advance 1 (advance (reached (body s)).draws s)) with h | ⟨-, h⟩
    · exact ⟨(reached (body s)).draws + 1, s.racySrc, by rw [h]; rfl⟩
    · exact ⟨(reached (body s)).draws + 1, _, by rw [h]; rfl⟩
  · exact ⟨0, s.racySrc, rfl⟩

/-- Where the body's output does not meet its source, the overlap rule changes nothing. -/
theorem withOverlap_of_not (body : State → Except Halt State) (s : State) (h : overlaps s (reached (body s)) = false) :
    withOverlap body s = body s := by simp [withOverlap, h]

/-! The two main relations. -/

/-- Everything a body changes is named by EngineFrame. -/
theorem engineFrame_rel : EngineRel EngineFrame where
  refl := EngineFrame.refl
  trans _ _ _ := EngineFrame.trans
  draw n s := ⟨rfl, le_rfl, Nat.le_add_right _ _, fun _ _ => rfl⟩
  put v n s := Reaches.mono (putBits_frame v n s) fun _ => StreamFrame.engine
  count _ _ _ _ _ := ⟨rfl, le_rfl, le_rfl, fun _ _ => rfl⟩
  pred c p s := by cases c <;> exact ⟨rfl, le_rfl, le_rfl, fun _ _ => rfl⟩
  blk _ _ _ := ⟨rfl, le_rfl, le_rfl, fun _ _ => rfl⟩
  coef _ _ _ := ⟨rfl, le_rfl, le_rfl, fun _ _ => rfl⟩
  qcoef _ _ _ := ⟨rfl, le_rfl, le_rfl, fun _ _ => rfl⟩
  zzbuf _ _ _ := ⟨rfl, le_rfl, le_rfl, fun _ _ => rfl⟩
  pos _ _ := ⟨rfl, le_rfl, le_rfl, fun _ _ => rfl⟩

theorem tabGet_lt_of_wf {α : Type} (size : Nat) (st : Store α) (k : Nat) (v : α) (h : tabWf size st)
    (hk : tabGet st k = some v) : k < size := by
  refine h.2 k ?_
  clear h
  induction st with
  | nil => simp at hk
  | cons c rest ih =>
    obtain ⟨j, w⟩ := c
    unfold tabGet at hk
    split at hk
    · next he => simp [he]
    · simpa using .inr (by simpa using ih hk)

theorem tabWf_storeMcu (m : BitVec 2) (px : List (Byte × Byte × Byte)) (blk : Store Byte) (h : tabWf 384 blk) :
    tabWf 384 (storeMcu m px blk) := by
  unfold storeMcu
  simp only []
  split
  · exact tabWf_tabSetRun _ _ _ _ (by simp [chroma420]) (tabWf_tabSetRun _ _ _ _ (by simp [chroma420])
      (tabWf_tabSetRun _ _ _ _ (by simp [lumaBlock]) (tabWf_tabSetRun _ _ _ _ (by simp [lumaBlock])
        (tabWf_tabSetRun _ _ _ _ (by simp [lumaBlock]) (tabWf_tabSetRun _ _ _ _ (by simp [lumaBlock]) h)))))
  · split
    · exact tabWf_tabSetRun _ _ _ _ (by simp [lumaBlock]) (tabWf_tabSetRun _ _ _ _ (by simp [lumaBlock])
        (tabWf_tabSetRun _ _ _ _ (by simp [lumaBlock]) h))
    · exact tabWf_tabSetRun _ _ _ _ (by simp [lumaBlock]) h

/-- Every body keeps storage canonical. -/
theorem storage_rel : EngineRel (fun s t => StorageInv s → StorageInv t) where
  refl _ := id
  trans _ _ _ f g x := g (f x)
  draw _ _ := id
  put := putBits_storage
  count k c v s hk := fun ⟨h1, h2, h3, h4, hr⟩ =>
    ⟨h1, h2, h3, tabWf_tabSet _ _ _ _ (tabGet_lt_of_wf _ _ _ _ h4 hk) h4, hr⟩
  pred c p s := by cases c <;> exact id
  blk m px s := fun ⟨h1, h2, h3, h4, h5, hr⟩ => ⟨h1, h2, h3, h4, tabWf_storeMcu m px _ h5, hr⟩
  coef vs s hl := fun ⟨h1, h2, h3, h4, h5, _, hr⟩ => ⟨h1, h2, h3, h4, h5, tabWf_tabOf _ _ hl, hr⟩
  qcoef vs s hl := fun ⟨h1, h2, h3, h4, h5, h6, _, hr⟩ => ⟨h1, h2, h3, h4, h5, h6, tabWf_tabOf _ _ hl, hr⟩
  zzbuf vs s hl := fun ⟨h1, h2, h3, h4, h5, h6, h7, _, hr⟩ => ⟨h1, h2, h3, h4, h5, h6, h7, tabWf_tabOf _ _ hl, hr⟩
  pos _ _ := id

end Sys2Proof.Machine
end

