-- ==== Sys2Proof/Laws/Outcome.lean ====
section
/-! SUPPORT. What exec can do, said once: complete, enter the fault state, or meet an unwritten entry. -/

namespace Sys2Proof.Machine

open Sys2Proof.Safety

/-! Any value in what a faulted command writes. -/

/-- What the free values after a fault can change: nothing of memory or DSTPTR. -/
def FreeFrame (s t : State) : Prop :=
  t = { s with
    mcuPos := t.mcuPos, dcPred0 := t.dcPred0, dcPred1 := t.dcPred1, dcPred2 := t.dcPred2, pack := t.pack
    freq := t.freq, blk := t.blk, coef := t.coef, qcoef := t.qcoef, zzbuf := t.zzbuf, draws := t.draws } ∧
  s.draws ≤ t.draws

theorem FreeFrame.refl (s : State) : FreeFrame s s := ⟨rfl, le_rfl⟩

theorem FreeFrame.trans {a b c : State} (h1 : FreeFrame a b) (h2 : FreeFrame b c) : FreeFrame a c := by
  obtain ⟨e1, d1⟩ := h1
  obtain ⟨e2, d2⟩ := h2
  exact ⟨by rw [e2, e1], d1.trans d2⟩

theorem FreeFrame.engine {s t : State} (h : FreeFrame s t) : EngineFrame s t := by
  obtain ⟨e, d⟩ := h
  refine ⟨?_, ?_, d, fun x _ => ?_⟩ <;> rw [e]

theorem foldl_rel {β : Type} {R : State → State → Prop} (refl : ∀ s, R s s) (trans : ∀ a b c, R a b → R b c → R a c)
    (f : State → β → State) (l : List β) (h : ∀ s, ∀ b ∈ l, R s (f s b)) (s : State) : R s (l.foldl f s) := by
  induction l generalizing s with
  | nil => exact refl s
  | cons b l ih =>
    exact trans _ _ _ (h s b (by simp)) (ih (fun s x hx => h s x (by simp [hx])) _)

/-- A relation that composes and holds of each freed part holds of all that a footprint frees. -/
theorem free_rel {R : State → State → Prop} (fp : Footprint) (refl : ∀ s, R s s)
    (trans : ∀ a b c, R a b → R b c → R a c) (hb : ∀ s, ∀ b ∈ fp.blks, R s (freeBlk s b))
    (hf : ∀ s, ∀ t ∈ fp.freqs, R s (freeFreq s t)) (hc : ∀ s, R s (freeCoef s)) (hq : ∀ s, R s (freeQcoef s))
    (hz : ∀ s, R s (freeZzbuf s)) (hp : ∀ s c, R s (freePred s c)) (hk : ∀ s, R s (freePack s))
    (hm : ∀ s, R s (freeMcuPos s)) (s : State) : R s (freeRegisters fp (freeTables fp s)) := by
  have opt : ∀ (b : Bool) (f : State → State), (∀ s, R s (f s)) → ∀ s, R s (if b then f s else s) := by
    intro b f h s
    cases b
    · exact refl s
    · exact h s
  have tables : R s (freeTables fp s) := by
    have h1 : R s (fp.blks.foldl freeBlk s) := foldl_rel refl trans _ _ hb s
    have h2 : R s (fp.freqs.foldl freeFreq (fp.blks.foldl freeBlk s)) := trans _ _ _ h1 (foldl_rel refl trans _ _ hf _)
    have h3 := trans _ _ _ h2 (opt fp.coef _ hc _)
    have h4 := trans _ _ _ h3 (opt fp.qcoef _ hq _)
    exact trans _ _ _ h4 (opt fp.zzbuf _ hz _)
  have h1 : R s (fp.preds.foldl freePred (freeTables fp s)) :=
    trans _ _ _ tables (foldl_rel refl trans _ _ (fun s c _ => hp s c) _)
  have h2 := trans _ _ _ h1 (opt fp.pack _ hk _)
  exact trans _ _ _ h2 (opt fp.mcuPos _ hm _)

/-- The free values after a fault change nothing of memory or DSTPTR, and nothing outside what commands write. -/
theorem free_frame (fp : Footprint) (s : State) : FreeFrame s (freeRegisters fp (freeTables fp s)) := by
  refine free_rel (R := FreeFrame) fp FreeFrame.refl (fun _ _ _ => FreeFrame.trans) ?_ ?_ ?_ ?_ ?_ ?_ ?_ ?_ s
  · exact fun s b _ => ⟨by simp only [freeBlk, advance], by simp only [freeBlk, advance]; omega⟩
  · exact fun s t _ => ⟨by simp only [freeFreq, advance], by simp only [freeFreq, advance]; omega⟩
  · exact fun s => ⟨by simp only [freeCoef, advance], by simp only [freeCoef, advance]; omega⟩
  · exact fun s => ⟨by simp only [freeQcoef, advance], by simp only [freeQcoef, advance]; omega⟩
  · exact fun s => ⟨by simp only [freeZzbuf, advance], by simp only [freeZzbuf, advance]; omega⟩
  · exact fun s c => by
      cases c <;> exact ⟨by simp only [freePred, setPred, advance], by simp only [freePred, setPred, advance]; omega⟩
  · exact fun s => ⟨by simp only [freePack, advance], by simp only [freePack, advance]; omega⟩
  · exact fun s => ⟨by simp only [freeMcuPos, advance], by simp only [freeMcuPos, advance]; omega⟩

/-- A footprint within the block: sample blocks 0..5 and counter tables 0..3. -/
def FootprintOk (fp : Footprint) : Prop := (∀ b ∈ fp.blks, b < 6) ∧ ∀ t ∈ fp.freqs, t < 4

theorem freeTables_storage_step (s : State) :
    (∀ b < 6, StorageInv s → StorageInv (freeBlk s b)) ∧ (∀ t < 4, StorageInv s → StorageInv (freeFreq s t)) ∧
    (StorageInv s → StorageInv (freeCoef s)) ∧ (StorageInv s → StorageInv (freeQcoef s)) ∧
    (StorageInv s → StorageInv (freeZzbuf s)) ∧ (∀ c, StorageInv s → StorageInv (freePred s c)) ∧
    (StorageInv s → StorageInv (freePack s)) ∧ (StorageInv s → StorageInv (freeMcuPos s)) := by
  unfold StorageInv
  refine ⟨fun b hb h => ?_, fun t ht h => ?_, fun h => ?_, fun h => ?_, fun h => ?_, fun c h => ?_, fun h => ?_, fun h => ?_⟩
  · simp only [freeBlk, advance]
    exact ⟨h.1, h.2.1, h.2.2.1, h.2.2.2.1, tabWf_fillFree _ _ _ _ _ _ (by omega) h.2.2.2.2.1, h.2.2.2.2.2⟩
  · simp only [freeFreq, advance]
    exact ⟨h.1, h.2.1, h.2.2.1, tabWf_fillFree _ _ _ _ _ _ (by omega) h.2.2.2.1, h.2.2.2.2⟩
  · obtain ⟨h1, h2, h3, h4, h5, h6, hr⟩ := h
    simp only [freeCoef, advance]
    exact ⟨h1, h2, h3, h4, h5, tabWf_fillFree _ _ _ _ _ _ (by omega) h6, hr⟩
  · obtain ⟨h1, h2, h3, h4, h5, h6, h7, hr⟩ := h
    simp only [freeQcoef, advance]
    exact ⟨h1, h2, h3, h4, h5, h6, tabWf_fillFree _ _ _ _ _ _ (by omega) h7, hr⟩
  · obtain ⟨h1, h2, h3, h4, h5, h6, h7, h8, hr⟩ := h
    simp only [freeZzbuf, advance]
    exact ⟨h1, h2, h3, h4, h5, h6, h7, tabWf_fillFree _ _ _ _ _ _ (by omega) h8, hr⟩
  · cases c <;> exact h
  · obtain ⟨h1, h2, h3, h4, h5, h6, h7, h8, _⟩ := h
    simp only [freePack, advance]
    exact ⟨h1, h2, h3, h4, h5, h6, h7, h8, packOfWord_inv _⟩
  · exact h

theorem freeTables_storage (fp : Footprint) (hfp : FootprintOk fp) (s : State) :
    StorageInv s → StorageInv (freeRegisters fp (freeTables fp s)) := by
  have h := freeTables_storage_step
  exact free_rel (R := fun s t => StorageInv s → StorageInv t) fp (fun _ => id) (fun _ _ _ f g x => g (f x))
    (fun s b hb => (h s).1 b (hfp.1 b hb)) (fun s t ht => (h s).2.1 t (hfp.2 t ht)) (fun s => (h s).2.2.1)
    (fun s => (h s).2.2.2.1) (fun s => (h s).2.2.2.2.1) (fun s c => (h s).2.2.2.2.2.1 c)
    (fun s => (h s).2.2.2.2.2.2.1) (fun s => (h s).2.2.2.2.2.2.2) s

theorem table_lt (c : Component) : dcTable c < 4 ∧ acTable c < 4 := by cases c <;> decide

theorem codingFootprint_ok (stats : Bool) (cs : List Component) (blks : List Nat) (fp : Footprint)
    (h : fp = { codingFootprint stats cs with blks := blks, coef := fp.coef, qcoef := fp.qcoef, zzbuf := fp.zzbuf,
                                               preds := fp.preds, mcuPos := fp.mcuPos }) (hb : ∀ b ∈ blks, b < 6) :
    FootprintOk fp := by
  rw [h]
  refine ⟨hb, fun t ht => ?_⟩
  cases stats
  · simp [codingFootprint] at ht
  · simp only [codingFootprint, if_true, List.mem_flatMap] at ht
    obtain ⟨c, _, hc⟩ := ht
    have := table_lt c
    simp only [List.mem_cons, List.not_mem_nil, or_false] at hc
    rcases hc with rfl | rfl
    · exact this.1
    · exact this.2

theorem blockOrder_lt (c : Ctrl) : ∀ b ∈ (blockOrder c).map (fun e => e.1.val), b < 6 := by
  intro b hb
  obtain ⟨e, _, rfl⟩ := List.mem_map.1 hb
  exact e.1.isLt

theorem footprint_ok (c : Ctrl) (i : Instr) : FootprintOk (footprint c i) := by
  have none_ok : FootprintOk Footprint.none := ⟨by simp [Footprint.none], by simp [Footprint.none]⟩
  cases i with
  | nop => exact none_ok
  | dcReset => exact none_ok
  | freqClear =>
    refine ⟨none_ok.1, fun t ht => ?_⟩
    have : t ∈ [0, 1, 2, 3] := ht
    simp only [List.mem_cons, List.not_mem_nil, or_false] at this
    omega
  | loadMcu => exact ⟨blockOrder_lt c, none_ok.2⟩
  | fdct b => exact none_ok
  | quant t => exact none_ok
  | zigzag => exact none_ok
  | encBlock k => exact codingFootprint_ok c.stats [k] [] _ rfl (by simp)
  | putbits v n => exact none_ok
  | flush => exact none_ok
  | encMcu => exact codingFootprint_ok c.stats _ _ _ rfl (blockOrder_lt c)
  | encScan => exact codingFootprint_ok c.stats _ _ _ rfl (blockOrder_lt c)

/-! The outcomes. -/

/-- The footprint a fault of the command leaves free: none for QUANT (60_exceptions.md R253(a)). -/
def faultFootprint (c : Ctrl) : Instr → Footprint
  | .quant _ => Footprint.none
  | i => footprint c i

/-- exec in one form for all commands: the configuration check, if the command has one, and then finish of its
body. -/
theorem exec_eq (i : Instr) (s : State) :
    exec i s = match checkOf i s with
      | some sub => .next (enterFault .config sub s)
      | none => finish (faultFootprint s.ctrl i) (bodyOf i s) := by
  cases i <;> rfl

/-- A relation every body reaches is reached by the body of each command, up to free values taken before it and the
source ranges that race. -/
theorem bodyOf_reaches {R : State → State → Prop} (hR : EngineRel R)
    (hclear : ∀ s, R s (freqClearBody s)) (i : Instr) (s : State) :
    ∃ n rs, Reaches R (advance n { s with racySrc := rs }) (bodyOf i s) := by
  have same : Reaches R s (bodyOf i s) → ∃ n rs, Reaches R (advance n { s with racySrc := rs }) (bodyOf i s) :=
    fun h => ⟨0, s.racySrc, h⟩
  have overlap : ∀ body : State → Except Halt State, (∀ u, Reaches R u (body u)) → bodyOf i s = withOverlap body s →
      ∃ n rs, Reaches R (advance n { s with racySrc := rs }) (bodyOf i s) := fun body h e => by
    obtain ⟨n, rs, h'⟩ := withOverlap_cases body s
    exact ⟨n, rs, by rw [e, h']; exact h _⟩
  cases i with
  | nop => exact same (hR.refl s)
  | dcReset => exact same (dcResetBody_rel hR s)
  | freqClear => exact same (hclear s)
  | loadMcu => exact same (loadMcuBody_reaches hR s)
  | fdct b => exact same (fdctBody_reaches hR b s)
  | quant t => exact same (quantBody_reaches hR t s)
  | zigzag => exact same (zigzagBody_reaches hR s)
  | encBlock c => exact same (encBlockBody_reaches hR c s)
  | putbits v n => exact same (hR.put _ _ s)
  | flush => exact same (flushBody_reaches hR s)
  | encMcu => exact overlap _ (encMcuBody_reaches hR) rfl
  | encScan => exact overlap _ (encScanBody_reaches hR) rfl

/-- The same of runOf, which adds the configuration check. -/
theorem runOf_reaches {R : State → State → Prop} (hR : EngineRel R)
    (hclear : ∀ s, R s (freqClearBody s)) (i : Instr) (s : State) :
    ∃ n rs, Reaches R (advance n { s with racySrc := rs }) (runOf i s) := by
  unfold runOf
  cases checkOf i s with
  | none => exact bodyOf_reaches hR hclear i s
  | some sub => exact ⟨0, s.racySrc, hR.refl s⟩

/-- exec is finish of runOf, but for a failed configuration check, which frees nothing. -/
theorem exec_eq_finish (i : Instr) (s : State) (h : checkOf i s = none) :
    exec i s = finish (faultFootprint s.ctrl i) (runOf i s) := by rw [exec_eq, runOf, h]

theorem freqClearBody_engine (s : State) : EngineFrame s (freqClearBody s) := ⟨rfl, le_rfl, le_rfl, fun _ _ => rfl⟩

theorem freqClearBody_storage (s : State) : StorageInv s → StorageInv (freqClearBody s) := fun ⟨h1, h2, h3, _, hr⟩ =>
  ⟨h1, h2, h3, tabWf_tabOf _ _ (le_of_eq List.length_replicate), hr⟩

/-- How an outcome of finish comes about. -/
theorem finish_cases (fp : Footprint) (x : Except Halt State) (t : State) (h : finish fp x = .next t) :
    (∃ u, x = .ok u ∧ t = complete u) ∨
    (∃ code info u, x = .error (.raise code info u) ∧
      t = enterFault code info (freeRegisters fp (freeTables fp u))) := by
  rcases x with (⟨code, info, u⟩ | ⟨r, i, u⟩) | u
  · exact .inr ⟨code, info, u, rfl, by simpa [finish] using h.symm⟩
  · simp [finish] at h
  · exact .inl ⟨u, rfl, by simpa [finish] using h.symm⟩

theorem EngineFrame.of_racy {s u : State} {n : Nat} {rs : List AddrRange}
    (h : EngineFrame (advance n { s with racySrc := rs }) u) : EngineFrame s { u with racySrc := s.racySrc } := by
  simp only [EngineFrame, advance] at h ⊢
  obtain ⟨e, p, d, m⟩ := h
  refine ⟨?_, p, by omega, m⟩
  conv_lhs => rw [e]

/-- What exec can do when it answers a next state: a CONFIG fault that changes nothing else; a completion after a
body that changed only what EngineFrame names; or a fault after such a body. -/
theorem exec_next_cases (i : Instr) (s t : State) (h : exec i s = .next t) :
    (∃ sub, checkOf i s = some sub ∧ t = enterFault .config sub s) ∨
    (∃ u, EngineFrame s u ∧ t = complete u) ∨
    (∃ code info u, EngineFrame s u ∧ t = enterFault code info u) := by
  rw [exec_eq] at h
  cases hc : checkOf i s with
  | some sub => rw [hc] at h; exact .inl ⟨sub, rfl, by simpa using h.symm⟩
  | none =>
    rw [hc] at h
    right
    obtain ⟨n, rs, hreach⟩ := bodyOf_reaches engineFrame_rel freqClearBody_engine i s
    rcases finish_cases _ _ _ h with ⟨u, hx, rfl⟩ | ⟨code, info, u, hx, rfl⟩ <;> rw [hx] at hreach
    · exact .inl ⟨_, EngineFrame.of_racy hreach, rfl⟩
    · exact .inr ⟨code, info, _, EngineFrame.of_racy
        (EngineFrame.trans hreach (free_frame (faultFootprint s.ctrl i) u).engine), rfl⟩

theorem faultFootprint_ok (c : Ctrl) (i : Instr) : FootprintOk (faultFootprint c i) := by
  have h := footprint_ok c i
  cases i <;> exact h

/-- exec keeps storage canonical. -/
theorem exec_storage (i : Instr) (s t : State) (h : exec i s = .next t) (hi : StorageInv s) : StorageInv t := by
  rw [exec_eq] at h
  cases hc : checkOf i s with
  | some sub => rw [hc] at h; cases h; exact hi
  | none =>
    rw [hc] at h
    obtain ⟨n, rs, hreach⟩ := bodyOf_reaches storage_rel freqClearBody_storage i s
    rcases finish_cases _ _ _ h with ⟨u, hx, rfl⟩ | ⟨code, info, u, hx, rfl⟩ <;> rw [hx] at hreach
    · exact hreach hi
    · exact freeTables_storage _ (faultFootprint_ok s.ctrl i) u (hreach hi)

end Sys2Proof.Machine
end

