-- ==== Sys2Proof/Laws/PerInstr.lean ====
section
/-! SUPPORT. A statement about every command as syntax: the encoder's word matches the command's row of
spec/opcode_table.json (30_encoding.md R105), one lemma per constructor. -/

namespace Sys2Proof.Laws

/-- The mask of the command's row. -/
def TableRow.mask : Instr → Word
  | .nop => 0xFFFFFFFF#32
  | .dcReset => 0xFFFFFFFF#32
  | .freqClear => 0xFFFFFFFF#32
  | .loadMcu => 0xFFFFFFFF#32
  | .fdct _ => 0xFFFFF8FF#32
  | .quant _ => 0xFFFFFEFF#32
  | .zigzag => 0xFFFFFFFF#32
  | .encBlock _ => 0xFFFFFCFF#32
  | .putbits _ _ => 0x0000E0FF#32
  | .flush => 0xFFFFFFFF#32
  | .encMcu => 0xFFFFFFFF#32
  | .encScan => 0xFFFFFFFF#32

/-- The match of the command's row. -/
def TableRow.pattern : Instr → Word
  | .nop => 0x00000000#32
  | .dcReset => 0x00000001#32
  | .freqClear => 0x00000002#32
  | .loadMcu => 0x00000010#32
  | .fdct _ => 0x00000020#32
  | .quant _ => 0x00000021#32
  | .zigzag => 0x00000022#32
  | .encBlock _ => 0x00000030#32
  | .putbits _ _ => 0x00000031#32
  | .flush => 0x00000032#32
  | .encMcu => 0x00000040#32
  | .encScan => 0x00000041#32

/-- The encoder's word matches the row: word AND mask = match. -/
def TableRow.Statement (i : Instr) : Prop := encode i &&& TableRow.mask i = TableRow.pattern i

theorem TableRow.nop : TableRow.Statement .nop := by unfold TableRow.Statement; decide
theorem TableRow.dcReset : TableRow.Statement .dcReset := by unfold TableRow.Statement; decide
theorem TableRow.freqClear : TableRow.Statement .freqClear := by unfold TableRow.Statement; decide
theorem TableRow.loadMcu : TableRow.Statement .loadMcu := by unfold TableRow.Statement; decide
theorem TableRow.fdct (b : Fin 6) : TableRow.Statement (.fdct b) := by
  unfold TableRow.Statement; revert b; decide
theorem TableRow.quant (t : QSel) : TableRow.Statement (.quant t) := by
  unfold TableRow.Statement; cases t <;> decide
theorem TableRow.zigzag : TableRow.Statement .zigzag := by unfold TableRow.Statement; decide
theorem TableRow.encBlock (c : Component) : TableRow.Statement (.encBlock c) := by
  unfold TableRow.Statement; cases c <;> decide
theorem TableRow.putbits (v : Half) (n : BitVec 5) : TableRow.Statement (.putbits v n) := by
  unfold TableRow.Statement
  have hv : v.toNat % 2 ^ n.toNat < 2 ^ 16 := lt_of_le_of_lt (Nat.mod_le _ _) v.isLt
  have hn := n.isLt
  simp only [encode, TableRow.mask, TableRow.pattern]
  generalize v.toNat % 2 ^ n.toNat = x at *
  refine BitVec.eq_of_getLsbD_eq fun i hi => ?_
  rw [BitVec.getLsbD_and, BitVec.getLsbD_ofNat, Nat.testBit_eq_decide_div_mod_eq]
  interval_cases i <;> simp <;> omega
theorem TableRow.flush : TableRow.Statement .flush := by unfold TableRow.Statement; decide
theorem TableRow.encMcu : TableRow.Statement .encMcu := by unfold TableRow.Statement; decide
theorem TableRow.encScan : TableRow.Statement .encScan := by unfold TableRow.Statement; decide

end Sys2Proof.Laws
end

