-- ==== Sys2Proof/Laws/Port.lean ====
section
/-! SUPPORT. What the operations of the register port and of the resets can do, said once. -/

namespace Sys2Proof.Machine

theorem running_idle (s : State) (h : s.status.busy = false) : running s = none := by simp [running, h]

theorem runningFootprint_idle (s : State) (h : s.status.busy = false) : runningFootprint s = Footprint.none := by
  simp [runningFootprint, running_idle s h]

theorem covers_none (tgt : Target) : covers Footprint.none tgt = false := by
  rcases tgt with r | k | k | k | k | k | k | k <;> first | rfl | (cases r <;> rfl)

theorem abortRunning_idle (s : State) (h : s.status.busy = false) : abortRunning s = s := by
  simp [abortRunning, running_idle s h]

/-- copyBytes takes n bytes from its source and keeps every other byte. -/
theorem read_copyBytes (src : List Host.Cell) (n : Nat) (a : Word) (m : List Host.Cell) (x : Nat)
    (h : a.toNat + n ≤ 2 ^ 32) :
    Memory.read (copyBytes src a n m) x =
      if a.toNat ≤ x ∧ x < a.toNat + n then Memory.read src x else Memory.read m x := by
  induction n generalizing a m with
  | zero => rw [copyBytes, if_neg (by omega)]
  | succ n ih =>
    rw [copyBytes]
    by_cases hn : n = 0
    · subst hn
      rw [copyBytes]
      by_cases hx : x = a.toNat
      · subst hx
        rw [Memory.read_write_same, if_pos (by omega)]
      · rw [Memory.read_write_ne _ _ _ _ hx, if_neg (by omega)]
    · have ha : (a + 1#32).toNat = a.toNat + 1 := by
        rw [BitVec.toNat_add]
        simp
        omega
      rw [ih (a + 1#32) _ (by omega), ha]
      by_cases hx : x = a.toNat
      · subst hx
        rw [if_neg (by omega), Memory.read_write_same, if_pos (by omega)]
      · rw [Memory.read_write_ne _ _ _ _ hx]
        by_cases hy : a.toNat + 1 ≤ x ∧ x < a.toNat + 1 + n
        · rw [if_pos hy, if_pos (by omega)]
        · rw [if_neg hy, if_neg (by omega)]

/-- More bits of any value change the stream alone. -/
theorem emitAny_reaches {R : State → State → Prop} (hR : EngineRel R) (n : Nat) (s : State) : R s (emitAny n s) := by
  induction n generalizing s with
  | zero => exact hR.refl s
  | succ n ih =>
    have h0 := hR.draw 1 s
    have h1 := hR.put ((freeNow s).toNat % 256) 8 (advance 1 s)
    unfold emitAny
    split <;> next hx => rw [hx] at h1; first | exact hR.trans _ _ _ h0 (hR.trans _ _ _ h1 (ih _)) | exact hR.trans _ _ _ h0 h1

/-- The state that shows a command's bytes is reached by the engine's own updates. -/
theorem outputOf_reaches {R : State → State → Prop} (hR : EngineRel R) (hclear : ∀ s, R s (freqClearBody s))
    (i : Instr) (s : State) : ∃ n rs, R (advance n { s with racySrc := rs }) (outputOf i s) := by
  obtain ⟨n, rs, h⟩ := runOf_reaches hR hclear i s
  refine ⟨n, rs, ?_⟩
  unfold outputOf
  split <;> next hx =>
    rw [hx] at h
    first | exact h | exact hR.trans _ _ _ h (hR.trans _ _ _ (hR.draw 1 _) (emitAny_reaches hR _ _))

/-- An illegal word, and a command that writes no bytes, shows no bytes to come. -/
theorem runningOutput_none (s : State) (h : (runningFootprint s).stream = false) : runningOutput s = none := by
  unfold runningFootprint at h
  unfold runningOutput
  cases hr : running s with
  | none => rfl
  | some i => rw [hr] at h; simp [h]

/-- The resets keep everything but the registers, the races, and what a running command leaves open. -/
theorem softReset_idle (s : State) (h : s.status.busy = false) :
    softReset s = { resetRegisters s with resp := .done } := by rw [softReset, abortRunning_idle s h]

theorem hardReset_idle (s : State) (h : s.status.busy = false) :
    hardReset s = forgetTables (resetRegisters s) := by rw [hardReset, abortRunning_idle s h]

end Sys2Proof.Machine
end

