-- ==== Sys2Proof/Tests/Slice0.lean ====
section
/-! SUPPORT. The model's own tests: ill-formed terms the checks refuse, one hand-written word for every command,
small single-step tests from 95_test_vectors.md, and for every statement with hypotheses a state that meets them. -/

namespace Sys2Proof.Tests

open Sys2Proof.Machine Sys2Proof.Safety

/-! Well-formedness: one ill-formed term for each check (30_encoding.md R103, R106). -/

theorem test_wf_refuses_count_zero : Instr.wf (.putbits 0#16 0#5) = false := by decide
theorem test_wf_refuses_count_17 : Instr.wf (.putbits 0#16 17#5) = false := by decide
theorem test_wf_refuses_wide_pattern : Instr.wf (.putbits 8#16 3#5) = false := by decide
theorem test_wf_accepts_putbits : Instr.wf (.putbits 7#16 3#5) = true ∧ Instr.wf (.putbits 0xFFFF#16 16#5) = true := by
  decide

/-! Decoding: the word of every command, written bit by bit from its format (30_encoding.md R102, R105):
operand fields to the left, the opcode in the last eight bits. -/

theorem test_decode_nop : decode 0b000000000000000000000000_00000000#32 = .ok .nop := by decide
theorem test_decode_dc_reset : decode 0b000000000000000000000000_00000001#32 = .ok .dcReset := by decide
theorem test_decode_freq_clear : decode 0b000000000000000000000000_00000010#32 = .ok .freqClear := by decide
theorem test_decode_load_mcu : decode 0b000000000000000000000000_00010000#32 = .ok .loadMcu := by decide
theorem test_decode_fdct : decode 0b000000000000000000000_101_00100000#32 = .ok (.fdct 5) := by decide
theorem test_decode_quant : decode 0b00000000000000000000000_1_00100001#32 = .ok (.quant .chroma) := by decide
theorem test_decode_zigzag : decode 0b000000000000000000000000_00100010#32 = .ok .zigzag := by decide
theorem test_decode_enc_block : decode 0b0000000000000000000000_01_00110000#32 = .ok (.encBlock .cb) := by decide
theorem test_decode_putbits :
    decode 0b1111111111111101_000_00011_00110001#32 = .ok (.putbits 5#16 3#5) := by decide
theorem test_decode_flush : decode 0b000000000000000000000000_00110010#32 = .ok .flush := by decide
theorem test_decode_enc_mcu : decode 0b000000000000000000000000_01000000#32 = .ok .encMcu := by decide
theorem test_decode_enc_scan : decode 0b000000000000000000000000_01000001#32 = .ok .encScan := by decide

/-- The illegal words of 95_test_vectors.md section 6, each refused by its reason. -/
theorem test_decode_illegal :
    decode 0x00000620#32 = .error .block ∧ decode 0x00000321#32 = .error .reserved ∧
    decode 0x00000330#32 = .error .component ∧ decode 0x00000031#32 = .error .count ∧
    decode 0x00001131#32 = .error .count ∧ decode 0x00002831#32 = .error .reserved ∧
    decode 0x00000141#32 = .error .reserved ∧ decode 0x00000003#32 = .error .opcode ∧
    decode 0xFFFFFFFF#32 = .error .opcode ∧ decodeBytes [0x20#8, 0x03#8, 0x00#8] = .error .length := by decide

/-- FDCT 3 as the bytes of its word (30_encoding.md R107). -/
theorem test_decode_bytes : decodeBytes [0x20#8, 0x03#8, 0x00#8, 0x00#8] = .ok (.fdct 3) := by decide

/-- The encodings of 30_encoding.md R107 and R108. -/
theorem test_encode :
    encode (.fdct 3) = 0x00000320#32 ∧ encode (.quant .chroma) = 0x00000121#32 ∧
    encode (.encBlock .cr) = 0x00000230#32 ∧ encode (.putbits 5#16 3#5) = 0x00050331#32 ∧
    encode (.putbits 1#16 16#5) = 0x00011031#32 := by decide

theorem test_table_word : decodeTableWord 32 0x00000230 = some (.encBlock .cr) ∧
    decodeTableWord 32 0x00000330 = none := by decide

/-! Small states. -/

/-- A state in which the word w has been accepted and the engine is next. -/
def accepted (w : Word) (s : State) : State :=
  { s with lastCmd := w, status := ⟨true, false, false, false, 0#8⟩ }

/-- A state with these events to come. -/
def withInputs (es : List Event) (s : State) : State := { s with inputs := es }

/-- Whether a step answers a next state with a property. -/
def gives (x : Host.Outcome State Fault Refusal) (p : State → Bool) : Bool :=
  match x with
  | .next t => p t
  | .fault _ => false
  | .refused _ => false

/-- Whether a step stops in this model fault. -/
def stops (x : Host.Outcome State Fault Refusal) (f : Fault) : Bool :=
  match x with
  | .next _ => false
  | .fault g => g == f
  | .refused _ => false

/-- Whether a state is the fault state with this code and ERRINFO. -/
def faulted (code : Byte) (info : Word) (t : State) : Bool :=
  t.status.fault && !t.status.busy && t.status.errCode == code && t.errInfo == info && t.irqStat.fault

/-- n entries of one value from index 0. -/
def fill {α : Type} (n : Nat) (v : α) : Store α := tabOf 0 (List.replicate n v)

/-- A 64-entry buffer, 0 except for the listed entries. -/
def buffer (l : List (Nat × Int)) : Store Half :=
  l.foldl (fun st p => tabSet st p.1 (BitVec.ofInt 16 p.2)) (fill 64 0#16)

/-- Output from 0x100 on, n bytes of room. -/
def output (n : Nat) : State := { State.reset with dstPtr := 0x100#32, dstLim := BitVec.ofNat 32 (0x100 + n) }

/-- Huffman tables in which every symbol has the code 0 of one bit, but for the listed ones. -/
def codes (l : List (Nat × HuffEntry)) : Store HuffEntry :=
  l.foldl (fun st p => tabSet st p.1 p.2) (fill 1024 ⟨0#16, 1#5⟩)

/-- A frame of one gray pixel v at address 0x10. -/
def onePixel (v : Byte) (s : State) : State :=
  { s with ctrl := ⟨0#2, 2#2, false, true⟩, frame := ⟨1#16, 1#16⟩, src0 := 0x10#32, stride := 1#32
           mem := Memory.write s.mem 0x10 v }

/-- A frame of one pixel with every table loaded, all divisors 8, and n bytes of room. -/
def ready (n : Nat) : State :=
  onePixel 131#8
    { output n with
      qtab := fill 128 8#8, freq := fill 1024 0#32
      huff := codes [(2, ⟨0b011#16, 3#5⟩), (256, ⟨0b1010#16, 4#5⟩)] }

/-! One step of each command (95_test_vectors.md). -/

/-- R230, V-F-6: a NOP sets DONE and ends with BUSY = 0. -/
theorem test_nop :
    gives (step (accepted 0x00#32 { State.reset with irqEn := ⟨true, true⟩ }))
      (fun t => t.irqStat.done && !t.status.busy && irq t) = true := by decide

/-- R220. -/
theorem test_dc_reset :
    gives (step (accepted 0x01#32 { State.reset with dcPred0 := 1#16, dcPred1 := 2#16, dcPred2 := 0xFFFF#16 }))
      (fun t => t.dcPred0 == 0#16 && t.dcPred1 == 0#16 && t.dcPred2 == 0#16) = true := by decide

/-- R221, R42: the last counter of the last table. -/
theorem test_freq_clear :
    gives (step (accepted 0x02#32 State.reset))
      (fun t => tabGet t.freq 0 == some 0#32 && tabGet t.freq 1023 == some 0#32 && tabGet t.freq 1024 == none)
      = true := by decide +kernel

/-- V-CSC-4, 5, 6, 8 and 9: the conversion of (B, G, R). -/
theorem test_csc :
    [(255#8, 0#8, 0#8), (0#8, 255#8, 0#8), (0#8, 0#8, 255#8), (10#8, 200#8, 30#8), (1#8, 2#8, 3#8)].map
        (fun p => (cscY p.1 p.2.1 p.2.2, cscCb p.1 p.2.1 p.2.2, cscCr p.1 p.2.1 p.2.2)) =
      [(29#8, 255#8, 107#8), (150#8, 44#8, 21#8), (76#8, 85#8, 255#8), (128#8, 62#8, 58#8), (2#8, 127#8, 129#8)] := by
  decide

/-- V-CSC-10: the averages of the 2x2 pixels at the right end of the first two rows of a 16x16 tile. -/
theorem test_avg4 :
    avg4 (List.replicate 14 0#8 ++ [255#8, 44#8] ++ List.replicate 14 0#8 ++ [85#8, 128#8]) 0 7 = 128#8 ∧
    avg4 (List.replicate 14 0#8 ++ [107#8, 21#8] ++ List.replicate 14 0#8 ++ [255#8, 128#8]) 0 7 = 128#8 := by decide

/-- V-CSC-12: the MCU at (1, 0) of the 10x9 gradient: its row 0 replicates column 9. -/
theorem test_load_mcu :
    gives (step (accepted 0x10#32 { State.reset with
        ctrl := ctrlOfWord 0x50#32, frame := ⟨10#16, 9#16⟩, mcuPos := ⟨1#16, 0#16⟩, src0 := 0x10000#32, stride := 10#32
        mem := tabOf 0x10001 ((List.range' 1 89).map fun i => BitVec.ofNat 8 (20 * (i % 10) + 7 * (i / 10))) }))
      (fun t => (List.range 9).map (tabGet t.blk) ==
        [160, 180, 180, 180, 180, 180, 180, 180, 167].map fun n => some (BitVec.ofNat 8 n)) = true := by decide +kernel

/-- V-F-3: MCUPOS outside the grid raises CONFIG with subcode 5. -/
theorem test_load_mcu_config :
    gives (step (accepted 0x10#32 { State.reset with
        ctrl := ctrlOfWord 0x50#32, frame := frameOfWord 0x0009000A#32, mcuPos := mcuPosOfWord 2#32 }))
      (faulted 2#8 5#32) = true := by decide

/-- V-FDCT-4, a horizontal ramp, in block 2. -/
theorem test_fdct_row_ramp :
    gives (step (accepted 0x220#32 { State.reset with
        blk := tabOf 128 ((List.range 64).map fun i => BitVec.ofNat 8 (16 * (i % 8) + 8)) }))
      (fun t => t.coef == buffer [(0, -512), (1, -292), (3, -31), (5, -9), (7, -2)]) = true := by decide +kernel

/-- V-FDCT-5, a vertical ramp: the passes round at different points, so COEF[24] is -30 and not -31. -/
theorem test_fdct_column_ramp :
    gives (step (accepted 0x020#32 { State.reset with
        blk := tabOf 0 ((List.range 64).map fun i => BitVec.ofNat 8 (16 * (i / 8) + 8)) }))
      (fun t => t.coef == buffer [(0, -512), (8, -292), (24, -30), (40, -9), (56, -2)]) = true := by decide +kernel

/-- V-QZ-2, V-QZ-3, V-QZ-4, V-QZ-6: divisors 16 of the chroma table. -/
theorem test_quant :
    gives (step (accepted 0x121#32 { State.reset with
        qtab := fill 128 16#8, coef := buffer [(0, 8), (1, -8), (2, 23), (63, -24)] }))
      (fun t => t.qcoef == buffer [(0, 1), (1, -1), (2, 1), (63, -2)]) = true := by decide +kernel

/-- V-QZ-17: QZERO with the smaller index of the two zero divisors; QCOEF unchanged. -/
theorem test_quant_zero :
    gives (step (accepted 0x021#32 { State.reset with
        qtab := tabSet (tabSet (fill 128 16#8) 5 0#8) 9 0#8, qcoef := buffer [(7, 7)] }))
      (fun t => faulted 3#8 5#32 t && t.qcoef == buffer [(7, 7)]) = true := by decide +kernel

/-- V-QZ-18. -/
theorem test_zigzag :
    gives (step (accepted 0x022#32 { State.reset with qcoef := tabOf 0 ((List.range 64).map (BitVec.ofNat 16)) }))
      (fun t => (List.range 16).map (tabGet t.zzbuf) ==
          [0, 1, 8, 16, 9, 2, 3, 10, 17, 24, 32, 25, 18, 11, 4, 5].map (fun n => some (BitVec.ofNat 16 n)) &&
        tabGet t.zzbuf 60 == some 47#16 && tabGet t.zzbuf 63 == some 63#16) = true := by decide +kernel

/-- E9: chroma tables, DC -1, k1 = -2, k2 = 3. -/
theorem test_enc_block_chroma :
    gives (step (accepted 0x130#32 { output 64 with
        zzbuf := buffer [(0, -1), (1, -2), (2, 3)]
        huff := [(513, ⟨0b01#16, 2#5⟩), (768, ⟨0b00#16, 2#5⟩), (770, ⟨0b100#16, 3#5⟩)] }))
      (fun t => t.mem == [(0x100, 0x51#8)] && t.pack == ⟨7#3, 0b1001100#7⟩ && t.dcPred1 == 0xFFFF#16 &&
        t.dstPtr == 0x101#32) = true := by decide +kernel

/-- E1s: the empty luma block in SRC mode, three ZRLs and an EOB, with one escaped 0xFF. -/
theorem test_enc_block_src :
    gives (step (accepted 0x030#32 { output 64 with
        ctrl := ⟨0#2, 0#2, false, false⟩, zzbuf := buffer []
        huff := [(0, ⟨0b00#16, 2#5⟩), (256, ⟨0b1010#16, 4#5⟩), (496, ⟨0b11111111001#16, 11#5⟩)] }))
      (fun t => bytesFrom t.mem 0x100 5 == [0x3F#8, 0xCF#8, 0xF9#8, 0xFF#8, 0x00#8] && t.dstPtr == 0x105#32 &&
        t.pack == ⟨7#3, 0b0011010#7⟩) = true := by decide +kernel

/-- P5: PUTBITS 0xFF, 8 writes FF 00 and leaves PACK empty. -/
theorem test_putbits :
    gives (step (accepted 0x00FF0831#32 (output 2)))
      (fun t => t.mem == [(0x100, 0xFF#8)] && t.dstPtr == 0x102#32 && t.pack == ⟨0#3, 0#7⟩) = true := by decide

/-- R266, R253(b), (c): room for one byte only; the 0xFF is in memory and the stuffed 0x00 meets the limit. -/
theorem test_putbits_limit :
    gives (step (accepted 0x00FF0831#32 (output 1)))
      (fun t => faulted 6#8 0x101#32 t && t.mem == [(0x100, 0xFF#8)] && t.dstPtr == 0x101#32) = true := by decide

/-- E1 with the FLUSH that follows it: 001010 becomes 2B. -/
theorem test_flush :
    gives (step (accepted 0x032#32 { output 1 with pack := ⟨6#3, 0b001010#7⟩ }))
      (fun t => t.mem == [(0x100, 0x2B#8)] && t.dstPtr == 0x101#32 && t.pack == ⟨0#3, 0#7⟩) = true := by decide

/-- P5: four pending 1-bits are padded to FF, which is escaped. -/
theorem test_flush_escape :
    gives (step (accepted 0x032#32 { output 2 with pack := ⟨4#3, 0b1111#7⟩ }))
      (fun t => t.mem == [(0x100, 0xFF#8)] && t.dstPtr == 0x102#32) = true := by decide

/-- One gray pixel 131: COEF[0] = 24 (41_fdct.md R157), 3 after a divisor 8, coded 011 11 and EOB 1010: the bits
of E3 (95_test_vectors.md). -/
theorem test_enc_mcu :
    gives (step (accepted 0x040#32 (ready 3072)))
      (fun t => Memory.read t.mem 0x100 == 0x7D#8 && t.dstPtr == 0x101#32 && t.pack == ⟨1#3, 0#7⟩ &&
        t.dcPred0 == 3#16 && t.irqStat.done) = true := by decide +kernel

/-- The same as a scan, with FLUSH: 7D 7F, as E3 after its FLUSH. -/
theorem test_enc_scan :
    gives (step (accepted 0x041#32 (ready 3074)))
      (fun t => bytesFrom t.mem 0x100 2 == [0x7D#8, 0x7F#8] && t.dstPtr == 0x102#32 && t.pack == ⟨0#3, 0#7⟩ &&
        t.mcuPos == ⟨0#16, 0#16⟩) = true := by decide +kernel

/-- V-F-2: YUV420 with GRAY8 raises CONFIG with subcode 4, before the predictors are reset. -/
theorem test_enc_scan_config :
    gives (step (accepted 0x041#32 { State.reset with
        ctrl := ctrlOfWord 0x14#32, frame := frameOfWord 0x00080008#32, dcPred0 := 9#16 }))
      (fun t => faulted 2#8 4#32 t && t.dcPred0 == 9#16) = true := by decide

/-- V-R-3: right after a hard reset QUANT 0 meets an unwritten divisor. -/
theorem test_unwritten : step (accepted 0x021#32 State.reset) = .fault (.unwritten .qtab 0) := rfl

/-- An illegal word raises ILLEGAL_CMD with the word (95_test_vectors.md section 6). -/
theorem test_illegal_word : gives (step (accepted 0x003#32 State.reset)) (faulted 1#8 3#32) = true := by decide

/-- The word placed by withFetchWord runs in the very next step. -/
theorem test_fetch_word : step (State.reset.withFetchWord 32 0x021) = .fault (.unwritten .qtab 0) := rfl

/-- V-R-2: a soft reset of CTRL = 0x70. -/
theorem test_soft_reset :
    gives (step (withInputs [.regWrite 0x004#16 32 1#32]
        { State.reset with ctrl := ctrlOfWord 0x70#32, dstPtr := 0x80000#32, qtab := [(3, 7#8)] }))
      (fun t => readReg t .ctrl == 0x44#32 && readReg t .dstPtr == 0#32 && t.qtab == [(3, 7#8)]) = true := by decide

/-- P6: a NOP written in the fault state is rejected, and STATUS then reads 0x0000_0606. -/
theorem test_rejected_in_fault :
    gives (step (withInputs [.regWrite 0x00C#16 32 0#32]
        { State.reset with status := ⟨false, true, false, false, 6#8⟩, lastCmd := 0x30#32 }))
      (fun t => readReg t .status == 0x00000606#32 && readReg t .cmd == 0x30#32) = true := by decide

/-- 10_state.md R36: writing 1 to bit 0 of IRQSTAT clears DONE and keeps FAULT. -/
theorem test_irqstat_w1c :
    gives (step (withInputs [.regWrite 0x048#16 32 1#32] { State.reset with irqStat := ⟨true, true⟩ }))
      (fun t => readReg t .irqStat == 2#32) = true := by decide

/-- 10_state.md R27: bit 2 alone clears CMDREJ; FAULT and its code stay. -/
theorem test_status_keeps_fault :
    gives (step (withInputs [.regWrite 0x008#16 32 4#32] { State.reset with status := ⟨false, true, true, true, 6#8⟩ }))
      (fun t => readReg t .status == 0x0000060A#32) = true := by decide

/-- 10_state.md R32 and R46: a predictor written 0xFFFD reads back sign-extended. -/
theorem test_predictor_sign :
    gives (step (withInputs [.regRead 0x030#16 32] { State.reset with dcPred0 := 0xFFFD#16 }))
      (fun t => t.resp == .data 0xFFFFFFFD#32) = true := by decide

/-! Witnesses: for each statement with hypotheses, a state and operands that meet them. -/

theorem noErr (s : State) (k : AccessKind) (a : Word) (h : s.busErr = []) : busError s k a = false := by
  simp [busError, h]

theorem noRace (s : State) (a : Nat) (h : s.racySrc = []) (h' : s.volatileSrc = []) :
    inRanges s.racySrc a = false ∧ inRanges s.volatileSrc a = false := by simp [inRanges, h, h']

theorem answered (s : State) (h : s.busErr = []) : ReadsAnswered s := fun a _ => noErr s .read a h

theorem plain (s : State) (h : s.racySrc = []) (h' : s.volatileSrc = []) : ReadsPlain s :=
  fun a _ => noRace s a.toNat h h'

theorem room (n : Nat) (s : State) (h : s.busErr = []) (h' : s.dstPtr.toNat + n ≤ s.dstLim.toNat) : RoomFor n s :=
  ⟨h', fun a _ _ => noErr s .write a h⟩

theorem tabGet_fill {α : Type} (n k : Nat) (v : α) (h : k < n) : tabGet (fill n v) k = some v := by
  simp [fill, tabGet_tabOf, h]

theorem written_fill {α : Type} (n lo m : Nat) (v : α) (h : lo + m ≤ n) : Written (fill n v) lo m := by
  intro i hi
  rw [tabGet_fill n (lo + i) v (by omega)]
  rfl

/-- With every symbol coded, every component is ready for an emitting pass. -/
theorem codesReady_fill (s : State) (e : HuffEntry) (h : s.huff = fill 1024 e) (h1 : 1 ≤ e.len.toNat)
    (h2 : e.len.toNat ≤ 16) (c : Component) : CodesReady c s := by
  have key : ∀ t sym, t < 4 → sym < 256 → HasCode s t sym := fun t sym ht hs =>
    ⟨e, by rw [h]; exact tabGet_fill 1024 _ e (by omega), h1, h2⟩
  refine ⟨fun k hk => key _ k (by cases c <;> decide) (by omega), fun sym hs => key _ sym (by cases c <;> decide) ?_⟩
  rcases hs with h | h | h <;> omega

theorem countersReady_fill (s : State) (v : Word) (h : s.freq = fill 1024 v) (c : Component) : CountersReady c s := by
  rw [CountersReady, h]
  exact ⟨written_fill 1024 _ _ v (by cases c <;> decide), written_fill 1024 _ _ v (by cases c <;> decide)⟩

theorem divisorsReady_fill (s : State) (q : Byte) (h : s.qtab = fill 128 q) (hq : q ≠ 0#8) (t : QSel) :
    DivisorsReady t s := fun i hi =>
  ⟨q, by rw [h]; exact tabGet_fill 128 _ q (by cases t <;> simp only [qselNumber] <;> omega), hq⟩

/-- Every table loaded, one pixel, n bytes of room. -/
def loaded (n : Nat) (stats : Bool) : State :=
  { onePixel 131#8 (output n) with
    ctrl := ⟨0#2, 2#2, stats, true⟩, qtab := fill 128 8#8, freq := fill 1024 0#32, huff := fill 1024 ⟨0#16, 1#5⟩ }

theorem tablesReady_loaded (n : Nat) (stats : Bool) : TablesReady (loaded n stats) := fun e _ =>
  ⟨divisorsReady_fill _ 8#8 rfl (by decide) _, fun _ => countersReady_fill _ 0#32 rfl _,
    fun _ => codesReady_fill _ ⟨0#16, 1#5⟩ rfl (by decide) (by decide) _⟩

theorem witness_DecodeOfEncode :
    Instr.wf (.putbits 1#16 1#5) = true ∧ Instr.wf (.putbits 0xFFFF#16 16#5) = true ∧ Instr.wf .encScan = true := by
  decide
theorem witness_EncodeOfDecode :
    decode 0xFFFD0331#32 = .ok (.putbits 5#16 3#5) ∧ decode 0x520#32 = .ok (.fdct 5) := by decide
theorem witness_StepRunsDecoded :
    let s := accepted 0x41#32 State.reset
    s.status.busy = true ∧ decode s.lastCmd = .ok .encScan ∧ s.inputs = [] ∧
    (withInputs [.engine] s).inputs = .engine :: [] := by decide
theorem witness_IdleKeepsAllState : State.reset.status.busy = false ∧ State.reset.inputs = [] := by decide
theorem witness_CmdWriteAcceptedOrRejected :
    let s := withInputs [.regWrite 0x00C#16 32 0x10#32] State.reset
    s.inputs = .regWrite 0x00C#16 32 0x10#32 :: [] ∧ s.status.busy = false ∧ s.status.fault = false ∧
    (accepted 0#32 s).status.busy = true ∧ (enterFault .config 1#32 s).status.fault = true := by decide
theorem witness_IllegalWordFaults :
    let s := accepted 0x3#32 State.reset
    s.status.busy = true ∧ s.inputs = [] ∧ decode s.lastCmd = .error .opcode := by decide
theorem witness_CommandOutcomes :
    exec .nop State.reset = .next (complete State.reset) ∧
    exec .loadMcu State.reset = .next (enterFault .config 1#32 State.reset) := ⟨rfl, rfl⟩
theorem witness_CommandsWriteOnlyTheirFootprint :
    exec .dcReset (output 1) = .next (complete (dcResetBody (output 1))) ∧
    gives (exec (.putbits 0xFF#16 8#5) (output 1)) (fun t => t.status.fault) = true := ⟨rfl, by decide⟩
theorem witness_InvariantKept : Inv State.reset ∧ step State.reset = .next State.reset := by
  refine ⟨?_, rfl⟩
  unfold Safety.Inv StorageInv ControlInv
  decide
theorem witness_ResetsWhenIdle :
    State.reset.status.busy = false ∧
    (withInputs [.regWrite 0x004#16 32 1#32] State.reset).inputs = .regWrite 0x004#16 32 1#32 :: [] ∧
    (1#32).getLsbD 0 = true ∧ (withInputs [.hardReset] State.reset).inputs = .hardReset :: [] := by decide
theorem witness_ResetDuringCommand :
    let s := accepted 0x00FF0831#32 (output 2)
    let e := Event.regWrite 0x004#16 32 1#32
    s.status.busy = true ∧ decode s.lastCmd = .ok (.putbits 0xFF#16 8#5) ∧ (withInputs [e] s).inputs = e :: [] ∧
    (1#32).getLsbD 0 = true ∧ (withInputs [.hardReset] s).inputs = .hardReset :: [] ∧ e ≠ .hardReset ∧
    gives (exec (.putbits 0xFF#16 8#5) s) (fun t => t.dstPtr == 0x102#32) = true := by decide
theorem witness_BusyWriteIgnored :
    let s := withInputs [.regWrite 0x004#16 32 0x44#32] (accepted 0x10#32 State.reset)
    s.status.busy = true ∧ s.inputs = .regWrite 0x004#16 32 0x44#32 :: [] ∧
    (0x44#32).getLsbD 0 = false ∧ decodeOffset (0x004#16).toNat = some (.reg .ctrl) ∧
    Target.reg .ctrl ∉ [Target.reg .cmd, Target.reg .status, .reg .irqEn, .reg .irqStat, .reg .id, .reg .errInfo] ∧
    decodeOffset (0x3AFC#16).toNat = some (.zzbuf 63) ∧
    (withInputs [.regWrite 0x00C#16 16 1#32] s).inputs = .regWrite 0x00C#16 16 1#32 :: [] := by decide
theorem witness_PortErrorResponse :
    (0x002#16).toNat % 4 ≠ 0 ∧ (16 : Nat) ≠ 32 ∧
    (withInputs [.regWrite 0x002#16 32 0#32] State.reset).inputs = .regWrite 0x002#16 32 0#32 :: [] ∧
    (withInputs [.regRead 0x002#16 32] State.reset).inputs = .regRead 0x002#16 32 :: [] := by decide
/-- The first and the last reserved word offset of each gap are reserved, and the assigned ones beside them are not. -/
theorem witness_PortErrorResponse_gaps :
    (∀ o ∈ [0x04C, 0x3FC, 0x600, 0xFFC, 0x3600, 0x37FC, 0x3B00, 0xFFFC], ReservedOffset o ∧ decodeOffset o = none) ∧
    ∀ o ∈ [0x048, 0x400, 0x5FC, 0x1000, 0x35FC, 0x3800, 0x3AFC], ¬ ReservedOffset o ∧ decodeOffset o ≠ none := by
  unfold ReservedOffset
  decide
theorem witness_PortReadsChangeNothing :
    let s := withInputs [.regRead 0x028#16 32] (accepted 0x10#32 State.reset)
    s.inputs = .regRead 0x028#16 32 :: [] ∧ decodeOffset (0x028#16).toNat = some (.reg .dstPtr) ∧
    covers (runningFootprint s) (.reg .dstPtr) = false ∧ readTarget s (.reg .dstPtr) = some 0#32 := by decide
theorem witness_WrittenWordReadsBack :
    let s := withInputs [.regWrite 0x1FFC#16 32 0xFFFFFFFF#32, .regRead 0x1FFC#16 32] State.reset
    s.status.busy = false ∧ decodeOffset (0x1FFC#16).toNat = some (.huff 1023) ∧
    storedWord 0xFFFFFFFF#32 (.huff 1023) = some 0x001FFFFF#32 ∧
    s.inputs = .regWrite 0x1FFC#16 32 0xFFFFFFFF#32 :: .regRead 0x1FFC#16 32 :: [] ∧
    storedWord 0x000005FF#32 (.reg .pack) = some 0x0000051F#32 ∧ storedWord 0xFFFFFFFE#32 (.reg .ctrl) = some 0x7E#32 ∧
    (0xFFFFFFFE#32).getLsbD 0 = false ∧ decodeOffset 0x004 = some (.reg .ctrl) ∧
    storedWord 0xFFFFFFFF#32 (.reg .irqEn) = some 3#32 ∧ decodeOffset 0x044 = some (.reg .irqEn) := by decide
theorem witness_StatusAndInterruptWrites :
    ∀ off ∈ [0x008#16, 0x044#16, 0x048#16, 0x000#16, 0x040#16], ∀ w ∈ [0#32, 0xFFFFFFFF#32],
      (withInputs [.regWrite off 32 w] State.reset).inputs = .regWrite off 32 w :: [] := fun _ _ _ _ => rfl
/-- A write and a read while idle, and beside PUTBITS, whose two bytes are at 0x100 and 0x101. -/
theorem witness_HostMemoryAccess :
    let s := accepted 0x00FF0831#32 (output 2)
    (withInputs [.memWrite 0xFFFFFFFF#32 7#8] State.reset).inputs = .memWrite 0xFFFFFFFF#32 7#8 :: [] ∧
    (withInputs [.memRead 0x102#32] s).inputs = .memRead 0x102#32 :: [] ∧
    (runningFootprint State.reset).stream = false ∧ decode s.lastCmd = .ok (.putbits 0xFF#16 8#5) ∧
    gives (exec (.putbits 0xFF#16 8#5) s)
      (fun u => !decide (s.dstPtr ≤ 0x102#32 ∧ 0x102#32 < u.dstPtr) && !decide (s.dstPtr ≤ 0xFF#32)) = true := by decide

/-- A frame of w by h pixels at MCU (x, y) in a mode and an input format. -/
def frameAt (mode infmt : BitVec 2) (w h x y : Half) : State :=
  { State.reset with
    ctrl := ⟨mode, infmt, false, true⟩, frame := ⟨w, h⟩, mcuPos := ⟨x, y⟩, src0 := 0x100#32, src1 := 0x4000#32
    src2 := 0x8000#32, stride := 100#32 }

/-- Every clause of ConfigCheck, at the edge of the grid for the last (V-F-3). -/
theorem witness_ConfigCheckSubcodes :
    configCheck true (frameAt 0#2 0#2 0#16 1#16 0#16 0#16) = some 1#32 ∧
    configCheck true (frameAt 3#2 3#2 1#16 1#16 0#16 0#16) = some 2#32 ∧
    configCheck true (frameAt 1#2 3#2 1#16 1#16 0#16 0#16) = some 3#32 ∧
    configCheck true (frameAt 1#2 2#2 1#16 1#16 0#16 0#16) = some 4#32 ∧
    configCheck true (frameAt 0#2 2#2 16#16 9#16 2#16 0#16) = some 5#32 ∧
    configCheck true (frameAt 0#2 2#2 16#16 9#16 1#16 2#16) = some 5#32 ∧
    configCheck true (frameAt 0#2 2#2 16#16 9#16 1#16 1#16) = none ∧
    configCheck false (frameAt 0#2 2#2 16#16 9#16 2#16 0#16) = none := by decide
theorem witness_ConfigFaultChangesNothing :
    configCheck true State.reset = some 1#32 ∧ configCheck false State.reset = some 1#32 := by decide
theorem witness_LoadMcuCompletes :
    let s := frameAt 1#2 1#2 9#16 9#16 1#16 1#16
    configCheck true s = none ∧ ReadsAnswered s ∧
    4 ∈ (blockOrder s.ctrl).map (fun e => e.1.val) ∧ 1 ∉ (blockOrder s.ctrl).map (fun e => e.1.val) :=
  ⟨by decide, answered _ rfl, by decide, by decide⟩
theorem witness_LoadMcuFullResolution :
    let s := frameAt 1#2 0#2 9#16 9#16 1#16 1#16
    configCheck true s = none ∧ ReadsAnswered s ∧ ReadsPlain s ∧ s.ctrl.mode ≠ 2#2 ∧ s.ctrl.mode = 1#2 :=
  ⟨by decide, answered _ rfl, plain _ rfl rfl, by decide, rfl⟩
theorem witness_LoadMcuFullResolution_gray :
    let s := frameAt 0#2 2#2 9#16 9#16 1#16 1#16
    configCheck true s = none ∧ ReadsAnswered s ∧ ReadsPlain s ∧ s.ctrl.mode ≠ 2#2 :=
  ⟨by decide, answered _ rfl, plain _ rfl rfl, by decide⟩
theorem witness_LoadMcuSubsampled :
    let s := frameAt 2#2 0#2 17#16 17#16 1#16 1#16
    configCheck true s = none ∧ ReadsAnswered s ∧ ReadsPlain s ∧ s.ctrl.mode = 2#2 :=
  ⟨by decide, answered _ rfl, plain _ rfl rfl, rfl⟩
theorem witness_PixelByFormat :
    (frameAt 2#2 0#2 1#16 1#16 0#16 0#16).ctrl.infmt = 0#2 ∧
    ((frameAt 2#2 1#2 1#16 1#16 0#16 0#16).ctrl.infmt = 1#2 ∧ (frameAt 2#2 1#2 1#16 1#16 0#16 0#16).ctrl.mode ≠ 0#2) ∧
    (frameAt 0#2 2#2 1#16 1#16 0#16 0#16).ctrl.infmt = 2#2 ∧
    ((frameAt 0#2 1#2 1#16 1#16 0#16 0#16).ctrl.infmt = 1#2 ∧ (frameAt 0#2 1#2 1#16 1#16 0#16 0#16).ctrl.mode = 0#2) := by
  decide
theorem witness_ColourConversion : (7#8 : Byte) = 7#8 ∧ (cscY 7#8 7#8 7#8, cscCb 7#8 7#8 7#8, cscCr 7#8 7#8 7#8) =
    (7#8, 128#8, 128#8) := by decide
theorem witness_SourceReadsInsideImage :
    let s := frameAt 2#2 0#2 1#16 1#16 0#16 0#16
    s.frame.w ≠ 0#16 ∧ s.frame.h ≠ 0#16 ∧ 0x102#32 ∈ mcuAddrs s := by decide +kernel
theorem witness_LoadMcuBusError :
    let s := { frameAt 0#2 2#2 1#16 1#16 0#16 0#16 with busErr := [⟨.read, ⟨0x100, 0x101⟩⟩] }
    configCheck true s = none ∧ 0x100#32 ∈ mcuAddrs s ∧ busError s .read 0x100#32 = true := by decide +kernel
theorem witness_FdctCompletes :
    Written ({ State.reset with blk := fill 384 0#8 } : State).blk (64 * (5 : Fin 6).val) 64 :=
  written_fill 384 _ _ _ (by decide)
theorem witness_FdctOffsetExact :
    (List.replicate 64 (254#8 : Byte)).length = 64 ∧ ∀ b ∈ List.replicate 64 (254#8 : Byte), b.toNat + 1 ≤ 255 := by
  decide
theorem witness_FdctBlocks : (List.replicate 64 (255#8 : Byte)).length = 64 := by decide
/-- The block that shows the bound of R155 false: 255 in columns 0, 3, 4, 7 and 0 in the others. -/
theorem test_fdct_above_929 :
    (fdctBlock ((List.range 64).map fun i => if i % 8 ∈ [0, 3, 4, 7] then 255#8 else 0#8)).getD 4 0 = 1020 := by
  decide +kernel
theorem witness_QuantCompletes (t : QSel) :
    let s : State := { State.reset with qtab := fill 128 255#8, coef := fill 64 0x8000#16 }
    DivisorsReady t s ∧ Written s.coef 0 64 ∧ tabGet s.coef 63 = some 0x8000#16 ∧ 1 ≤ (255#8 : Byte).toNat :=
  ⟨divisorsReady_fill _ 255#8 rfl (by decide) t, written_fill 64 0 64 _ (by decide), by decide, by decide⟩
theorem witness_QuantDeadZone :
    let s : State := { State.reset with qtab := fill 128 1#8, coef := fill 64 0x8000#16 }
    DivisorsReady .luma s ∧ Written s.coef 0 64 ∧ tabGet s.qtab 63 = some 1#8 ∧ tabGet s.coef 63 = some 0x8000#16 :=
  ⟨divisorsReady_fill _ 1#8 rfl (by decide) .luma, written_fill 64 0 64 _ (by decide), by decide, by decide⟩
theorem witness_QuantZeroDivisor :
    let s : State := { State.reset with qtab := tabSet (fill 64 1#8) 63 0#8 }
    63 < 64 ∧ tabGet s.qtab (64 * qselNumber .luma + 63) = some 0#8 ∧
    ∀ j < 63, ∃ q, tabGet s.qtab (64 * qselNumber .luma + j) = some q ∧ q ≠ 0#8 := by
  refine ⟨by decide, by decide, fun j hj => ⟨1#8, ?_, by decide⟩⟩
  have h : 64 * qselNumber .luma + j = j := by simp [qselNumber]
  show tabGet (tabSet (fill 64 1#8) 63 0#8) _ = _
  rw [h, tabGet_tabSet_ne _ _ _ _ (by omega), tabGet_fill 64 j _ (by omega)]
theorem witness_QuantZeroDivisor_first :
    tabGet ({ State.reset with qtab := [(64, 0#8)] } : State).qtab (64 * qselNumber .chroma + 0) = some 0#8 := by decide
/-- A tie of an even divisor, the largest odd divisor, and q = 1. -/
theorem witness_QuantRoundingLaw :
    (8 < 16 ∧ (-24 : Int).natAbs = 1 * 16 + 8 ∧ 16 % 2 = 0 ∧ 8 = 16 / 2) ∧
    (254 < 255 ∧ (254 : Int).natAbs = 0 * 255 + 254 ∧ 255 % 2 = 1) ∧ (0 < 1 ∧ (7 : Int).natAbs = 7 * 1 + 0) := by decide
theorem witness_ZigzagCompletes : Written ({ State.reset with qcoef := fill 64 5#16 } : State).qcoef 0 64 :=
  written_fill 64 0 64 _ (by decide)
/-- R194: the categories at the limits; R195: the bits of 5, -5, -1, 1. -/
theorem witness_CategoryIsBitLength :
    [0, 1, -1, 2, -3, 1023, -1024, 2047, -2048].map cat = [0, 1, 1, 2, 2, 10, 11, 11, 12] ∧ (-2048 : Int) ≠ 0 := by
  decide
theorem witness_MagnitudeBits :
    mag 5 3 = 0b101 ∧ mag (-5) 3 = 0b010 ∧ mag (-1) 1 = 0 ∧ mag 1 1 = 1 ∧ (0 : Int) < 1 ∧ (-1 : Int) < 0 := by decide
theorem witness_PutbitsAppendsItsBits :
    let s := { output 4 with pack := ⟨7#3, 0x7F#7⟩ }
    (Instr.putbits 0xFFFF#16 16#5).wf = true ∧ s.pack.acc.toNat < 2 ^ s.pack.cnt.toNat ∧ RoomFor 4 s ∧ s.racyDst = [] :=
  ⟨by decide, by decide, room _ _ rfl (by decide), rfl⟩
theorem witness_FlushPadsWithOnes :
    let s := { output 2 with pack := ⟨7#3, 0x7F#7⟩ }
    s.pack.acc.toNat < 2 ^ s.pack.cnt.toNat ∧ s.pack.cnt ≠ 0#3 ∧ RoomFor 2 s ∧ s.racyDst = [] ∧
    s.pack.acc.toNat * 2 ^ (8 - s.pack.cnt.toNat) + (2 ^ (8 - s.pack.cnt.toNat) - 1) = 255 ∧
    (output 2).pack.acc.toNat < 2 ^ (output 2).pack.cnt.toNat ∧ (output 2).pack.cnt = 0#3 :=
  ⟨by decide, by decide, room _ _ rfl (by decide), rfl, by decide, by decide, rfl⟩
/-- The largest values the coder accepts (E6): DC difference 2040, AC 1023 at k = 1 and -1023 at k = 63. -/
def codable (stats : Bool) : State :=
  { output 512 with
    ctrl := ⟨0#2, 0#2, stats, true⟩, dcPred0 := BitVec.ofInt 16 (-1024), freq := fill 1024 0xFFFFFFFF#32
    huff := fill 1024 ⟨0#16, 16#5⟩, zzbuf := buffer [(0, 1016), (1, 1023), (63, -1023)] }

theorem codable_zz (stats : Bool) : Codable .y (codable stats) := by
  cases stats <;> unfold Codable <;> decide +kernel

/-- PUTBITS of 0xFF at the limit, at a bus error, and with its stuffed byte at the limit; FLUSH of seven 1-bits with
its stuffed byte at the limit; ENC_BLOCK with room for three bytes. -/
theorem witness_OutputFaults :
    (∀ n < 2, let s := output n
      s.pack.acc.toNat < 2 ^ s.pack.cnt.toNat ∧ Emits s (.putbits 0xFF#16 8#5) (bitsOf 8 255) ∧
      n < (streamBytes s (bitsOf 8 255)).length ∧ StopsAt s n) ∧
    (let s := { output 1 with busErr := [⟨.write, ⟨0x100, 0x101⟩⟩] };
      0 < (streamBytes s (bitsOf 8 255)).length ∧ StopsAt s 0) ∧
    (let s := { output 1 with pack := ⟨7#3, 0x7F#7⟩ };
      s.pack.acc.toNat < 2 ^ s.pack.cnt.toNat ∧ Emits s .flush [true] ∧ 1 < (streamBytes s [true]).length ∧
      StopsAt s 1) ∧
    let s := { codable false with dstLim := 0x103#32 }
    let new := (blockSyms .y s).flatMap (symBits s)
    s.pack.acc.toNat < 2 ^ s.pack.cnt.toNat ∧ Emits s (.encBlock .y) new ∧ 3 < (streamBytes s new).length ∧
    StopsAt s 3 := by
  refine ⟨fun n hn => ⟨(by decide : 0 < 1), .inl ⟨0xFF#16, 8#5, rfl, by decide, rfl⟩, ?_, ?_⟩, ?_, ?_, ?_⟩
  · revert n; decide
  · revert n; unfold StopsAt; decide
  · unfold StopsAt; decide
  · exact ⟨by decide, .inr (.inl ⟨rfl, by decide, rfl⟩), by decide, by unfold StopsAt; decide⟩
  · exact ⟨by decide,
      .inr (.inr ⟨.y, rfl, rfl, codable_zz false,
        codesReady_fill _ ⟨0#16, 16#5⟩ rfl (by decide) (by decide) .y, rfl⟩),
      by decide +kernel, by unfold StopsAt; decide⟩

theorem witness_EncBlockCounts :
    (codable true).ctrl.stats = true ∧ Codable .y (codable true) ∧ CountersReady .y (codable true) :=
  ⟨rfl, codable_zz true, countersReady_fill _ 0xFFFFFFFF#32 rfl .y⟩
theorem witness_EncBlockEmitsItsSymbols :
    (codable false).ctrl.stats = false ∧ Codable .y (codable false) ∧ CodesReady .y (codable false) ∧
    (codable false).pack.acc.toNat < 2 ^ (codable false).pack.cnt.toNat ∧ RoomFor 512 (codable false) ∧
    (codable false).racyDst = [] :=
  ⟨rfl, codable_zz false, codesReady_fill _ ⟨0#16, 16#5⟩ rfl (by decide) (by decide) .y, by decide,
    room _ _ rfl (by decide), rfl⟩
/-- E7d: a DC difference of 2048. -/
theorem witness_EncBlockFaults_dc :
    let s := { codable true with zzbuf := buffer [(0, 1024)] }
    (tabGet s.zzbuf 0).isSome = true ∧ 2048 ≤ (dcDiff .y s).natAbs := by decide +kernel
/-- An AC coefficient of 1024 at k = 1, and at k = 63, in a counting and in an emitting pass. -/
theorem witness_EncBlockFaults_ac :
    ∀ st : Bool, ∀ k ∈ [1, 63], let s := { codable st with zzbuf := buffer [(k, 1024)] }
      (tabGet s.zzbuf 0).isSome = true ∧ 1 ≤ k ∧ k < 64 ∧ s.ctrl.stats = st ∧ (dcDiff .y s).natAbs < 2048 ∧
      Written s.zzbuf 0 64 ∧ CountersReady .y s ∧ CodesReady .y s ∧ s.pack.acc.toNat < 2 ^ s.pack.cnt.toNat ∧
      RoomFor 512 s ∧ 1024 ≤ (zzAt s k).natAbs ∧ ∀ j < k, 1 ≤ j → (zzAt s j).natAbs < 1024 := by
  intro st k hk
  simp only [List.mem_cons, List.mem_nil_iff, or_false] at hk
  rcases hk with rfl | rfl <;> cases st <;>
    exact ⟨by decide +kernel, by decide, by decide, rfl, by decide +kernel, by decide +kernel,
      countersReady_fill _ 0xFFFFFFFF#32 rfl .y, codesReady_fill _ ⟨0#16, 16#5⟩ rfl (by decide) (by decide) .y,
      by decide, room _ _ rfl (by decide), by decide +kernel, by decide +kernel⟩
/-- E11: no code for the DC category 2; and a code length of 17. -/
theorem witness_EncBlockFaults_code :
    let s := { output 64 with zzbuf := buffer [(0, -3)], huff := [(2, ⟨0#16, 0#5⟩)] }
    (tabGet s.zzbuf 0).isSome = true ∧ s.ctrl.stats = false ∧ (dcDiff .y s).natAbs < 2048 ∧
    tabGet s.huff (256 * dcTable .y + cat (dcDiff .y s)) = some ⟨0#16, 0#5⟩ ∧ (0#5).toNat = 0 ∧ 16 < (17#5).toNat := by
  decide +kernel
/-- DC 0, one AC coefficient 1 and EOB, with these codes. -/
def oneCoefficient (stats : Bool) (huff : Store HuffEntry) (freq : Store Word) : State :=
  { output 512 with ctrl := ⟨0#2, 0#2, stats, true⟩, zzbuf := buffer [(1, 1)], huff := huff, freq := freq }
theorem oneCoefficient_syms :
    ∀ st, ∀ h ∈ [codes [(257, ⟨0#16, 0#5⟩)], [(0, ⟨0#16, 1#5⟩)]], ∀ f ∈ [[], [(0, 0#32)]],
      Codable .y (oneCoefficient st h f) ∧
      blockSyms .y (oneCoefficient st h f) = [(0, 0, 0, 0)] ++ (1, 1, 1, 1) :: [(1, 0, 0, 0)] := by
  unfold Codable
  decide +kernel
/-- No code for the second symbol, the AC symbol 0x01. -/
theorem witness_EncBlockFaults_ac_code :
    let s := oneCoefficient false (codes [(257, ⟨0#16, 0#5⟩)]) []
    (tabGet s.zzbuf 0).isSome = true ∧ Codable .y s ∧
    blockSyms .y s = [(0, 0, 0, 0)] ++ (1, 1, 1, 1) :: [(1, 0, 0, 0)] ∧ HasCode s 0 0 ∧
    tabGet s.huff (256 * 1 + 1) = some ⟨0#16, 0#5⟩ ∧ s.pack.acc.toNat < 2 ^ s.pack.cnt.toNat ∧ RoomFor 512 s :=
  ⟨by decide +kernel, (oneCoefficient_syms _ _ (by simp) _ (by simp)).1,
    (oneCoefficient_syms _ _ (by simp) _ (by simp)).2, ⟨⟨0#16, 1#5⟩, by decide +kernel, by decide, by decide⟩,
    by decide +kernel, by decide, room _ _ rfl (by decide)⟩
/-- 48 is the smallest last index at which the modes agree (43_entropy.md R202). -/
theorem witness_AcModesAgreeOnShortTails :
    let v := fun k : Nat => (List.range 63).map fun i => if i + 1 = k then (1 : Int) else 0
    (v 48).length = 63 ∧ trailingZeros (v 48) = 15 ∧ acSyms true 0 (v 48) = acSyms false 0 (v 48) ∧
    trailingZeros (v 47) = 16 ∧ acSyms true 0 (v 47) ≠ acSyms false 0 (v 47) := by decide +kernel
theorem witness_StreamHoldsNoMarker :
    gives (exec (.putbits 0xFF#16 8#5) (output 2)) (fun t => !t.status.fault && t.dstPtr == 0x102#32) = true ∧
    (output 2).racyDst = [] := by decide
/-- A frame of the one pixel at 0x10 lies below an output region from above 0x10 on. -/
theorem disjoint_onePixel (s : State) (hi : s.ctrl.infmt = 2#2) (hf : s.frame = ⟨1#16, 1#16⟩)
    (h0 : s.src0 = 0x10#32) (hd : 0x10#32 < s.dstPtr) : OutputDisjoint s := by
  intro a h1 _
  have hne : a ≠ 0x10#32 := by bv_omega
  have h2 : ¬ (a - 0x10#32).toNat < 1 := fun h => hne (by bv_omega)
  simpa [isSourceByte, planeBases, rowAddr, hi, hf, h0, fmtBgr24, fmtPlanar, List.range_succ] using h2
/-- One gray pixel: the commands complete, fault with QZERO, and stop at an unwritten divisor. -/
theorem witness_EncMcuIsItsCommands :
    let st := fun q => { ready 3072 with qtab := q }
    let run := fun q => runAll (mcuCommands (st q).ctrl) (st q)
    (∀ q, (st q).racySrc = [] ∧ (st q).racyDst = [] ∧ (st q).status.fault = false ∧ OutputDisjoint (st q)) ∧
    gives (run (fill 128 8#8)) (fun t => !t.status.fault && !overlaps (st (fill 128 8#8)) t) = true ∧
    gives (run (fill 128 0#8)) (fun t => t.status.fault && !overlaps (st (fill 128 0#8)) t) = true ∧
    stops (run []) (.unwritten .qtab 0) = true :=
  ⟨fun _ => ⟨rfl, rfl, rfl, disjoint_onePixel _ rfl rfl rfl (by decide : 0x10#32 < 0x100#32)⟩, by decide +kernel,
    by decide +kernel, by decide +kernel⟩
theorem witness_EncScanIsItsCommands :
    let st := fun q => { ready 3074 with qtab := q }
    (∀ q, (st q).racySrc = [] ∧ (st q).racyDst = [] ∧ (st q).status.fault = false ∧ configCheck false (st q) = none ∧
      OutputDisjoint (st q)) ∧
    gives (runScan (st (fill 128 8#8))) (fun t => !t.status.fault) = true ∧
    gives (runScan (st (fill 128 0#8))) (fun t => t.status.fault) = true ∧
    stops (runScan (st [])) (.unwritten .qtab 0) = true :=
  ⟨fun _ => ⟨rfl, rfl, rfl, rfl, disjoint_onePixel _ rfl rfl rfl (by decide : 0x10#32 < 0x100#32)⟩,
    by decide +kernel, by decide +kernel, by decide +kernel⟩
/-- The raster order of a frame of 2 by 2 MCUs. -/
theorem test_raster_order :
    rasterOrder { State.reset with ctrl := ⟨0#2, 2#2, false, true⟩, frame := ⟨10#16, 9#16⟩ } =
      [(0, 0), (1, 0), (0, 1), (1, 1)] := by decide
theorem witness_EncMcuCompletes (stats : Bool) :
    let s := loaded 3072 stats
    configCheck true s = none ∧ ReadsAnswered s ∧ TablesReady s ∧ (∀ e ∈ blockOrder s.ctrl, PredInRange s e.2.2) ∧
    RoomFor 3072 s :=
  ⟨by cases stats <;> decide, answered _ rfl, tablesReady_loaded _ _,
    fun e _ => by unfold PredInRange; cases stats <;> cases e.2.2 <;> decide,
    room _ _ rfl (by cases stats <;> decide)⟩
theorem witness_EncScanCompletes (stats : Bool) :
    let s := loaded 3074 stats
    configCheck false s = none ∧ FrameAnswered s ∧ TablesReady s ∧ RoomFor (3072 * (gridX s * gridY s) + 2) s :=
  ⟨by cases stats <;> decide, fun a _ => noErr _ .read a rfl, tablesReady_loaded _ _,
    room _ _ rfl (by cases stats <;> decide)⟩
theorem witness_ScanNeverOverflowsCategory :
    State.reset.status.errCode ≠ 4#8 ∧ exec .encScan State.reset = .next (enterFault .config 1#32 State.reset) :=
  ⟨by decide, rfl⟩
/-- The first and the last index of the clauses on one buffer; divisors ready where they must be. -/
theorem witness_UnwrittenEntryStops :
    (Written State.reset.blk (64 * (5 : Fin 6).val) 0 ∧ tabGet State.reset.blk (64 * (5 : Fin 6).val + 0) = none) ∧
    (Written (fill 63 0#8) (64 * (0 : Fin 6).val) 63 ∧ tabGet (fill 63 0#8) (64 * (0 : Fin 6).val + 63) = none) ∧
    tabGet State.reset.qtab (64 * qselNumber .chroma + 0) = none ∧
    (tabGet State.reset.qcoef (zzOrder.getD 0 0) = none ∧ tabGet State.reset.zzbuf 0 = none) ∧
    ((∀ j < 63, (tabGet (fill 63 0#16) (zzOrder.getD j 0)).isSome = true) ∧
      tabGet (fill 63 0#16) (zzOrder.getD 63 0) = none) ∧
    ∀ tb, DivisorsReady tb { State.reset with qtab := fill 128 8#8, coef := fill 63 0#16 } :=
  ⟨by decide, by decide +kernel, by decide, by decide, by decide +kernel,
    fun tb => divisorsReady_fill _ 8#8 rfl (by decide) tb⟩
/-- ZZBUF[k] unwritten at k = 1 and at k = 63, in both passes. -/
theorem witness_UnwrittenEntryStops_zzbuf :
    ∀ st : Bool, ∀ k ∈ [1, 63], let s := { codable st with zzbuf := fill k 0#16 }
      1 ≤ k ∧ k < 64 ∧ Written s.zzbuf 0 k ∧ tabGet s.zzbuf k = none ∧ (dcDiff .y s).natAbs < 2048 ∧
      (∀ j < k, 1 ≤ j → (zzAt s j).natAbs < 1024) ∧ CountersReady .y s ∧ CodesReady .y s ∧ RoomFor 512 s := by
  intro st k hk
  simp only [List.mem_cons, List.mem_nil_iff, or_false] at hk
  rcases hk with rfl | rfl <;> cases st <;>
    exact ⟨by decide, by decide, by decide +kernel, by decide +kernel, by decide +kernel,
      by decide +kernel, countersReady_fill _ 0xFFFFFFFF#32 rfl .y,
      codesReady_fill _ ⟨0#16, 16#5⟩ rfl (by decide) (by decide) .y, room _ _ rfl (by decide)⟩
/-- The second symbol without an entry, in HUFF and in FREQ. -/
theorem witness_UnwrittenEntryStops_tables :
    let s := oneCoefficient false [(0, ⟨0#16, 1#5⟩)] []
    let s' := oneCoefficient true [(0, ⟨0#16, 1#5⟩)] [(0, 0#32)]
    (Codable .y s ∧ blockSyms .y s = [(0, 0, 0, 0)] ++ (1, 1, 1, 1) :: [(1, 0, 0, 0)] ∧ HasCode s 0 0 ∧
      tabGet s.huff (256 * 1 + 1) = none ∧ RoomFor 512 s) ∧
    (Codable .y s' ∧ blockSyms .y s' = [(0, 0, 0, 0)] ++ (1, 1, 1, 1) :: [(1, 0, 0, 0)] ∧
      (tabGet s'.freq (256 * 0 + 0)).isSome = true ∧ tabGet s'.freq (256 * 1 + 1) = none) :=
  have h := oneCoefficient_syms false _ (List.mem_cons_of_mem _ (List.mem_singleton_self _)) [] (by simp)
  have h' := oneCoefficient_syms true _ (List.mem_cons_of_mem _ (List.mem_singleton_self _)) [(0, 0#32)] (by simp)
  ⟨⟨h.1, h.2, ⟨⟨0#16, 1#5⟩, rfl, by decide, by decide⟩, rfl, room _ _ rfl (by decide)⟩, h'.1, h'.2, rfl, rfl⟩
/-- ENC_MCU and ENC_SCAN at the first and at the last divisor. -/
theorem witness_UnwrittenEntryStops_mcu :
    ∀ k ∈ [0, 63], let s := { ready 3074 with qtab := fill k 8#8 }
      k < 64 ∧ (∀ j < k, tabGet s.qtab j = some 8#8) ∧ tabGet s.qtab k = none ∧ configCheck true s = none ∧
      ReadsAnswered s ∧ configCheck false s = none ∧ FrameAnswered s := by
  intro k hk
  simp only [List.mem_cons, List.mem_nil_iff, or_false] at hk
  rcases hk with rfl | rfl <;>
    exact ⟨by decide, by decide +kernel, by decide +kernel, by decide, answered _ rfl, by decide,
      fun a _ => noErr _ .read a rfl⟩

end Sys2Proof.Tests
end

/-! PROOF. The steps of the register port, and the statements of 10_state.md about the state and its invariant. -/

namespace Sys2Proof.Machine

open Sys2Proof.Safety

/-! One step. -/

theorem step_nil {s : State} (h : s.inputs = []) : step s = engineStep s := by
  unfold step; rw [h]

theorem step_cons {s : State} {e : Event} {rest : List Event} (h : s.inputs = e :: rest) :
    step s = handleEvent e { s with inputs := rest } := by
  unfold step; rw [h]

theorem portTarget_word (off : BitVec 16) : portTarget off 32 = decodeOffset off.toNat := rfl

/-- A 32-bit write to an assigned offset is a write to its target (20_memory.md R71). -/
theorem step_regWrite {s : State} {off : BitVec 16} {w : Word} {rest : List Event} {tgt : Target}
    (h : s.inputs = .regWrite off 32 w :: rest) (hd : decodeOffset off.toNat = some tgt) :
    step s = .next (writeTarget w { s with inputs := rest } tgt) := by
  rw [step_cons h]
  simp only [handleEvent, regWrite, portTarget_word, hd]

/-- The two parts of a write to STATUS as one update: leaving the fault state and clearing the flags (R27, R255). -/
theorem writeStatus_eq (w : Word) (s : State) :
    writeStatus w s = { s with
      errInfo := if w.getLsbD 1 then 0#32 else s.errInfo
      status := ⟨s.status.busy, s.status.fault && !w.getLsbD 1, s.status.cmdRej && !w.getLsbD 2,
        s.status.wIgn && !w.getLsbD 3, if w.getLsbD 1 then 0#8 else s.status.errCode⟩ } := by
  unfold writeStatus
  cases w.getLsbD 1
  · simp
  · simp [clearFault]

/-- Settles O20: each write is the step of its target, STATUS by `writeStatus_eq` and the others as they stand. -/
theorem statusAndInterruptWrites : Obligations.StatusAndInterruptWrites := by
  unfold Obligations.StatusAndInterruptWrites
  intro s w rest
  refine ⟨fun h => ?_, fun h => ?_, fun h => ?_, fun h => ?_⟩
  · rw [step_regWrite (tgt := .reg .status) h rfl]
    simp only [writeTarget, writeStatus_eq]
  · exact step_regWrite (tgt := .reg .irqEn) h rfl
  · exact step_regWrite (tgt := .reg .irqStat) h rfl
  · rcases h with h | h
    · exact step_regWrite (tgt := .reg .id) h rfl
    · exact step_regWrite (tgt := .reg .errInfo) h rfl

/-! The words that stored values show (10_state.md R25 to R46). -/

theorem ctrlWord_ctrlOfWord (w : Word) : ctrlWord (ctrlOfWord w) = w &&& 0x0000007E#32 := by
  apply BitVec.eq_of_toNat_eq
  have hhalf : (w.toNat &&& 126) / 2 = w.toNat / 2 % 2 ^ 6 := by
    rw [← Nat.and_two_pow_sub_one_eq_mod, Nat.and_div_two]
  have heven : (w.toNat &&& 126) % 2 ^ 1 = 0 := by
    rw [Nat.and_mod_two_pow]; exact Nat.and_zero _
  simp [ctrlWord, ctrlOfWord, BitVec.getLsbD, Nat.toNat_testBit, Nat.shiftRight_eq_div_pow]
  omega

theorem frameWord_frameOfWord (w : Word) : frameWord (frameOfWord w) = w := by
  apply BitVec.eq_of_toNat_eq
  have := w.isLt
  simp [frameWord, frameOfWord, Nat.shiftRight_eq_div_pow]
  omega

theorem mcuPosWord_mcuPosOfWord (w : Word) : mcuPosWord (mcuPosOfWord w) = w := frameWord_frameOfWord w

theorem packWord_packOfWord (w : Word) : packWord (packOfWord w) =
    BitVec.ofNat 32 (w.toNat / 256 % 8 * 256 + w.toNat % 128 % 2 ^ (w.toNat / 256 % 8)) := by
  have hacc : w.toNat % 128 % 2 ^ (w.toNat / 256 % 8) < 128 :=
    lt_of_le_of_lt (Nat.mod_le _ _) (Nat.mod_lt _ (by norm_num))
  simp [packWord, packOfWord, packOf, Nat.shiftRight_eq_div_pow, Nat.mod_eq_of_lt hacc, Nat.add_comm]

theorem irqWord_irqOfWord (w : Word) : irqWord (irqOfWord w) = w &&& 0x00000003#32 := by
  apply BitVec.eq_of_toNat_eq
  have hlow : w.toNat &&& 3 = w.toNat % 2 ^ 2 := Nat.and_two_pow_sub_one_eq_mod _ 2
  simp [irqWord, irqOfWord, BitVec.getLsbD, Nat.toNat_testBit, hlow, -Nat.testBit_zero]
  omega

theorem byteWord_setWidth (w : Word) : byteWord (w.setWidth 8) = w &&& 0x000000FF#32 := by
  apply BitVec.eq_of_toNat_eq
  have hlow : w.toNat &&& 255 = w.toNat % 2 ^ 8 := Nat.and_two_pow_sub_one_eq_mod _ 8
  simp [byteWord, hlow]
  omega

theorem huffWord_huffOfWord (w : Word) : huffWord (huffOfWord w) = w &&& 0x001FFFFF#32 := by
  apply BitVec.eq_of_toNat_eq
  have hlow : w.toNat &&& 2097151 = w.toNat % 2 ^ 21 := Nat.and_two_pow_sub_one_eq_mod _ 21
  simp [huffWord, huffOfWord, Nat.shiftRight_eq_div_pow, hlow]
  omega

theorem halfWord_setWidth (w : Word) : halfWord (w.setWidth 16) = signedLow w := rfl

/-! Read after write. -/

theorem storeUnlessBusy_idle (w : Word) (tgt : Target) {s : State} (hidle : s.status.busy = false) :
    storeUnlessBusy w tgt s = store w s tgt := by
  rw [storeUnlessBusy, hidle]; rfl

@[simp] theorem store_status (w : Word) (s : State) (tgt : Target) : (store w s tgt).status = s.status := by
  cases tgt with
  | reg r => cases r <;> rfl
  | _ => rfl

@[simp] theorem store_inputs (w : Word) (s : State) (tgt : Target) : (store w s tgt).inputs = s.inputs := by
  cases tgt with
  | reg r => cases r <;> rfl
  | _ => rfl

/-- What a target shows depends on neither the events to come nor the last answer. -/
theorem readTarget_of_inputs_resp (s : State) (es : List Event) (r : PortResponse) (tgt : Target) :
    readTarget { s with inputs := es, resp := r } tgt = readTarget s tgt := by
  cases tgt with
  | reg r => cases r <;> rfl
  | _ => rfl

/-- CTRL alone has a bit that acts instead of being stored: SRST (R25, 70_reset_and_hazards.md R291). -/
theorem writeTarget_ctrl (w : Word) (s : State) : writeTarget w s (.reg .ctrl) =
    if w.getLsbD 0 then softReset s else { storeUnlessBusy w (.reg .ctrl) s with resp := .done } := rfl

/-- A written word is stored, if the block is idle: IRQEN apart, which takes it busy or idle (R35). -/
theorem writeTarget_eq_store {w v : Word} {s : State} {tgt : Target} (hidle : s.status.busy = false)
    (hv : storedWord w tgt = some v) (hctrl : tgt = .reg .ctrl → w.getLsbD 0 = false) (hirq : tgt ≠ .reg .irqEn) :
    writeTarget w s tgt = { store w s tgt with resp := .done } := by
  rw [← storeUnlessBusy_idle w tgt hidle]
  cases tgt with
  | reg r =>
    cases r with
    | ctrl => rw [writeTarget_ctrl, hctrl rfl]; rfl
    | irqEn => exact absurd rfl hirq
    | id | status | cmd | errInfo | irqStat => cases hv
    | _ => rfl
  | _ => rfl

/-- A stored word shows as its rule says, with one law of the word per kind of target. -/
theorem readTarget_store {w v : Word} (s : State) {tgt : Target} (hv : storedWord w tgt = some v)
    (hirq : tgt ≠ .reg .irqEn) : readTarget (store w s tgt) tgt = some v := by
  rw [← hv]
  cases tgt with
  | reg r =>
    cases r with
    | ctrl => exact congrArg some (ctrlWord_ctrlOfWord w)
    | frame => exact congrArg some (frameWord_frameOfWord w)
    | mcuPos => exact congrArg some (mcuPosWord_mcuPosOfWord w)
    | pack => exact congrArg some (packWord_packOfWord w)
    | irqEn => exact absurd rfl hirq
    | id | status | cmd | errInfo | irqStat => cases hv
    | src0 | src1 | src2 | stride | dstPtr | dstLim | dcPred0 | dcPred1 | dcPred2 => rfl
  | qtab k | blk k => simp [readTarget, store, storedWord, byteWord_setWidth]
  | huff k => simp [readTarget, store, storedWord, huffWord_huffOfWord]
  | freq k | coef k | qcoef k | zzbuf k => simp [readTarget, store, storedWord, halfWord_setWidth]

/-- An idle block that took a written word is still idle, has the same events to come, and shows the word. -/
theorem writeTarget_shows {w v : Word} {s : State} {tgt : Target} (hidle : s.status.busy = false)
    (hv : storedWord w tgt = some v) (hctrl : tgt = .reg .ctrl → w.getLsbD 0 = false) :
    (writeTarget w s tgt).status.busy = false ∧ (writeTarget w s tgt).inputs = s.inputs ∧
      readTarget (writeTarget w s tgt) tgt = some v := by
  by_cases hirq : tgt = .reg .irqEn
  · subst hirq
    exact ⟨hidle, rfl, hv ▸ congrArg some (irqWord_irqOfWord w)⟩
  · rw [writeTarget_eq_store hidle hv hctrl hirq]
    exact ⟨by rw [store_status, hidle], store_inputs w s tgt,
      (readTarget_of_inputs_resp _ _ _ tgt).trans (readTarget_store s hv hirq)⟩

/-- A 32-bit read of an assigned offset of an idle block answers the word its target shows. -/
theorem step_regRead_idle {s : State} {off : BitVec 16} {v : Word} {rest : List Event} {tgt : Target}
    (h : s.inputs = .regRead off 32 :: rest) (hidle : s.status.busy = false)
    (hd : decodeOffset off.toNat = some tgt) (hv : readTarget s tgt = some v) :
    step s = .next { s with inputs := rest, resp := .data v } := by
  rw [← readTarget_of_inputs_resp s rest s.resp] at hv
  rw [step_cons h]
  simp only [handleEvent, regRead, portTarget_word, hd]
  rw [runningFootprint_idle { s with inputs := rest } hidle, covers_none, hv]
  rfl

/-- Settles O19: the write leaves a state that shows the word, and the read answers what the state shows. -/
theorem writtenWordReadsBack : Obligations.WrittenWordReadsBack := by
  unfold Obligations.WrittenWordReadsBack
  intro s off w v rest tgt hidle hd hv hctrl h
  obtain ⟨hidle', hinputs, hshows⟩ :=
    writeTarget_shows (s := { s with inputs := .regRead off 32 :: rest }) hidle hv hctrl
  exact ⟨_, _, step_regWrite h hd, step_regRead_idle hinputs hidle' hd hshows, rfl, rfl⟩

/-! The invariant: the engine. -/

/-- Everything a body may change leaves the control state alone. -/
theorem controlInv_of_engineFrame {s u : State} (h : EngineFrame s u) (hi : ControlInv s) : ControlInv u := by
  obtain ⟨heq, -⟩ := h
  rw [heq]; exact hi

theorem controlInv_complete {s : State} (hi : ControlInv s) : ControlInv (complete s) := by
  obtain ⟨-, hnofault, hfault, -⟩ := hi
  exact ⟨by simp, hnofault, hfault, fun _ => ⟨rfl, rfl⟩⟩

theorem faultNumber_range (code : FaultCode) : 1 ≤ (faultNumber code).toNat ∧ (faultNumber code).toNat ≤ 7 := by
  cases code <;> decide

theorem controlInv_enterFault (code : FaultCode) (info : Word) (s : State) :
    ControlInv (enterFault code info s) :=
  ⟨by simp, by simp, fun _ => faultNumber_range code, fun _ => ⟨rfl, rfl⟩⟩

theorem controlInv_exec {i : Instr} {s t : State} (h : exec i s = .next t) (hi : ControlInv s) : ControlInv t := by
  rcases exec_next_cases i s t h with ⟨sub, -, rfl⟩ | ⟨u, hu, rfl⟩ | ⟨code, info, u, -, rfl⟩
  · exact controlInv_enterFault _ _ _
  · exact controlInv_complete (controlInv_of_engineFrame hu hi)
  · exact controlInv_enterFault _ _ _

theorem inv_engineStep {s t : State} (h : engineStep s = .next t) (hi : Safety.Inv s) : Safety.Inv t := by
  unfold engineStep at h
  split at h
  · split at h
    · exact ⟨exec_storage _ _ _ h hi.1, controlInv_exec h hi.2⟩
    · cases h
      exact ⟨hi.1, controlInv_enterFault _ _ _⟩
  · cases h
    exact hi

/-! The invariant: the resets. -/

/-- Freeing a footprint's tables is freeing a footprint that names no registers. -/
theorem storageInv_freeTables (fp : Footprint) (hfp : FootprintOk fp) (s : State) (hi : StorageInv s) :
    StorageInv (freeTables fp s) :=
  freeTables_storage { fp with preds := [], pack := false, mcuPos := false } hfp s hi

theorem storageInv_writePrefix (s t : State) (hi : StorageInv s) : StorageInv (writePrefix s t) := by
  obtain ⟨hmem, hrest⟩ := hi
  unfold writePrefix
  simp only
  split
  · exact ⟨hmem, hrest⟩
  · exact ⟨Memory.wf_copyBytes _ _ _ _ hmem, hrest⟩

theorem storageInv_abortRunning {s : State} (hi : StorageInv s) : StorageInv (abortRunning s) := by
  have hbytes : StorageInv (abortBytes s) := by
    unfold abortBytes
    split
    · exact hi
    · exact storageInv_writePrefix s _ hi
  unfold abortRunning
  split
  · exact hi
  · exact storageInv_freeTables _ (footprint_ok _ _) _ hbytes

theorem controlInv_reset : ControlInv State.reset := by
  unfold ControlInv; decide

theorem inv_resetRegisters {s : State} (hi : StorageInv s) : Safety.Inv (resetRegisters s) := by
  obtain ⟨hmem, hqtab, hhuff, hfreq, hblk, hcoef, hqcoef, hzzbuf, -⟩ := hi
  exact ⟨⟨hmem, hqtab, hhuff, hfreq, hblk, hcoef, hqcoef, hzzbuf, Nat.zero_lt_one⟩, controlInv_reset⟩

theorem inv_forgetTables {s : State} (hi : Safety.Inv s) : Safety.Inv (forgetTables s) := by
  obtain ⟨⟨hmem, -, -, -, -, -, -, -, hpack⟩, hcontrol⟩ := hi
  exact ⟨⟨hmem, tabWf_nil _, tabWf_nil _, tabWf_nil _, tabWf_nil _, tabWf_nil _, tabWf_nil _, tabWf_nil _, hpack⟩,
    hcontrol⟩

theorem inv_softReset {s : State} (hi : StorageInv s) : Safety.Inv (softReset s) := by
  have hreset : Safety.Inv (resetRegisters (abortRunning s)) := inv_resetRegisters (storageInv_abortRunning hi)
  exact hreset

theorem inv_hardReset {s : State} (hi : StorageInv s) : Safety.Inv (hardReset s) :=
  inv_forgetTables (inv_resetRegisters (storageInv_abortRunning hi))

/-! The invariant: the register port and external memory. -/

/-- The index of a target lies in its region (10_state.md R40 to R46). -/
def Target.InRange : Target → Prop
  | .reg _ => True
  | .qtab k => k < 128
  | .huff k => k < 1024
  | .freq k => k < 1024
  | .blk k => k < 384
  | .coef k => k < 64
  | .qcoef k => k < 64
  | .zzbuf k => k < 64

/-- Whatever an offset names is in range. -/
def NamesInRange (o : Option Target) : Prop := ∀ tgt, o = some tgt → tgt.InRange

theorem namesInRange_none : NamesInRange none := fun _ h => nomatch h

theorem namesInRange_some {tgt : Target} (h : tgt.InRange) : NamesInRange (some tgt) :=
  fun _ heq => Option.some.inj heq ▸ h

theorem namesInRange_register (i : Nat) : NamesInRange ((registerMap[i]?).map Target.reg) := by
  intro tgt h
  obtain ⟨r, -, rfl⟩ := Option.map_eq_some_iff.1 h
  exact True.intro

theorem namesInRange_ite {p : Prop} [Decidable p] {x y : Option Target} (hx : p → NamesInRange x)
    (hy : ¬ p → NamesInRange y) : NamesInRange (if p then x else y) :=
  iteInduction (motive := NamesInRange) hx hy

/-- One case per line of the memory map (10_state.md R23, R47): a region's last index lies below its size. -/
theorem namesInRange_decodeOffset (off : Nat) : NamesInRange (decodeOffset off) := by
  unfold decodeOffset
  refine namesInRange_ite (fun _ => namesInRange_none) fun _ => ?_
  refine namesInRange_ite (fun _ => namesInRange_register _) fun _ => ?_
  refine namesInRange_ite (fun _ => namesInRange_some (show _ < 128 by omega)) fun _ => ?_
  refine namesInRange_ite (fun _ => namesInRange_none) fun _ => ?_
  refine namesInRange_ite (fun _ => namesInRange_some (show _ < 1024 by omega)) fun _ => ?_
  refine namesInRange_ite (fun _ => namesInRange_some (show _ < 1024 by omega)) fun _ => ?_
  refine namesInRange_ite (fun _ => namesInRange_some (show _ < 384 by omega)) fun _ => ?_
  refine namesInRange_ite (fun _ => namesInRange_none) fun _ => ?_
  refine namesInRange_ite (fun _ => namesInRange_some (show _ < 64 by omega)) fun _ => ?_
  refine namesInRange_ite (fun _ => namesInRange_some (show _ < 64 by omega)) fun _ => ?_
  exact namesInRange_ite (fun _ => namesInRange_some (show _ < 64 by omega)) fun _ => namesInRange_none

theorem storageInv_store {w : Word} {s : State} {tgt : Target} (hr : tgt.InRange) (hi : StorageInv s) :
    StorageInv (store w s tgt) := by
  obtain ⟨hmem, hqtab, hhuff, hfreq, hblk, hcoef, hqcoef, hzzbuf, hpack⟩ := hi
  cases tgt with
  | reg r =>
    cases r with
    | pack => exact ⟨hmem, hqtab, hhuff, hfreq, hblk, hcoef, hqcoef, hzzbuf, packOfWord_inv w⟩
    | _ => exact ⟨hmem, hqtab, hhuff, hfreq, hblk, hcoef, hqcoef, hzzbuf, hpack⟩
  | qtab k => exact ⟨hmem, tabWf_tabSet _ _ _ _ hr hqtab, hhuff, hfreq, hblk, hcoef, hqcoef, hzzbuf, hpack⟩
  | huff k => exact ⟨hmem, hqtab, tabWf_tabSet _ _ _ _ hr hhuff, hfreq, hblk, hcoef, hqcoef, hzzbuf, hpack⟩
  | freq k => exact ⟨hmem, hqtab, hhuff, tabWf_tabSet _ _ _ _ hr hfreq, hblk, hcoef, hqcoef, hzzbuf, hpack⟩
  | blk k => exact ⟨hmem, hqtab, hhuff, hfreq, tabWf_tabSet _ _ _ _ hr hblk, hcoef, hqcoef, hzzbuf, hpack⟩
  | coef k => exact ⟨hmem, hqtab, hhuff, hfreq, hblk, tabWf_tabSet _ _ _ _ hr hcoef, hqcoef, hzzbuf, hpack⟩
  | qcoef k => exact ⟨hmem, hqtab, hhuff, hfreq, hblk, hcoef, tabWf_tabSet _ _ _ _ hr hqcoef, hzzbuf, hpack⟩
  | zzbuf k => exact ⟨hmem, hqtab, hhuff, hfreq, hblk, hcoef, hqcoef, tabWf_tabSet _ _ _ _ hr hzzbuf, hpack⟩

theorem controlInv_store {w : Word} {s : State} {tgt : Target} (hi : ControlInv s) : ControlInv (store w s tgt) := by
  cases tgt with
  | reg r => cases r <;> exact hi
  | _ => exact hi

theorem inv_storeUnlessBusy {w : Word} {s : State} {tgt : Target} (hr : tgt.InRange) (hi : Safety.Inv s) :
    Safety.Inv (storeUnlessBusy w tgt s) := by
  unfold storeUnlessBusy
  split
  · exact hi
  · exact ⟨storageInv_store hr hi.1, controlInv_store hi.2⟩

/-- An accepted write to CMD sets BUSY only where neither BUSY nor FAULT was 1. -/
theorem inv_submit {w : Word} {s : State} (hi : Safety.Inv s) : Safety.Inv (submit w s) := by
  unfold submit
  split
  · exact hi
  · next hfree =>
    obtain ⟨hstorage, -, hnofault, hfault, -⟩ := hi
    obtain ⟨-, hf⟩ : s.status.busy = false ∧ s.status.fault = false := by simpa using hfree
    exact ⟨hstorage, by simp [hf], hnofault, hfault, by simp⟩

theorem inv_writeStatus {w : Word} {s : State} (hi : Safety.Inv s) : Safety.Inv (writeStatus w s) := by
  unfold writeStatus
  cases w.getLsbD 1 with
  | false => exact hi
  | true =>
    obtain ⟨hstorage, -, -, -, hraces⟩ := hi
    exact ⟨hstorage, by simp, by simp, by simp, hraces⟩

theorem inv_writeTarget {w : Word} {s : State} {tgt : Target} (hr : tgt.InRange) (hi : Safety.Inv s) :
    Safety.Inv (writeTarget w s tgt) := by
  cases tgt with
  | reg r =>
    cases r with
    | status => exact inv_writeStatus hi
    | cmd => exact inv_submit hi
    | ctrl =>
      rw [writeTarget_ctrl]
      split
      · exact inv_softReset hi.1
      · exact inv_storeUnlessBusy hr hi
    | id | errInfo | irqEn | irqStat => exact hi
    | _ => exact inv_storeUnlessBusy hr hi
  | _ => exact inv_storeUnlessBusy hr hi

theorem inv_regWrite {off : BitVec 16} {width : Nat} {w : Word} {s : State} (hi : Safety.Inv s) :
    Safety.Inv (regWrite off width w s) := by
  unfold regWrite portTarget
  by_cases hw : width = 32
  · rw [if_pos hw]
    split
    · exact hi
    · next hd => exact inv_writeTarget (namesInRange_decodeOffset _ _ hd) hi
  · rw [if_neg hw]
    exact hi

/-- A register-port read changes nothing but its answer and the count of free values (20_memory.md R71). -/
theorem regRead_eq (off : BitVec 16) (width : Nat) (s : State) :
    ∃ n r, regRead off width s = { s with resp := r, draws := s.draws + n } := by
  unfold regRead
  split
  · exact ⟨0, _, rfl⟩
  · split
    · exact ⟨1, _, rfl⟩
    · split
      · exact ⟨0, _, rfl⟩
      · exact ⟨1, _, rfl⟩

/-- A direct read changes nothing but its answer and the count of free values (20_memory.md R75). -/
theorem hostMemRead_eq (a : Word) (s : State) :
    ∃ n r, hostMemRead a s = { s with resp := r, draws := n } := by
  unfold hostMemRead
  split
  · exact ⟨s.draws, _, rfl⟩
  · split
    · exact ⟨_, _, rfl⟩
    · exact ⟨s.draws, _, rfl⟩

/-- A direct write marks a race only beside a running command. -/
theorem inv_hostMemWrite {a : Word} {b : Byte} {s : State} (hi : Safety.Inv s) : Safety.Inv (hostMemWrite a b s) := by
  obtain ⟨⟨hmem, hrest⟩, hexcl, hnofault, hfault, hraces⟩ := hi
  refine ⟨⟨Memory.wf_write _ _ _ a.isLt hmem, hrest⟩, hexcl, hnofault, hfault, fun hidle => ?_⟩
  replace hidle : s.status.busy = false := hidle
  simpa [hostMemWrite, hidle] using hraces hidle

theorem inv_handleEvent {e : Event} {s t : State} (h : handleEvent e s = .next t) (hi : Safety.Inv s) :
    Safety.Inv t := by
  cases e with
  | regWrite off width w => cases h; exact inv_regWrite hi
  | regRead off width =>
    obtain ⟨n, r, heq⟩ := regRead_eq off width s
    cases h
    rw [heq]; exact hi
  | memWrite a b => cases h; exact inv_hostMemWrite hi
  | memRead a =>
    obtain ⟨n, r, heq⟩ := hostMemRead_eq a s
    cases h
    rw [heq]; exact hi
  | hardReset => cases h; exact inv_hardReset hi.1
  | engine => exact inv_engineStep h hi

/-- Settles O11: the engine and every event of the host and the platform keep the invariant. -/
theorem invariantKept : Obligations.InvariantKept := by
  unfold Obligations.InvariantKept
  intro s t hi h
  cases hin : s.inputs with
  | nil => exact inv_engineStep (step_nil hin ▸ h) hi
  | cons e rest => exact inv_handleEvent (s := { s with inputs := rest }) (step_cons hin ▸ h) hi

end Sys2Proof.Machine

/-! PROOF. The register port's error answers and reads, and direct access to external memory (20_memory.md). -/

namespace Sys2Proof.Machine

open Sys2Proof.Safety

/-! Register-port transactions that end in an error response (R72). -/

theorem registerMap_ended {off : Nat} (h : 0x04C ≤ off) : (registerMap[off / 4]?).map Target.reg = none := by
  have hlen : registerMap.length ≤ off / 4 := by
    rw [show registerMap.length = 19 from rfl]
    omega
  rw [List.getElem?_eq_none hlen]
  rfl

theorem decodeOffset_misaligned {off : Nat} (h : off % 4 ≠ 0) : decodeOffset off = none := if_pos h

/-- One case per gap of the memory map (10_state.md R37, R47). -/
theorem decodeOffset_reserved {off : Nat} (h : ReservedOffset off) : decodeOffset off = none := by
  by_cases hal : off % 4 = 0
  · unfold decodeOffset
    rw [if_neg (not_not_intro hal)]
    rcases h with ⟨hlo, hhi⟩ | ⟨hlo, hhi⟩ | ⟨hlo, hhi⟩ | hlo
    · rw [if_pos hhi, registerMap_ended hlo]
    · simp (disch := omega) only [if_neg, if_pos]
    · simp (disch := omega) only [if_neg, if_pos]
    · simp (disch := omega) only [if_neg]
  · exact decodeOffset_misaligned hal

theorem portTarget_none {off : BitVec 16} {width : Nat}
    (h : off.toNat % 4 ≠ 0 ∨ ReservedOffset off.toNat ∨ width ≠ 32) : portTarget off width = none := by
  unfold portTarget
  split
  · next hw =>
    rcases h with hal | hres | hne
    · exact decodeOffset_misaligned hal
    · exact decodeOffset_reserved hres
    · exact absurd hw hne
  · rfl

theorem regWrite_no_target {off : BitVec 16} {width : Nat} (w : Word) (s : State) (h : portTarget off width = none) :
    regWrite off width w s = { s with resp := .busError } := by
  rw [regWrite, h]

theorem regRead_no_target {off : BitVec 16} {width : Nat} (s : State) (h : portTarget off width = none) :
    regRead off width s = { s with resp := .busError } := by
  rw [regRead, h]

/-- Settles O17: such a transaction names no target. -/
theorem portErrorResponse : Obligations.PortErrorResponse := by
  unfold Obligations.PortErrorResponse
  intro s off width w rest hbad
  have hnone := portTarget_none hbad
  refine ⟨fun h => ?_, fun h => ?_⟩
  · rw [step_cons h, handleEvent, regWrite_no_target w _ hnone]
  · rw [step_cons h, handleEvent, regRead_no_target _ hnone]

/-! Register-port reads (R71). -/

/-- A read of what no running command writes and holds a value answers that value (70_reset_and_hazards.md R301). -/
theorem regRead_value {off : BitVec 16} {s : State} {tgt : Target} {v : Word} (hd : decodeOffset off.toNat = some tgt)
    (hfree : covers (runningFootprint s) tgt = false) (hv : readTarget s tgt = some v) :
    regRead off 32 s = { s with resp := .data v } := by
  rw [regRead, portTarget_word, hd]
  simp only [hfree, hv, Bool.false_eq_true, if_false]

/-- Settles O18: `regRead_eq` gives the frame, and where `regRead_value` applies the two forms of the next state
agree. -/
theorem portReadsChangeNothing : Obligations.PortReadsChangeNothing := by
  unfold Obligations.PortReadsChangeNothing
  intro s off width rest h
  obtain ⟨n, r, heq⟩ := regRead_eq off width { s with inputs := rest }
  refine ⟨n, r, by rw [step_cons h, handleEvent, heq], ?_⟩
  rintro tgt v rfl hd hfree hv
  rw [← readTarget_of_inputs_resp s rest s.resp] at hv
  have hvalue := regRead_value (s := { s with inputs := rest }) hd hfree hv
  have hsame := heq.symm.trans hvalue
  have hdraws : s.draws + n = s.draws := congrArg State.draws hsame
  exact ⟨by omega, congrArg State.resp hsame⟩

/-! Direct access to external memory (R75, R87, 70_reset_and_hazards.md R301, R302). -/

/-- Marking one address adds that address and no other. -/
theorem inRanges_cons_single (rs : List AddrRange) (a x : Nat) :
    inRanges (⟨a, a + 1⟩ :: rs) x = (inRanges rs x || decide (x = a)) := by
  have hsingle : (decide (a ≤ x) && decide (x < a + 1)) = decide (x = a) := by
    rw [← Bool.decide_and]
    exact decide_eq_decide.2 (by omega)
  rw [inRanges, List.any_cons, hsingle, Bool.or_comm]
  rfl

/-- A direct write marks its address exactly while a command runs. -/
theorem inRanges_mark_if (busy : Bool) (rs : List AddrRange) (a x : Nat) :
    inRanges (if busy then ⟨a, a + 1⟩ :: rs else rs) x = (inRanges rs x || (busy && decide (x = a))) := by
  cases busy with
  | false => simp
  | true => simpa using inRanges_cons_single rs a x

/-- The free values after a fault leave DSTPTR exact (60_exceptions.md R253(c)). -/
theorem freed_dstPtr (fp : Footprint) (s : State) : (freeRegisters fp (freeTables fp s)).dstPtr = s.dstPtr := by
  rw [(free_frame fp s).1]

/-- The bytes that a command is taken to write end where exec leaves DSTPTR. -/
theorem outputOf_dstPtr {i : Instr} {s u : State} (h : exec i s = .next u) : (outputOf i s).dstPtr = u.dstPtr := by
  cases hc : checkOf i s with
  | some sub =>
    rw [exec_eq, hc] at h
    cases h
    simp only [outputOf, runOf, hc]
    rfl
  | none =>
    rw [exec_eq_finish i s hc] at h
    rcases finish_cases _ _ _ h with ⟨t, hrun, rfl⟩ | ⟨code, info, t, hrun, rfl⟩
    · rw [outputOf, hrun]
      rfl
    · rw [outputOf, hrun]
      exact (freed_dstPtr _ t).symm

theorem running_accepted {s : State} {i : Instr} (hbusy : s.status.busy = true) (hd : decode s.lastCmd = .ok i) :
    running s = some i := by
  rw [running, if_pos hbusy, hd]

/-- The bytes to come, if any, are those of the accepted command. -/
theorem runningOutput_eq {s t : State} {i : Instr} (h : runningOutput s = some t) (hd : decode s.lastCmd = .ok i) :
    t = outputOf i s := by
  rw [runningOutput] at h
  cases hbusy : s.status.busy with
  | false => rw [running_idle s hbusy] at h; cases h
  | true =>
    rw [running_accepted hbusy hd] at h
    simp only at h
    split at h
    · exact (Option.some.inj h).symm
    · cases h

/-- What a direct read can answer: the byte in memory, or a free value for a byte the running command is going to
write. -/
theorem hostMemRead_cases (a : Word) (s : State) :
    hostMemRead a s = { s with resp := .byte (Memory.read s.mem a.toNat) } ∨
    ∃ t, runningOutput s = some t ∧ (s.dstPtr ≤ a ∧ a < t.dstPtr) ∧
      hostMemRead a s = { s with resp := .byte ((Config.free t.draws).setWidth 8), draws := t.draws + 1 } := by
  unfold hostMemRead
  split
  · exact .inl rfl
  · next t ht =>
    split
    · next hwritten => exact .inr ⟨t, ht, hwritten, rfl⟩
    · exact .inl rfl

/-- Settles O21: a write by the laws of memory and of the marks; a read by cases on its answer, where a free value
contradicts both of the statement's conditions. -/
theorem hostMemoryAccess : Obligations.HostMemoryAccess := by
  unfold Obligations.HostMemoryAccess
  intro s a rest
  refine ⟨fun b h => ?_, fun h => ?_⟩
  · exact ⟨hostMemWrite a b { s with inputs := rest }, step_cons h, rfl, Memory.read_write_same _ _ _,
      fun x hx => Memory.read_write_ne _ _ _ _ hx,
      fun x => ⟨inRanges_mark_if _ _ _ x, inRanges_mark_if _ _ _ x⟩⟩
  · have hstep : step s = .next (hostMemRead a { s with inputs := rest }) := step_cons h
    rcases hostMemRead_cases a { s with inputs := rest } with hplain | ⟨t, hout, hwritten, hfree⟩
    · exact ⟨_, _, hplain ▸ hstep, rfl, fun _ => rfl, fun _ _ _ _ _ => rfl⟩
    · refine ⟨_, _, hfree ▸ hstep, rfl, fun hnone => ?_, fun i u hd hexec houtside => ?_⟩
      · rw [runningOutput_none { s with inputs := rest } hnone] at hout
        cases hout
      · rw [runningOutput_eq hout hd, outputOf_dstPtr hexec] at hwritten
        exact absurd hwritten houtside

end Sys2Proof.Machine

/-! PROOF. The decoder as a relation between words and commands, and the statements of 30_encoding.md about it. -/

namespace Sys2Proof

open Sys2Proof.Safety

/-! Fields of a word (R102). -/

/-- A field of a word as a number. -/
theorem toNat_field (w : Word) (lo len : Nat) : (w.extractLsb' lo len).toNat = w.toNat / 2 ^ lo % 2 ^ len := by
  rw [BitVec.extractLsb'_toNat, Nat.shiftRight_eq_div_pow]

/-- With k bits of operand above the opcode and the rest reserved, a word is its operand and its opcode. -/
theorem eq_ofNat_of_fields {w : Word} {op : Byte} {k : Nat} {f : BitVec k} (hk : k ≤ 24) (hop : opcodeOf w = op)
    (hf : w.extractLsb' 8 k = f) (hres : w.extractLsb' (8 + k) (24 - k) = 0#(24 - k)) :
    w = BitVec.ofNat 32 (f.toNat * 2 ^ 8 + op.toNat) := by
  have hlow : op.toNat = w.toNat % 2 ^ 8 := by rw [← hop, opcodeOf, toNat_field, pow_zero, Nat.div_one]
  have hhigh : w.toNat / 2 ^ 8 / 2 ^ k = 0 := by
    have hlt : w.toNat / 2 ^ (8 + k) < 2 ^ (24 - k) := by
      rw [Nat.div_lt_iff_lt_mul (by positivity), ← pow_add, show 24 - k + (8 + k) = 32 by omega]
      exact w.isLt
    have hzero := congrArg BitVec.toNat hres
    rwa [toNat_field, Nat.mod_eq_of_lt hlt, pow_add, ← Nat.div_div_eq_div_mul] at hzero
  have hfield : f.toNat = w.toNat / 2 ^ 8 := by
    rw [← hf, toNat_field, Nat.mod_eq_of_lt ((Nat.div_eq_zero_iff_lt (by positivity)).1 hhigh)]
  rw [hfield, hlow, Nat.div_add_mod', BitVec.ofNat_toNat, BitVec.setWidth_eq]

/-- A field of the low half is the same in words with the same low half. -/
theorem field_of_low_half {w w' : Word} (h : w.extractLsb' 0 16 = w'.extractLsb' 0 16) {lo len : Nat}
    (hle : lo + len ≤ 16) : w.extractLsb' lo len = w'.extractLsb' lo len := by
  have hsub : ∀ x : Word, x.extractLsb' lo len = (x.extractLsb' 0 16).extractLsb' lo len := fun x => by
    ext i hi
    simp [show lo + i < 16 by omega]
  rw [hsub w, hsub w', h]

/-- A mask of the low half sees the low half only. -/
theorem and_low_half (w : Word) (m : Half) :
    w &&& m.setWidth 32 = (w.extractLsb' 0 16 &&& m).setWidth 32 := by
  ext i hi
  by_cases h16 : i < 16
  · simp [h16, BitVec.getLsbD_eq_getElem hi]
  · simp [BitVec.getLsbD_of_ge _ _ (not_lt.1 h16)]

/-- A mask that covers a field tells its value. -/
theorem field_of_mask {w m p : Word} (lo len : Nat) (h : w &&& m = p)
    (hm : m.extractLsb' lo len = BitVec.allOnes len) : w.extractLsb' lo len = p.extractLsb' lo len := by
  rw [← h, BitVec.extractLsb'_and, hm, BitVec.and_allOnes]

/-! What it is for a word to encode a command. -/

/-- The word encodes the command (R102 to R107): it is the encoder's word; for PUTBITS, whose operands must be
legal, only the low half must be the encoder's, and V counts modulo 2^N. -/
def Encodes (w : Word) : Instr → Prop
  | .putbits v n => (Instr.putbits v n).wf = true ∧
      w.extractLsb' 0 16 = (encode (.putbits v n)).extractLsb' 0 16 ∧
      v.toNat = (w.extractLsb' 16 16).toNat % 2 ^ n.toNat
  | i => w = encode i

theorem encodes_iff_of_not_putbits {w : Word} {i : Instr} (hi : ∀ v n, i ≠ .putbits v n) :
    Encodes w i ↔ w = encode i := by
  cases i with
  | putbits v n => exact absurd rfl (hi v n)
  | _ => rfl

theorem Encodes.wf {w : Word} {i : Instr} (h : Encodes w i) : i.wf = true := by
  cases i with
  | putbits v n => exact h.1
  | _ => rfl

theorem wf_putbits_iff (v : Half) (n : BitVec 5) :
    (Instr.putbits v n).wf = true ↔ 1 ≤ n.toNat ∧ n.toNat ≤ 16 ∧ v.toNat < 2 ^ n.toNat := by
  simp [Instr.wf, and_assoc]

theorem toNat_lowBits (v : Half) (n : Nat) : (lowBits v n).toNat = v.toNat % 2 ^ n := by
  rw [lowBits, BitVec.toNat_ofNat, Nat.mod_eq_of_lt (lt_of_le_of_lt (Nat.mod_le _ _) v.isLt)]

/-- The three fields of the encoder's PUTBITS word lie side by side. -/
theorem toNat_encode_putbits (v : Half) (n : BitVec 5) :
    (encode (.putbits v n)).toNat = v.toNat % 2 ^ n.toNat * 2 ^ 16 + n.toNat * 2 ^ 8 + 0x31 := by
  have hv : v.toNat % 2 ^ n.toNat < 2 ^ 16 := lt_of_le_of_lt (Nat.mod_le _ _) v.isLt
  have hn := n.isLt
  rw [encode, BitVec.toNat_ofNat]
  omega

/-- The fields of the encoder's PUTBITS word: OP, the reserved bits and N. -/
theorem encode_putbits_fields (v : Half) (n : BitVec 5) :
    opcodeOf (encode (.putbits v n)) = 0x31#8 ∧ (encode (.putbits v n)).extractLsb' 13 3 = 0#3 ∧
    (encode (.putbits v n)).extractLsb' 8 5 = n := by
  have hn := n.isLt
  have hword := toNat_encode_putbits v n
  refine ⟨?_, ?_, ?_⟩ <;> apply BitVec.eq_of_toNat_eq
  · rw [opcodeOf, toNat_field, hword, BitVec.toNat_ofNat]; omega
  · rw [toNat_field, hword, BitVec.toNat_ofNat]; omega
  · rw [toNat_field, hword]; omega

/-- The encoder's word of a well-formed command encodes it. -/
theorem encodes_encode {i : Instr} (hwf : i.wf = true) : Encodes (encode i) i := by
  cases i with
  | putbits v n =>
    obtain ⟨-, -, hv⟩ := (wf_putbits_iff v n).1 hwf
    have hfield : ((encode (.putbits v n)).extractLsb' 16 16).toNat = v.toNat := by
      have := v.isLt
      have := n.isLt
      rw [toNat_field, toNat_encode_putbits, Nat.mod_eq_of_lt hv]
      omega
    exact ⟨hwf, rfl, by rw [hfield, Nat.mod_eq_of_lt hv]⟩
  | _ => rfl

/-! What the decoder accepts, it accepts as a command the word encodes. -/

/-- Whatever command the answer holds, the word encodes it. -/
def AnswersEncoded (w : Word) (r : Except DecodeError Instr) : Prop := ∀ i, r = .ok i → Encodes w i

theorem answersEncoded_error (w : Word) (e : DecodeError) : AnswersEncoded w (.error e) := fun _ h => nomatch h

theorem answersEncoded_ok {w : Word} {i : Instr} (h : Encodes w i) : AnswersEncoded w (.ok i) :=
  fun _ heq => Except.ok.inj heq ▸ h

theorem answersEncoded_ite {p : Prop} [Decidable p] {w : Word} {x y : Except DecodeError Instr}
    (hx : p → AnswersEncoded w x) (hy : ¬ p → AnswersEncoded w y) : AnswersEncoded w (if p then x else y) :=
  iteInduction (motive := AnswersEncoded w) hx hy

theorem answersEncoded_formatZ {w : Word} {i : Instr} {op : Byte} (hop : opcodeOf w = op)
    (h : w = BitVec.ofNat 32 op.toNat → Encodes w i) : AnswersEncoded w (formatZ w i) := by
  refine answersEncoded_ite (fun hres => answersEncoded_ok (h ?_)) fun _ => answersEncoded_error _ _
  simpa [BitVec.of_length_zero] using eq_ofNat_of_fields (k := 0) (by norm_num) hop rfl hres

theorem answersEncoded_formatB {w : Word} (hop : opcodeOf w = 0x20#8) : AnswersEncoded w (formatB w) := by
  refine answersEncoded_ite (fun _ => answersEncoded_error _ _) fun hres => ?_
  split
  · exact answersEncoded_ok (eq_ofNat_of_fields (k := 3) (by norm_num) hop rfl (not_not.1 hres))
  · exact answersEncoded_error _ _

theorem answersEncoded_formatT {w : Word} (hop : opcodeOf w = 0x21#8) : AnswersEncoded w (formatT w) := by
  refine answersEncoded_ite (fun _ => answersEncoded_error _ _) fun hres => answersEncoded_ok ?_
  have hword : ∀ f, w.extractLsb' 8 1 = f → w = BitVec.ofNat 32 (f.toNat * 2 ^ 8 + 0x21) := fun f hf =>
    eq_ofNat_of_fields (k := 1) (by norm_num) hop hf (not_not.1 hres)
  split
  · next hT => exact (hword _ hT).trans (by decide)
  · next hT => exact (hword _ ((BitVec.eq_zero_or_eq_one _).resolve_left hT)).trans (by decide)

theorem answersEncoded_formatC {w : Word} (hop : opcodeOf w = 0x30#8) : AnswersEncoded w (formatC w) := by
  refine answersEncoded_ite (fun _ => answersEncoded_error _ _) fun hres => ?_
  have hword : ∀ f, w.extractLsb' 8 2 = f → w = BitVec.ofNat 32 (f.toNat * 2 ^ 8 + 0x30) := fun f hf =>
    eq_ofNat_of_fields (k := 2) (by norm_num) hop hf (not_not.1 hres)
  refine answersEncoded_ite (fun hC => answersEncoded_ok ((hword _ hC).trans (by decide))) fun _ => ?_
  refine answersEncoded_ite (fun hC => answersEncoded_ok ((hword _ hC).trans (by decide))) fun _ => ?_
  exact answersEncoded_ite (fun hC => answersEncoded_ok ((hword _ hC).trans (by decide))) fun _ =>
    answersEncoded_error _ _

theorem answersEncoded_formatP {w : Word} (hop : opcodeOf w = 0x31#8) : AnswersEncoded w (formatP w) := by
  refine answersEncoded_ite (fun _ => answersEncoded_error _ _) fun hres => ?_
  refine answersEncoded_ite (fun hN => answersEncoded_ok ⟨?_, ?_, toNat_lowBits _ _⟩) fun _ =>
    answersEncoded_error _ _
  · exact (wf_putbits_iff _ _).2 ⟨hN.1, hN.2, toNat_lowBits _ _ ▸ Nat.mod_lt _ (by positivity)⟩
  · have hlow := congrArg BitVec.toNat hop
    have hmid := congrArg BitVec.toNat (not_not.1 hres)
    rw [opcodeOf, toNat_field, BitVec.toNat_ofNat] at hlow
    rw [toNat_field, BitVec.toNat_ofNat] at hmid
    apply BitVec.eq_of_toNat_eq
    rw [toNat_field, toNat_field, toNat_encode_putbits, toNat_field w 8 5]
    omega

/-- One case per row of the opcode table (R105). -/
theorem encodes_of_decode {w : Word} {i : Instr} (h : decode w = .ok i) : Encodes w i := by
  suffices hall : AnswersEncoded w (decode w) from hall i h
  unfold decode
  refine answersEncoded_ite (fun hop => answersEncoded_formatZ hop id) fun _ => ?_
  refine answersEncoded_ite (fun hop => answersEncoded_formatZ hop id) fun _ => ?_
  refine answersEncoded_ite (fun hop => answersEncoded_formatZ hop id) fun _ => ?_
  refine answersEncoded_ite (fun hop => answersEncoded_formatZ hop id) fun _ => ?_
  refine answersEncoded_ite (fun hop => answersEncoded_formatB hop) fun _ => ?_
  refine answersEncoded_ite (fun hop => answersEncoded_formatT hop) fun _ => ?_
  refine answersEncoded_ite (fun hop => answersEncoded_formatZ hop id) fun _ => ?_
  refine answersEncoded_ite (fun hop => answersEncoded_formatC hop) fun _ => ?_
  refine answersEncoded_ite (fun hop => answersEncoded_formatP hop) fun _ => ?_
  refine answersEncoded_ite (fun hop => answersEncoded_formatZ hop id) fun _ => ?_
  refine answersEncoded_ite (fun hop => answersEncoded_formatZ hop id) fun _ => ?_
  refine answersEncoded_ite (fun hop => answersEncoded_formatZ hop id) fun _ => ?_
  exact answersEncoded_error _ _

/-! The decoder accepts every word that encodes a command. -/

/-- The opcode selects the format (R102, R105). -/
theorem decode_of_opcode (w : Word) :
    (opcodeOf w = 0x20#8 → decode w = formatB w) ∧ (opcodeOf w = 0x21#8 → decode w = formatT w) ∧
    (opcodeOf w = 0x30#8 → decode w = formatC w) ∧ (opcodeOf w = 0x31#8 → decode w = formatP w) := by
  refine ⟨fun hop => ?_, fun hop => ?_, fun hop => ?_, fun hop => ?_⟩ <;> simp [decode, hop]

theorem decode_of_encodes {w : Word} {i : Instr} (h : Encodes w i) : decode w = .ok i := by
  cases i with
  | fdct b => rw [show w = encode (.fdct b) from h]; clear h; revert b; decide
  | quant t => rw [show w = encode (.quant t) from h]; cases t <;> decide
  | encBlock c => rw [show w = encode (.encBlock c) from h]; cases c <;> decide
  | putbits v n =>
    obtain ⟨hwf, hlow, hv⟩ := h
    obtain ⟨hop, hres, hN⟩ := encode_putbits_fields v n
    obtain ⟨hn1, hn16, -⟩ := (wf_putbits_iff v n).1 hwf
    replace hop : opcodeOf w = 0x31#8 := (field_of_low_half hlow (by norm_num)).trans hop
    replace hres : w.extractLsb' 13 3 = 0#3 := (field_of_low_half hlow (by norm_num)).trans hres
    replace hN : w.extractLsb' 8 5 = n := (field_of_low_half hlow (by norm_num)).trans hN
    have hpat : lowBits (w.extractLsb' 16 16) n.toNat = v := BitVec.eq_of_toNat_eq (by rw [toNat_lowBits, hv])
    rw [(decode_of_opcode w).2.2.2 hop, formatP, if_neg (not_not_intro hres), hN, if_pos ⟨hn1, hn16⟩, hpat]
  | _ => rw [show w = encode _ from h]; decide

/-- The decoder, said once: it answers a command exactly for the words that encode it. -/
theorem decode_eq_ok_iff (w : Word) (i : Instr) : decode w = .ok i ↔ Encodes w i :=
  ⟨encodes_of_decode, decode_of_encodes⟩

/-- Settles O1: the encoder's word encodes its command. -/
theorem decodeOfEncode : Obligations.DecodeOfEncode := by
  unfold Obligations.DecodeOfEncode
  exact fun i hwf => (decode_eq_ok_iff _ i).2 (encodes_encode hwf)

/-- Settles O2: the three parts of `Encodes`. -/
theorem encodeOfDecode : Obligations.EncodeOfDecode := by
  unfold Obligations.EncodeOfDecode
  intro w i h
  have henc := (decode_eq_ok_iff w i).1 h
  refine ⟨henc.wf, fun hi => ((encodes_iff_of_not_putbits hi).1 henc).symm, ?_⟩
  rintro v n rfl
  obtain ⟨-, hlow, hv⟩ := henc
  exact ⟨hlow.symm, hv⟩

/-! The rows of the opcode table (R105, R106). -/

/-- A word that encodes a command matches the command's row, by the encoder's own match (`Laws.TableRow`). -/
theorem legalWord_of_encodes {w : Word} {i : Instr} (h : Encodes w i) : LegalWord w := by
  cases i with
  | fdct b =>
    subst h
    exact .inr (.inl ⟨Laws.TableRow.fdct b, by revert b; decide⟩)
  | quant t =>
    subst h
    exact .inr (.inr (.inl (Laws.TableRow.quant t)))
  | encBlock c =>
    subst h
    exact .inr (.inr (.inr (.inl ⟨Laws.TableRow.encBlock c, by cases c <;> decide⟩)))
  | putbits v n =>
    obtain ⟨hwf, hlow, -⟩ := h
    obtain ⟨hn1, hn16, -⟩ := (wf_putbits_iff v n).1 hwf
    have hmask : w &&& 0x0000E0FF#32 = 0x00000031#32 := by
      rw [← show _ = 0x00000031#32 from Laws.TableRow.putbits v n]
      exact (and_low_half w 0xE0FF#16).trans (hlow ▸ (and_low_half _ 0xE0FF#16).symm)
    have hN : w.extractLsb' 8 5 = n :=
      (field_of_low_half hlow (by norm_num)).trans (encode_putbits_fields v n).2.2
    exact .inr (.inr (.inr (.inr ⟨hmask, hN ▸ hn1, hN ▸ hn16⟩)))
  | _ =>
    subst h
    exact .inl (by decide)

/-- The commands without an operand. -/
def formatZCommands : List Instr := [.nop, .dcReset, .freqClear, .loadMcu, .zigzag, .flush, .encMcu, .encScan]

theorem formatZWords_eq : formatZWords = formatZCommands.map encode := by decide

/-- A word that matches a row, with legal fields, is accepted: one case per format. -/
theorem accepted_of_legalWord {w : Word} (h : LegalWord w) : ∃ i, decode w = .ok i := by
  obtain ⟨hfdct, hquant, hencBlock, hputbits⟩ := decode_of_opcode w
  rcases h with hZ | ⟨hB, hb⟩ | hT | ⟨hC, hc⟩ | ⟨hP, hN⟩
  · rw [show w &&& 0xFFFFFFFF#32 = w from BitVec.and_allOnes, formatZWords_eq] at hZ
    obtain ⟨i, hi, rfl⟩ := List.mem_map.1 hZ
    have hwf : ∀ i ∈ formatZCommands, i.wf = true := by decide
    exact ⟨i, decode_of_encodes (encodes_encode (hwf i hi))⟩
  · have hres : w.extractLsb' 11 21 = 0#21 := field_of_mask 11 21 hB (by decide)
    rw [hfdct (field_of_mask 0 8 hB (by decide)), formatB, if_neg (not_not_intro hres), dif_pos (by omega)]
    exact ⟨_, rfl⟩
  · have hres : w.extractLsb' 9 23 = 0#23 := field_of_mask 9 23 hT (by decide)
    rw [hquant (field_of_mask 0 8 hT (by decide)), formatT, if_neg (not_not_intro hres)]
    exact ⟨_, rfl⟩
  · have hres : w.extractLsb' 10 22 = 0#22 := field_of_mask 10 22 hC (by decide)
    rw [hencBlock (field_of_mask 0 8 hC (by decide)), formatC, if_neg (not_not_intro hres)]
    have hlegal : ∀ c : BitVec 2, c.toNat ≤ 2 → c = 0#2 ∨ c = 1#2 ∨ c = 2#2 := by decide
    rcases hlegal _ hc with h | h | h <;> rw [h] <;> exact ⟨_, rfl⟩
  · have hres : w.extractLsb' 13 3 = 0#3 := field_of_mask 13 3 hP (by decide)
    rw [hputbits (field_of_mask 0 8 hP (by decide)), formatP, if_neg (not_not_intro hres), if_pos hN]
    exact ⟨_, rfl⟩

/-- Settles O3: both sides say that the word encodes some command. -/
theorem decodeExactlyTheTable : Obligations.DecodeExactlyTheTable := by
  unfold Obligations.DecodeExactlyTheTable
  exact fun w => ⟨fun ⟨i, h⟩ => legalWord_of_encodes ((decode_eq_ok_iff w i).1 h), accepted_of_legalWord⟩

/-- Settles O4: the decoder computes on the twelve words. -/
theorem workedEncodings : Obligations.WorkedEncodings := by
  unfold Obligations.WorkedEncodings
  decide

end Sys2Proof

/-! PROOF. A command's life: the write to CMD, the engine's step, and how a command ends (30_encoding.md R100). -/

namespace Sys2Proof.Machine

open Sys2Proof.Safety

/-! The engine's step. -/

theorem engineStep_legal {s : State} {i : Instr} (hbusy : s.status.busy = true) (hd : decode s.lastCmd = .ok i) :
    engineStep s = exec i s := by
  rw [engineStep, if_pos hbusy, hd]

theorem engineStep_illegal {s : State} {e : DecodeError} (hbusy : s.status.busy = true)
    (hd : decode s.lastCmd = .error e) : engineStep s = .next (enterFault .illegalCmd s.lastCmd s) := by
  rw [engineStep, if_pos hbusy, hd]

/-- Settles O5: with no event left, and at the engine's turn, the step is the engine's. -/
theorem stepRunsDecoded : Obligations.StepRunsDecoded := by
  unfold Obligations.StepRunsDecoded
  intro s i rest hbusy hd
  refine ⟨fun h => ?_, fun h => ?_⟩
  · exact (step_nil h).trans (engineStep_legal hbusy hd)
  · exact (step_cons h).trans (engineStep_legal (s := { s with inputs := rest }) hbusy hd)

/-- Settles O8: the engine enters the fault state with ILLEGAL_CMD and the word. -/
theorem illegalWordFaults : Obligations.IllegalWordFaults := by
  unfold Obligations.IllegalWordFaults
  intro s e hbusy h hd
  exact (step_nil h).trans (engineStep_illegal hbusy hd)

/-! A write to CMD. -/

theorem submit_rejected {s : State} (w : Word) (h : s.status.busy = true ∨ s.status.fault = true) :
    submit w s = { s with status := { s.status with cmdRej := true } } := by
  rw [submit, if_pos (by rwa [Bool.or_eq_true])]

theorem submit_accepted {s : State} (w : Word) (hbusy : s.status.busy = false) (hfault : s.status.fault = false) :
    submit w s = { s with lastCmd := w, status := { s.status with busy := true } } := by
  rw [submit, hbusy, hfault]
  rfl

/-- Settles O7: the step is `submit`, in its two cases. -/
theorem cmdWriteAcceptedOrRejected : Obligations.CmdWriteAcceptedOrRejected := by
  unfold Obligations.CmdWriteAcceptedOrRejected
  intro s w rest h
  have hstep := step_regWrite (tgt := .reg .cmd) h rfl
  refine ⟨fun hrej => ?_, fun hbusy hfault => ?_⟩
  · rw [hstep, writeTarget, submit_rejected (s := { s with inputs := rest }) w hrej]
  · rw [hstep, writeTarget, submit_accepted (s := { s with inputs := rest }) w hbusy hfault]

/-! How a command ends. -/

/-- A body leaves the fault state and the interrupt bits alone. -/
theorem engineFrame_keeps_control {s u : State} (h : EngineFrame s u) :
    u.status = s.status ∧ u.errInfo = s.errInfo ∧ u.irqStat = s.irqStat ∧ u.irqEn = s.irqEn := by
  obtain ⟨heq, -⟩ := h
  rw [heq]
  exact ⟨rfl, rfl, rfl, rfl⟩

theorem irq_complete (s : State) : irq (complete s) = (s.irqEn.done || (s.irqStat.fault && s.irqEn.fault)) := by
  simp [irq]

theorem irq_enterFault (code : FaultCode) (info : Word) (s : State) :
    irq (enterFault code info s) = ((s.irqStat.done && s.irqEn.done) || s.irqEn.fault) := by
  simp [irq]

/-- The two ways a command ends after a body that changed only what EngineFrame names: a CONFIG fault is a fault
after a body that changed nothing. -/
theorem exec_completes_or_faults {i : Instr} {s t : State} (h : exec i s = .next t) :
    ∃ u, EngineFrame s u ∧ (t = complete u ∨ ∃ code info, t = enterFault code info u) := by
  rcases exec_next_cases i s t h with ⟨sub, -, rfl⟩ | ⟨u, hu, rfl⟩ | ⟨code, info, u, hu, rfl⟩
  · exact ⟨s, EngineFrame.refl s, .inr ⟨_, _, rfl⟩⟩
  · exact ⟨u, hu, .inl rfl⟩
  · exact ⟨u, hu, .inr ⟨_, _, rfl⟩⟩

/-- Settles O9: what `complete` and `enterFault` set, over a body that keeps the control state. -/
theorem commandOutcomes : Obligations.CommandOutcomes := by
  unfold Obligations.CommandOutcomes
  intro i s t h
  obtain ⟨u, hu, hend⟩ := exec_completes_or_faults h
  obtain ⟨hstatus, hinfo, hirqStat, hirqEn⟩ := engineFrame_keeps_control hu
  rw [← hstatus, ← hinfo, ← hirqStat, ← hirqEn]
  rcases hend with rfl | ⟨code, info, rfl⟩
  · exact ⟨rfl, .inl ⟨rfl, rfl, rfl, rfl, irq_complete u⟩⟩
  · obtain ⟨hlo, hhi⟩ := faultNumber_range code
    exact ⟨rfl, .inr ⟨rfl, hlo, hhi, rfl, irq_enterFault code info u⟩⟩

end Sys2Proof.Machine

/-! PROOF. LOAD_MCU: where Pixel reads, the colour conversion, the sample blocks it stores, and how it ends
(40_csc.md). -/

namespace Sys2Proof.Machine

open Sys2Proof.Safety

/-! A failed configuration check. -/

/-- Settles O26: with a subcode, the command is `enterFault` at once. -/
theorem configFaultChangesNothing : Obligations.ConfigFaultChangesNothing := by
  unfold Obligations.ConfigFaultChangesNothing
  intro s sub
  have hfault : ∀ i, checkOf i s = some sub → exec i s = .next (enterFault .config sub s) := fun i h => by
    rw [exec_eq, h]
  exact ⟨fun h => ⟨hfault .loadMcu h, hfault .encMcu h⟩, hfault .encScan⟩

/-! The addresses of a pixel (R131, R134). -/

theorem clampCoord_eq_ite (x : Nat) (size : Half) :
    clampCoord x size = if x < size.toNat then x else size.toNat - 1 := by
  unfold clampCoord
  split <;> omega

theorem clampCoord_lt {size : Half} (h : size ≠ 0#16) (x : Nat) : clampCoord x size < size.toNat := by
  have hpos : size.toNat ≠ 0 := fun h0 => h (BitVec.eq_of_toNat_eq h0)
  unfold clampCoord
  omega

/-- An address is its base, row and column offset modulo 2^32. -/
theorem toNat_rowAddr_add (s : State) (base : Word) (sy off : Nat) :
    (rowAddr s base sy + BitVec.ofNat 32 off).toNat = (base.toNat + sy * s.stride.toNat + off) % 2 ^ 32 := by
  simp [rowAddr, Nat.add_mod, Nat.mul_mod]

theorem pixelAddrs_bgr24 {s : State} (h : s.ctrl.infmt = fmtBgr24) (x y : Nat) :
    pixelAddrs s x y = [0, 1, 2].map fun k =>
      rowAddr s s.src0 (clampCoord y s.frame.h) + BitVec.ofNat 32 (3 * clampCoord x s.frame.w + k) := by
  simp only [pixelAddrs, if_pos h, List.map_cons, List.map_nil, BitVec.ofNat_add, BitVec.add_assoc]
  simp

theorem pixelAddrs_planes {s : State} (h : s.ctrl.infmt ≠ fmtBgr24) (x y : Nat) :
    pixelAddrs s x y = (planeBases s).map fun base =>
      rowAddr s base (clampCoord y s.frame.h) + BitVec.ofNat 32 (clampCoord x s.frame.w) := by
  simp only [pixelAddrs, if_neg h]

theorem pixelAt_bgr24 {s : State} (h : s.ctrl.infmt = fmtBgr24) (x y : Nat) :
    let byteAt := fun k => Memory.read s.mem ((s.src0.toNat + clampCoord y s.frame.h * s.stride.toNat +
      (3 * clampCoord x s.frame.w + k)) % 2 ^ 32)
    pixelAt s x y = (cscY (byteAt 0) (byteAt 1) (byteAt 2), cscCb (byteAt 0) (byteAt 1) (byteAt 2),
      cscCr (byteAt 0) (byteAt 1) (byteAt 2)) := by
  simp only [pixelAt, pixelOf, if_pos h, pixelAddrs_bgr24 h, List.map_cons, List.map_nil, toNat_rowAddr_add]
  rfl

theorem pixelAt_planes {s : State} (h : s.ctrl.infmt ≠ fmtBgr24) (x y : Nat) :
    let bytes := (planeBases s).map fun base => Memory.read s.mem
      ((base.toNat + clampCoord y s.frame.h * s.stride.toNat + clampCoord x s.frame.w) % 2 ^ 32)
    pixelAt s x y = (bytes.getD 0 0#8, bytes.getD 1 0#8, bytes.getD 2 0#8) := by
  simp only [pixelAt, pixelOf, if_neg h, pixelAddrs_planes h, List.map_map, Function.comp_def, toNat_rowAddr_add]

theorem planeBases_colour {s : State} (h : s.ctrl.infmt = fmtPlanar) (hm : s.ctrl.mode ≠ modeGray) :
    planeBases s = [s.src0, s.src1, s.src2] := if_pos ⟨h, hm⟩

/-- Y is always read from plane 0. -/
theorem planeBases_eq_cons (s : State) : ∃ rest, planeBases s = s.src0 :: rest := by
  unfold planeBases
  split <;> exact ⟨_, rfl⟩

/-- Settles O30: the two forms of Pixel, with the coordinates clamped. -/
theorem pixelByFormat : Obligations.PixelByFormat := by
  unfold Obligations.PixelByFormat
  intro s x y
  simp only [← clampCoord_eq_ite]
  refine ⟨fun hbgr => pixelAt_bgr24 hbgr x y, fun hplanar hmode => ?_, fun hgray => ?_⟩
  · have hfmt : s.ctrl.infmt ≠ fmtBgr24 := by rw [hplanar]; decide
    simp only [pixelAt_planes hfmt, planeBases_colour hplanar hmode]
    rfl
  · have hfmt : s.ctrl.infmt ≠ fmtBgr24 := by
      rcases hgray with h | ⟨h, -⟩ <;> rw [h] <;> decide
    obtain ⟨rest, hbases⟩ := planeBases_eq_cons s
    simp only [pixelAt_planes hfmt, hbases]
    rfl

/-- An address less than the row length past the start of a row of the image is a source byte. -/
theorem isSourceByte_of_row {s : State} {base : Word} {sy off : Nat} (hsy : sy < s.frame.h.toNat)
    (hbase : base ∈ if s.ctrl.infmt = fmtBgr24 then [s.src0] else planeBases s)
    (hoff : off < if s.ctrl.infmt = fmtBgr24 then 3 * s.frame.w.toNat else s.frame.w.toNat) :
    isSourceByte s (rowAddr s base sy + BitVec.ofNat 32 off) = true := by
  have hle : (rowAddr s base sy + BitVec.ofNat 32 off - rowAddr s base sy).toNat ≤ off := by
    rw [BitVec.add_comm, BitVec.add_sub_cancel, BitVec.toNat_ofNat]
    exact Nat.mod_le _ _
  simp only [isSourceByte, List.any_eq_true, List.mem_range, decide_eq_true_eq]
  exact ⟨sy, hsy, base, hbase, hle.trans_lt hoff⟩

/-- Settles O32: clamped coordinates lie inside the image. -/
theorem sourceReadsInsideImage : Obligations.SourceReadsInsideImage := by
  unfold Obligations.SourceReadsInsideImage
  intro s hw hh a ha
  obtain ⟨⟨x, y⟩, -, hp⟩ := List.mem_flatMap.1 ha
  have hsx := clampCoord_lt hw x
  have hsy := clampCoord_lt hh y
  by_cases hfmt : s.ctrl.infmt = fmtBgr24
  · rw [pixelAddrs_bgr24 hfmt] at hp
    obtain ⟨k, hk, rfl⟩ := List.mem_map.1 hp
    have hk3 : k < 3 := by simp at hk; omega
    exact isSourceByte_of_row hsy (by simp [hfmt]) (by rw [if_pos hfmt]; dsimp only; omega)
  · rw [pixelAddrs_planes hfmt] at hp
    obtain ⟨base, hbase, rfl⟩ := List.mem_map.1 hp
    exact isSourceByte_of_row hsy (by rwa [if_neg hfmt]) (by rwa [if_neg hfmt])

/-! The colour conversion (R132, R133). -/

theorem toNat_clampByte (v : Int) : ((clampByte v).toNat : Int) = min (max v 0) 255 := by
  rw [clampByte, BitVec.toNat_ofInt]
  omega

/-- The arithmetic shift to the right of an integer is the floor division by the power of two. -/
theorem int_shiftRight_eq_div (v : Int) (n : Nat) : v >>> (n : Int) = v / 2 ^ n := by
  have hshift : v >>> (n : Int) = v >>> n := by cases v <;> cases n <;> rfl
  rw [hshift, Int.shiftRight_eq_div_pow, Nat.cast_pow, Nat.cast_ofNat]

theorem int_shiftRight_14 (v : Int) : v >>> (14 : Int) = v / 16384 := int_shiftRight_eq_div v 14

/-- Settles O31: the sums stay in range over all bytes, so the clamp acts on 256 alone. -/
theorem colourConversion : Obligations.ColourConversion := by
  unfold Obligations.ColourConversion
  intro b g r
  have hb := b.isLt
  have hg := g.isLt
  have hr := r.isLt
  simp only [cscY, cscCb, cscCr, toNat_clampByte, int_shiftRight_14]
  refine ⟨⟨by omega, by omega, by omega⟩, ⟨by omega, by omega, by omega⟩, ⟨by omega, by omega, by omega⟩, ?_⟩
  rintro rfl rfl
  have hclamp : ∀ (v : Int) (x : Byte), min (max v 0) 255 = x.toNat → clampByte v = x := fun v x h =>
    BitVec.eq_of_toNat_eq (Int.natCast_inj.1 ((toNat_clampByte v).trans h))
  refine Prod.ext (hclamp _ _ ?_) (Prod.ext (hclamp _ 128#8 ?_) (hclamp _ 128#8 ?_))
  · dsimp only; omega
  · simp only [BitVec.reduceToNat]; omega
  · simp only [BitVec.reduceToNat]; omega

/-! The samples of each block (R135, R136). -/

/-- The samples of block b of an MCU, from its pixels in row order. -/
def mcuBlock (mode : BitVec 2) (px : List (Byte × Byte × Byte)) : Nat → List Byte
  | 4 => if mode = modeYuv420 then chroma420 (px.map fun p => p.2.1) else lumaBlock 8 (px.map fun p => p.2.1) 0 0
  | 5 => if mode = modeYuv420 then chroma420 (px.map fun p => p.2.2) else lumaBlock 8 (px.map fun p => p.2.2) 0 0
  | b => if mode = modeYuv420 then lumaBlock 16 (px.map fun p => p.1) (b % 2) (b / 2)
    else lumaBlock 8 (px.map fun p => p.1) 0 0

@[simp] theorem lumaBlock_length (m : Nat) (tile : List Byte) (bx by' : Nat) :
    (lumaBlock m tile bx by').length = 64 := by simp [lumaBlock]

@[simp] theorem chroma420_length (tile : List Byte) : (chroma420 tile).length = 64 := by simp [chroma420]

theorem mcuBlock_length (mode : BitVec 2) (px : List (Byte × Byte × Byte)) (b : Nat) :
    (mcuBlock mode px b).length = 64 := by
  unfold mcuBlock
  split <;> split <;> simp

/-- A whole block written replaces that block and keeps every other. -/
theorem tabGet_tabSetRun_block {α : Type} {vs : List α} (hvs : vs.length = 64) (st : Store α) (k b : Nat) {i : Nat}
    (hi : i < 64) :
    tabGet (tabSetRun st (64 * k) vs) (64 * b + i) = if b = k then vs[i]? else tabGet st (64 * b + i) := by
  rw [tabGet_tabSetRun, hvs]
  by_cases h : b = k
  · rw [if_pos h, if_pos (by omega), h, Nat.add_sub_cancel_left]
  · rw [if_neg h, if_neg (by omega)]

/-- The blocks of the mode, by number (44_sequencer.md R235). -/
def modeBlocks (c : Ctrl) : List Nat := (blockOrder c).map fun e => e.1.val

theorem modeYuv444_ne_yuv420 : modeYuv444 ≠ modeYuv420 := by decide

theorem modeBlocks_yuv420 {c : Ctrl} (h : c.mode = modeYuv420) : modeBlocks c = [0, 1, 2, 3, 4, 5] := by
  simp [modeBlocks, blockOrder, h]

theorem modeBlocks_yuv444 {c : Ctrl} (h : c.mode = modeYuv444) : modeBlocks c = [0, 4, 5] := by
  simp [modeBlocks, blockOrder, h, modeYuv444_ne_yuv420]

theorem zero_mem_modeBlocks (c : Ctrl) : 0 ∈ modeBlocks c := by
  unfold modeBlocks blockOrder
  split
  · simp
  · split <;> simp

/-- storeMcu writes the blocks of the mode in turn, whole blocks each. -/
theorem storeMcu_eq_foldl (c : Ctrl) (px : List (Byte × Byte × Byte)) (blk : Store Byte) :
    storeMcu c.mode px blk =
      (modeBlocks c).foldl (fun st b => tabSetRun st (64 * b) (mcuBlock c.mode px b)) blk := by
  by_cases h420 : c.mode = modeYuv420
  · simp [modeBlocks_yuv420 h420, storeMcu, mcuBlock, h420]
  · by_cases h444 : c.mode = modeYuv444
    · simp [modeBlocks_yuv444 h444, storeMcu, mcuBlock, h444, modeYuv444_ne_yuv420]
    · simp [modeBlocks, blockOrder, storeMcu, mcuBlock, h420, h444]

theorem tabGet_foldl_blocks {α : Type} {f : Nat → List α} (hf : ∀ b, (f b).length = 64) (bs : List Nat)
    (st : Store α) (b : Nat) {i : Nat} (hi : i < 64) :
    tabGet (bs.foldl (fun st b => tabSetRun st (64 * b) (f b)) st) (64 * b + i) =
      if b ∈ bs then (f b)[i]? else tabGet st (64 * b + i) := by
  induction bs generalizing st with
  | nil => simp
  | cons c bs ih =>
    rw [List.foldl_cons, ih, tabGet_tabSetRun_block (hf c) st c b hi]
    by_cases hbc : b = c <;> simp [hbc]

/-- What storeMcu leaves in each block. -/
theorem tabGet_storeMcu (c : Ctrl) (px : List (Byte × Byte × Byte)) (blk : Store Byte) (b : Nat) {i : Nat}
    (hi : i < 64) :
    tabGet (storeMcu c.mode px blk) (64 * b + i) =
      if b ∈ modeBlocks c then (mcuBlock c.mode px b)[i]? else tabGet blk (64 * b + i) := by
  rw [storeMcu_eq_foldl, tabGet_foldl_blocks (mcuBlock_length c.mode px) _ _ _ hi]

/-! LOAD_MCU completes (R135, R141). -/

theorem exec_loadMcu {s : State} (hc : configCheck true s = none) :
    exec .loadMcu s = finish (footprint s.ctrl .loadMcu) (loadMcuBody s) := by
  have hcheck : checkOf .loadMcu s = none := hc
  rw [exec_eq, hcheck]
  rfl

/-- Where every read is answered, LOAD_MCU stores some pixels and completes; from plain memory, the pixels of the
MCU, with no free value taken. -/
theorem exec_loadMcu_answered {s : State} (hc : configCheck true s = none) (ha : ReadsAnswered s) :
    ∃ px n, exec .loadMcu s = .next (complete (advance n { s with blk := storeMcu s.ctrl.mode px s.blk })) ∧
      (ReadsPlain s → px = (mcuPositions s).map (fun p => pixelAt s p.1 p.2) ∧ n = 0) := by
  rw [exec_loadMcu hc]
  rcases loadMcuBody_cases s with ⟨a, ha', -, hbus, -⟩ | ⟨-, px, n, hbody, -, hplain⟩
  · rw [ha a ha'] at hbus
    cases hbus
  · exact ⟨px, n, by rw [hbody]; rfl, hplain⟩

/-- Settles O27: every block of the mode is written whole, whatever the pixels. -/
theorem loadMcuCompletes : Obligations.LoadMcuCompletes := by
  unfold Obligations.LoadMcuCompletes
  intro s hc ha
  obtain ⟨px, n, hexec, -⟩ := exec_loadMcu_answered hc ha
  refine ⟨_, hexec, rfl, fun b _ => ⟨fun hb i hi => ?_, fun hb i hi => ?_⟩⟩
  · have hget := (tabGet_storeMcu s.ctrl px s.blk b hi).trans (if_pos hb)
    exact (congrArg Option.isSome hget).trans (by simp [mcuBlock_length, hi])
  · exact (tabGet_storeMcu s.ctrl px s.blk b hi).trans (if_neg hb)

/-! The pixels of the MCU as a tile (R135, R136). -/

/-- The pixels of the MCU at MCUPOS, row by row. -/
def mcuPixels (s : State) : List (Byte × Byte × Byte) := (mcuPositions s).map fun p => pixelAt s p.1 p.2

/-- Row by row, n rows of m columns: the element at i is that of row i / m and column i % m. -/
theorem flatMap_rows {α : Type} (f : Nat → Nat → α) {m : Nat} (hm : 0 < m) (n : Nat) :
    ((List.range n).flatMap fun y => (List.range m).map fun x => f x y) =
      (List.range (n * m)).map fun i => f (i % m) (i / m) := by
  induction n with
  | zero => simp
  | succ n ih =>
    have hrow : ∀ x ∈ List.range m, f x n = f ((n * m + x) % m) ((n * m + x) / m) := fun x hx => by
      have hx := List.mem_range.1 hx
      rw [Nat.mul_comm, Nat.mul_add_mod, Nat.mul_add_div hm, Nat.mod_eq_of_lt hx, Nat.div_eq_of_lt hx, Nat.add_zero]
    rw [List.range_succ, List.flatMap_append, ih, Nat.succ_mul, List.range_add, List.map_append, List.map_map]
    simpa using hrow

theorem mcuSize_pos (c : Ctrl) : 0 < mcuSize c := by
  unfold mcuSize
  split <;> omega

theorem mcuPositions_eq (s : State) : mcuPositions s = (List.range (mcuSize s.ctrl * mcuSize s.ctrl)).map fun i =>
    (mcuX0 s + i % mcuSize s.ctrl, mcuY0 s + i / mcuSize s.ctrl) :=
  flatMap_rows (fun x y => (mcuX0 s + x, mcuY0 s + y)) (mcuSize_pos s.ctrl) _

/-- A component of the pixel at column x and row y of the tile. -/
theorem mcuPixels_getD (s : State) (g : Byte × Byte × Byte → Byte) {x y : Nat} (hx : x < mcuSize s.ctrl)
    (hy : y < mcuSize s.ctrl) :
    ((mcuPixels s).map g).getD (y * mcuSize s.ctrl + x) 0#8 = g (pixelAt s (mcuX0 s + x) (mcuY0 s + y)) := by
  have hlt : y * mcuSize s.ctrl + x < mcuSize s.ctrl * mcuSize s.ctrl :=
    calc y * mcuSize s.ctrl + x < (y + 1) * mcuSize s.ctrl := by rw [Nat.succ_mul]; omega
      _ ≤ mcuSize s.ctrl * mcuSize s.ctrl := Nat.mul_le_mul_right _ hy
  have hcol : (y * mcuSize s.ctrl + x) % mcuSize s.ctrl = x := by
    rw [Nat.mul_comm, Nat.mul_add_mod, Nat.mod_eq_of_lt hx]
  have hrow : (y * mcuSize s.ctrl + x) / mcuSize s.ctrl = y := by
    rw [Nat.mul_comm, Nat.mul_add_div (mcuSize_pos _), Nat.div_eq_of_lt hx, Nat.add_zero]
  simp [mcuPixels, mcuPositions_eq, hlt, hcol, hrow]

/-- An element of an 8x8 block of a component of the tile. -/
theorem lumaBlock_mcuPixels {s : State} {m : Nat} (hm : mcuSize s.ctrl = m) (g : Byte × Byte × Byte → Byte)
    {bx by' x y : Nat} (hx : x < 8) (hy : y < 8) (hbx : 8 * bx + x < m) (hby : 8 * by' + y < m) :
    (lumaBlock m ((mcuPixels s).map g) bx by')[8 * y + x]? =
      some (g (pixelAt s (mcuX0 s + 8 * bx + x) (mcuY0 s + 8 * by' + y))) := by
  subst hm
  have hrow : (8 * y + x) / 8 = y := by omega
  have hcol : (8 * y + x) % 8 = x := by omega
  rw [lumaBlock, List.getElem?_map, List.getElem?_range (by omega), Option.map_some, hrow, hcol,
    mcuPixels_getD s g hbx hby, Nat.add_assoc, Nat.add_assoc]

/-- An element of the chroma block of a component of a 16x16 tile: the average of the four pixels it covers. -/
theorem chroma420_mcuPixels {s : State} (hm : mcuSize s.ctrl = 16) (g : Byte × Byte × Byte → Byte) {cx cy : Nat}
    (hx : cx < 8) (hy : cy < 8) :
    let p := fun dx dy => g (pixelAt s (mcuX0 s + 2 * cx + dx) (mcuY0 s + 2 * cy + dy))
    (chroma420 ((mcuPixels s).map g))[8 * cy + cx]? = some (average4 (p 0 0) (p 1 0) (p 0 1) (p 1 1)) := by
  have hrow : (8 * cy + cx) / 8 = cy := by omega
  have hcol : (8 * cy + cx) % 8 = cx := by omega
  have htile : ∀ dx < 2, ∀ dy < 2, ∀ i, i = (2 * cy + dy) * 16 + (2 * cx + dx) →
      ((mcuPixels s).map g).getD i 0#8 = g (pixelAt s (mcuX0 s + 2 * cx + dx) (mcuY0 s + 2 * cy + dy)) := by
    rintro dx hdx dy hdy i rfl
    rw [← hm, mcuPixels_getD s g (by omega) (by omega), Nat.add_assoc, Nat.add_assoc]
  rw [chroma420, List.getElem?_map, List.getElem?_range (by omega), Option.map_some, hrow, hcol, avg4,
    htile 0 (by omega) 0 (by omega) _ (by omega), htile 1 (by omega) 0 (by omega) _ (by omega),
    htile 0 (by omega) 1 (by omega) _ (by omega), htile 1 (by omega) 1 (by omega) _ (by omega)]
  rfl

/-- From plain memory, LOAD_MCU completes with the blocks of the MCU's own pixels, and changes only BLK. -/
theorem exec_loadMcu_plain {s : State} (hc : configCheck true s = none) (ha : ReadsAnswered s) (hp : ReadsPlain s) :
    ∃ t, exec .loadMcu s = .next t ∧ t = { complete s with blk := t.blk } ∧
      ∀ b ∈ modeBlocks s.ctrl, ∀ i < 64, tabGet t.blk (64 * b + i) = (mcuBlock s.ctrl.mode (mcuPixels s) b)[i]? := by
  obtain ⟨px, n, hexec, hplain⟩ := exec_loadMcu_answered hc ha
  obtain ⟨rfl, rfl⟩ := hplain hp
  exact ⟨_, hexec, rfl, fun b hb i hi => (tabGet_storeMcu s.ctrl _ s.blk b hi).trans (if_pos hb)⟩

/-- Settles O28: outside YUV420 the tile is one 8x8 block. -/
theorem loadMcuFullResolution : Obligations.LoadMcuFullResolution := by
  unfold Obligations.LoadMcuFullResolution
  intro s hc ha hp hmode
  have h420 : s.ctrl.mode ≠ modeYuv420 := hmode
  have hsize : mcuSize s.ctrl = 8 := if_neg h420
  obtain ⟨t, hexec, hframe, hblk⟩ := exec_loadMcu_plain hc ha hp
  have hsample : ∀ (g : Byte × Byte × Byte → Byte) (b : Nat), b ∈ modeBlocks s.ctrl →
      mcuBlock s.ctrl.mode (mcuPixels s) b = lumaBlock 8 ((mcuPixels s).map g) 0 0 → ∀ y < 8, ∀ x < 8,
      tabGet t.blk (64 * b + (8 * y + x)) = some (g (pixelAt s (mcuX0 s + x) (mcuY0 s + y))) := by
    intro g b hb heq y hy x hx
    rw [hblk b hb _ (by omega), heq, lumaBlock_mcuPixels hsize g hx hy (by omega) (by omega),
      Nat.mul_zero, Nat.add_zero, Nat.add_zero]
  refine ⟨t, hexec, hframe, fun y hy x hx => ⟨?_, fun h444 => ⟨?_, ?_⟩⟩⟩
  · have h := hsample (fun p => p.1) 0 (zero_mem_modeBlocks _) (if_neg h420) y hy x hx
    rwa [Nat.mul_zero, Nat.zero_add] at h
  · exact hsample (fun p => p.2.1) 4 (by simp [modeBlocks_yuv444 h444]) (if_neg h420) y hy x hx
  · exact hsample (fun p => p.2.2) 5 (by simp [modeBlocks_yuv444 h444]) (if_neg h420) y hy x hx

/-- Settles O29: the four luma quarters and the two averaged chroma blocks of the 16x16 tile. -/
theorem loadMcuSubsampled : Obligations.LoadMcuSubsampled := by
  unfold Obligations.LoadMcuSubsampled
  intro s hc ha hp hmode
  have h420 : s.ctrl.mode = modeYuv420 := hmode
  have hsize : mcuSize s.ctrl = 16 := if_pos h420
  obtain ⟨t, hexec, hframe, hblk⟩ := exec_loadMcu_plain hc ha hp
  rw [modeBlocks_yuv420 h420] at hblk
  refine ⟨t, hexec, hframe, fun by' hby bx hbx y hy x hx => ?_, fun cy hcy cx hcx => ⟨?_, ?_⟩⟩
  · have hluma : mcuBlock s.ctrl.mode (mcuPixels s) (2 * by' + bx) =
        lumaBlock 16 ((mcuPixels s).map fun p => p.1) bx by' := by
      interval_cases by' <;> interval_cases bx <;> exact if_pos h420
    rw [hblk _ (by simp; omega) _ (by omega), hluma, lumaBlock_mcuPixels hsize _ hx hy (by omega) (by omega)]
  · rw [hblk 4 (by simp) _ (by omega), mcuBlock, if_pos h420, chroma420_mcuPixels hsize _ hcx hcy]
  · rw [hblk 5 (by simp) _ (by omega), mcuBlock, if_pos h420, chroma420_mcuPixels hsize _ hcx hcy]

/-! LOAD_MCU meets a bus error (R139, 60_exceptions.md R253, R267). -/

/-- Only sample blocks of the list changed, and free values were taken. -/
def ChangesOnlyBlocks (bs : List Nat) (s t : State) : Prop :=
  t = { s with blk := t.blk, draws := t.draws } ∧
    ∀ b, b ∉ bs → ∀ i < 64, tabGet t.blk (64 * b + i) = tabGet s.blk (64 * b + i)

theorem ChangesOnlyBlocks.refl (bs : List Nat) (s : State) : ChangesOnlyBlocks bs s s := ⟨rfl, fun _ _ _ _ => rfl⟩

theorem ChangesOnlyBlocks.trans {bs : List Nat} {s t u : State} (h1 : ChangesOnlyBlocks bs s t)
    (h2 : ChangesOnlyBlocks bs t u) : ChangesOnlyBlocks bs s u := by
  obtain ⟨e1, k1⟩ := h1
  obtain ⟨e2, k2⟩ := h2
  exact ⟨by rw [e2, e1], fun b hb i hi => (k2 b hb i hi).trans (k1 b hb i hi)⟩

theorem changesOnlyBlocks_freeBlk {bs : List Nat} {c : Nat} (hc : c ∈ bs) (s : State) :
    ChangesOnlyBlocks bs s (freeBlk s c) := by
  refine ⟨by simp only [freeBlk, advance], fun b hb i hi => ?_⟩
  have hbc : b ≠ c := fun h => hb (h ▸ hc)
  simp only [freeBlk, advance, fillFree]
  rw [tabGet_tabSetRun_block (by simp) s.blk c b hi, if_neg hbc]

/-- A raise frees the blocks of the mode and nothing else. -/
theorem finish_loadMcu_raise (c : Ctrl) (code : FaultCode) (info : Word) (s : State) :
    ∃ u, ChangesOnlyBlocks (modeBlocks c) s u ∧
      finish (footprint c .loadMcu) (.error (.raise code info s)) = .next (enterFault code info u) := by
  refine ⟨(modeBlocks c).foldl freeBlk s, ?_, ?_⟩
  · exact foldl_rel (ChangesOnlyBlocks.refl _) (fun _ _ _ => ChangesOnlyBlocks.trans) freeBlk _
      (fun s _ hb => changesOnlyBlocks_freeBlk hb s) s
  · simp [finish, freeRegisters, freeTables, footprint, Footprint.none, modeBlocks]

/-- Settles O33: the body raises BUS_ERR at a failing address, and the fault frees the blocks of the mode. -/
theorem loadMcuBusError : Obligations.LoadMcuBusError := by
  unfold Obligations.LoadMcuBusError
  intro s a hc ha hbus
  rw [exec_loadMcu hc]
  rcases loadMcuBody_cases s with ⟨a', ha', n, hbus', hbody⟩ | ⟨hans, -⟩
  · obtain ⟨u, ⟨hframe, hkept⟩, hraise⟩ := finish_loadMcu_raise s.ctrl .busErr a' (advance n s)
    rw [hbody, hraise]
    refine ⟨_, rfl, rfl, rfl, rfl, ha', hbus', ?_, fun b _ => hkept b⟩
    rw [hframe]
    rfl
  · rw [hans a ha] at hbus
    cases hbus

end Sys2Proof.Machine

/-! PROOF. FDCT: how the command ends, what one pass and the two passes do with an offset and with bounded inputs, and
what follows for the coefficients of a block (41_fdct.md). -/

namespace Sys2Proof.Machine

open Sys2Proof.Safety

/-! The command (R150, R154). -/

theorem postOne_eq (o p : Int) : postOne o p = (o * p + 131072) / 262144 := int_shiftRight_eq_div _ 18

/-- Row u, column v of the block: output u of the column pass on column v, post-scaled. -/
theorem fdctBlock_getElem? (xs : List Byte) {u v : Nat} (hu : u < 8) (hv : v < 8) :
    (fdctBlock xs)[8 * u + v]? = some
      (postOne ((aan8At (rowPass (xs.map levelShift)) v 8).getD u 0) (postScale.getD (8 * u + v) 0)) := by
  have hrow : (8 * u + v) / 8 = u := by omega
  have hcol : (8 * u + v) % 8 = v := by omega
  rw [fdctBlock, List.getElem?_map, List.getElem?_range (by omega), Option.map_some, hrow, hcol, colPass,
    List.getD_eq_getElem?_getD (l := List.map _ _), List.getElem?_map, List.getElem?_range hv, Option.map_some,
    Option.getD_some]

/-- The 64 samples of block b, an entry with no value standing as 0. -/
def blockSamples (b : Fin 6) (s : State) : List Byte :=
  (List.range 64).map fun i => (tabGet s.blk (64 * b.val + i)).getD 0#8

theorem readAt_block {b : Fin 6} {s : State} (h : Written s.blk (64 * b.val) 64) :
    readAt .blk s.blk s (List.range' (64 * b.val) 64) = .ok (blockSamples b s) := by
  rw [readAt_ok, List.range'_eq_map_range, blockSamples, List.map_map, List.map_map]
  refine List.map_congr_left fun i hi => ?_
  obtain ⟨x, hx⟩ := Option.isSome_iff_exists.1 (h i (List.mem_range.1 hi))
  simp [hx]

theorem exec_fdct_written {b : Fin 6} {s : State} (h : Written s.blk (64 * b.val) 64) :
    exec (.fdct b) s =
      .next (complete { s with coef := tabOf 0 ((fdctBlock (blockSamples b s)).map (BitVec.ofInt 16)) }) := by
  have hexec : exec (.fdct b) s = finish (footprint s.ctrl (.fdct b)) (fdctBody b s) := rfl
  rw [hexec, fdctBody, readAt_block h]
  rfl

/-- Settles O34: the samples are read whole, and COEF is `fdctBlock` of them entry by entry. -/
theorem fdctCompletes : Obligations.FdctCompletes := by
  unfold Obligations.FdctCompletes
  intro b s hw sample x w
  have hx : (blockSamples b s).map levelShift = x := List.map_map
  refine ⟨_, exec_fdct_written hw, rfl, fun u hu v hv => ?_⟩
  calc tabGet (tabOf 0 ((fdctBlock (blockSamples b s)).map (BitVec.ofInt 16))) (8 * u + v)
    _ = ((fdctBlock (blockSamples b s)).map (BitVec.ofInt 16))[8 * u + v]? := by simp [tabGet_tabOf]
    _ = some (BitVec.ofInt 16 (postOne ((aan8At (rowPass x) v 8).getD u 0) (postScale.getD (8 * u + v) 0))) := by
      rw [List.getElem?_map, fdctBlock_getElem? _ hu hv, hx, Option.map_some]
    _ = _ := by rw [postOne_eq]; rfl

/-! One pass (R152). Each output is a linear form in the inputs, up to the rounding of its multiplications. -/

/-- AAN8 of the first eight values of a sequence. -/
def aan8Of (d : Nat → Int) : List Int := aan8 (d 0) (d 1) (d 2) (d 3) (d 4) (d 5) (d 6) (d 7)

theorem aan8At_eq (x : List Int) (start step : Nat) :
    aan8At x start step = aan8Of fun n => x.getD (start + n * step) 0 := by
  simp [aan8At, aan8Of]

theorem aan8Of_congr {d e : Nat → Int} (h : ∀ n < 8, d n = e n) : aan8Of d = aan8Of e := by
  simp [aan8Of, h]

/-- Raising every input by c raises output 0 by 8c; the others are made of differences and do not change. -/
theorem aan8Of_add (d : Nat → Int) (c : Int) {k : Nat} (hk : k < 8) :
    (aan8Of fun n => d n + c).getD k 0 = (aan8Of d).getD k 0 + if k = 0 then 8 * c else 0 := by
  have hpair : ∀ a b e : Int, (a + e) + (b + e) = a + b + 2 * e := fun a b e => by ring
  simp only [aan8Of, aan8, hpair, add_sub_add_right_eq_sub]
  rcases Nat.eq_zero_or_pos k with rfl | hpos
  · simp only [List.getD_cons_zero, if_true]
    ring
  · rw [if_neg hpos.ne', add_zero]
    interval_cases k <;> rfl

/-- Output 0 is the sum of the inputs. -/
theorem aan8Of_sum (d : Nat → Int) : (aan8Of d).getD 0 0 = ((List.range 8).map d).sum := by
  simp [aan8Of, aan8, List.range_succ]
  ring

/-- MUL rounds to the nearest integer. -/
theorem mulQ14_bounds (v c : Int) : v * c - 8192 ≤ 16384 * mulQ14 v c ∧ 16384 * mulQ14 v c ≤ v * c + 8192 := by
  rw [mulQ14, int_shiftRight_14]
  omega

/-- 16384 times the sum of the magnitudes of the weights of each output. -/
def outputGain : List Int := [131072, 164736, 158216, 139656, 131072, 93316, 65536, 32768]

/-- 16384 times the most that the roundings add to each output. -/
def outputSlack : List Int := [0, 24576, 8192, 24576, 0, 24576, 8192, 24576]

/-- How large output k of a pass can be when its inputs have magnitude at most m. -/
def passBound (k : Nat) (m : Int) : Int := (outputGain.getD k 0 * m + outputSlack.getD k 0) / 16384

/-- Output by output: its weights against the ranges of the inputs, and the roundings of its multiplications. -/
theorem aan8Of_bound {d : Nat → Int} {m : Int} (hd : ∀ n < 8, |d n| ≤ m) {k : Nat} (hk : k < 8) :
    |(aan8Of d).getD k 0| ≤ passBound k m := by
  have h0 := abs_le.1 (hd 0 (by omega))
  have h1 := abs_le.1 (hd 1 (by omega))
  have h2 := abs_le.1 (hd 2 (by omega))
  have h3 := abs_le.1 (hd 3 (by omega))
  have h4 := abs_le.1 (hd 4 (by omega))
  have h5 := abs_le.1 (hd 5 (by omega))
  have h6 := abs_le.1 (hd 6 (by omega))
  have h7 := abs_le.1 (hd 7 (by omega))
  have hz1 := mulQ14_bounds (d 1 + d 6 - (d 2 + d 5) + (d 0 + d 7 - (d 3 + d 4))) 11585
  have hz2 := mulQ14_bounds (d 3 - d 4 + (d 2 - d 5)) 8867
  have hz3 := mulQ14_bounds (d 2 - d 5 + (d 1 - d 6)) 11585
  have hz4 := mulQ14_bounds (d 1 - d 6 + (d 0 - d 7)) 21407
  have hz5 := mulQ14_bounds (d 3 - d 4 + (d 2 - d 5) - (d 1 - d 6 + (d 0 - d 7))) 6270
  rw [abs_le', passBound, Int.le_ediv_iff_mul_le (by omega), Int.le_ediv_iff_mul_le (by omega)]
  interval_cases k <;>
    simp only [aan8Of, aan8, outputGain, outputSlack, List.getD_cons_zero, List.getD_cons_succ] <;>
    constructor <;> linarith

/-! The two passes (R150). -/

/-- Output u of the column pass on column v of the row pass, x r c the input at row r and column c. -/
def twoPass (x : Nat → Nat → Int) (u v : Nat) : Int := (aan8Of fun r => (aan8Of (x r)).getD v 0).getD u 0

theorem twoPass_congr {x y : Nat → Nat → Int} (h : ∀ r < 8, ∀ c < 8, x r c = y r c) (u v : Nat) :
    twoPass x u v = twoPass y u v := by
  rw [twoPass, aan8Of_congr fun r hr => congrArg (·.getD v 0) (aan8Of_congr (h r hr)), ← twoPass]

/-- Raising every input by c raises the DC output by 64c and no other. -/
theorem twoPass_add (x : Nat → Nat → Int) (c : Int) {u v : Nat} (hu : u < 8) (hv : v < 8) :
    twoPass (fun i j => x i j + c) u v = twoPass x u v + if u = 0 ∧ v = 0 then 64 * c else 0 := by
  simp only [twoPass, aan8Of_add _ c hv, aan8Of_add _ _ hu]
  rw [add_right_inj]
  split_ifs <;> omega

/-- The DC output is the sum of the inputs. -/
theorem twoPass_sum (x : Nat → Nat → Int) :
    twoPass x 0 0 = ((List.range 8).map fun r => ((List.range 8).map (x r)).sum).sum := by
  simp only [twoPass, aan8Of_sum]

theorem twoPass_bound {x : Nat → Nat → Int} {m : Int} (hx : ∀ r < 8, ∀ c < 8, |x r c| ≤ m) {u v : Nat}
    (hu : u < 8) (hv : v < 8) : |twoPass x u v| ≤ passBound u (passBound v m) :=
  aan8Of_bound (fun r hr => aan8Of_bound (hx r hr) hv) hu

/-! The coefficients of a block. -/

/-- The level-shifted, pre-scaled sample at row r and column c of a block. -/
def shiftedAt (xs : List Byte) (r c : Nat) : Int := (xs.map levelShift).getD (8 * r + c) 0

theorem shiftedAt_eq {xs : List Byte} {r c : Nat} (h : 8 * r + c < xs.length) :
    shiftedAt xs r c = (((xs[8 * r + c]).toNat : Int) - 128) * 8 := by
  simp [shiftedAt, levelShift, h]

theorem rowPass_eq (x : List Int) :
    rowPass x = (List.range 64).map fun i => (aan8At x (8 * (i / 8)) 1).getD (i % 8) 0 :=
  flatMap_rows (m := 8) (fun c r => (aan8At x (8 * r) 1).getD c 0) (by omega) 8

theorem aan8At_rowPass (xs : List Byte) {u v : Nat} (hv : v < 8) :
    (aan8At (rowPass (xs.map levelShift)) v 8).getD u 0 = twoPass (shiftedAt xs) u v := by
  rw [aan8At_eq, twoPass]
  refine congrArg (·.getD u 0) (aan8Of_congr fun r hr => ?_)
  have hrow : (v + r * 8) / 8 = r := by omega
  have hcol : (v + r * 8) % 8 = v := by omega
  rw [rowPass_eq, List.getD_eq_getElem?_getD, List.getElem?_map, List.getElem?_range (by omega), Option.map_some,
    Option.getD_some, hrow, hcol, aan8At_eq]
  simp only [Nat.mul_one]
  rfl

/-- Coefficient i of a block is the two-pass output at row i / 8 and column i % 8, post-scaled. -/
theorem fdctBlock_getD (xs : List Byte) {i : Nat} (hi : i < 64) :
    (fdctBlock xs).getD i 0 = postOne (twoPass (shiftedAt xs) (i / 8) (i % 8)) (postScale.getD i 0) := by
  have hget := fdctBlock_getElem? xs (u := i / 8) (v := i % 8) (by omega) (by omega)
  rw [Nat.div_add_mod] at hget
  rw [List.getD_eq_getElem?_getD, hget, Option.getD_some, aan8At_rowPass xs (by omega)]

theorem shiftedAt_raise {xs : List Byte} {k : Nat} (hl : xs.length = 64) (hk : ∀ b ∈ xs, b.toNat + k ≤ 255) :
    ∀ r < 8, ∀ c < 8, shiftedAt (xs.map fun b => b + BitVec.ofNat 8 k) r c = shiftedAt xs r c + 8 * k := by
  intro r hr c hc
  have hlt : 8 * r + c < xs.length := by omega
  have hle := hk _ (List.getElem_mem hlt)
  have hsum : (xs[8 * r + c] + BitVec.ofNat 8 k).toNat = xs[8 * r + c].toNat + k := by
    rw [BitVec.toNat_add, BitVec.toNat_ofNat]
    omega
  rw [shiftedAt_eq (by simpa using hlt), shiftedAt_eq hlt, List.getElem_map, hsum]
  push_cast
  ring

/-- Settles O36: the two passes keep the offset exact, and 64 * 8k times POST[0] is 8k * 2^18. -/
theorem fdctOffsetExact : Obligations.FdctOffsetExact := by
  unfold Obligations.FdctOffsetExact
  intro xs k hl hk i hi
  rw [fdctBlock_getD _ hi, fdctBlock_getD _ hi, twoPass_congr (shiftedAt_raise hl hk),
    twoPass_add _ _ (by omega) (by omega), postOne_eq, postOne_eq]
  by_cases h0 : i = 0
  · subst h0
    simp only [Nat.zero_div, Nat.zero_mod, and_self, if_true, postScale, List.getD_cons_zero]
    omega
  · rw [if_neg (by omega), if_neg h0, add_zero, add_zero]

/-- Settles O35: a flat block is the block of zeros raised by its sample. -/
theorem fdctFlatBlock : Obligations.FdctFlatBlock := by
  unfold Obligations.FdctFlatBlock
  intro b
  have hzero : fdctBlock (List.replicate 64 0#8) = -1024 :: List.replicate 63 0 := by decide
  have hb := b.isLt
  have hraise : List.replicate 64 b = (List.replicate 64 0#8).map fun c => c + BitVec.ofNat 8 b.toNat := by simp
  have hoff := fdctOffsetExact (List.replicate 64 0#8) b.toNat (by simp) fun c hc => by
    rw [List.eq_of_mem_replicate hc, BitVec.toNat_ofNat]
    omega
  refine List.ext_getElem (by simp) fun i hi _ => ?_
  have hi64 : i < 64 := by simpa using hi
  have hi' := hoff i hi64
  rw [← hraise, hzero, List.getD_eq_getElem _ _ hi] at hi'
  rw [hi']
  cases i with
  | zero =>
    rw [List.getD_cons_zero, if_pos rfl, List.getElem_cons_zero]
    omega
  | succ i =>
    rw [List.getD_cons_succ, List.getD_replicate _ (Nat.lt_of_succ_lt_succ hi64), if_neg (by omega), add_zero,
      List.getElem_cons_succ, List.getElem_replicate]

/-- The double sum over rows and columns of a block is the sum of its list. -/
theorem sum_rows {y : List Int} (hl : y.length = 64) :
    ((List.range 8).map fun r => ((List.range 8).map fun c => y.getD (8 * r + c) 0).sum).sum = y.sum := by
  have hy : y = (List.range 8).flatMap fun r => (List.range 8).map fun c => y.getD (8 * r + c) 0 := by
    rw [flatMap_rows (fun c r => y.getD (8 * r + c) 0) (by omega)]
    refine List.ext_getElem (by simp [hl]) fun i hi _ => ?_
    simp [Nat.div_add_mod, hi]
  conv_rhs => rw [hy, List.flatMap, List.sum_flatten, List.map_map]
  rfl

theorem twoPass_shiftedAt_zero {xs : List Byte} (hl : xs.length = 64) :
    twoPass (shiftedAt xs) 0 0 = (xs.map fun b => (b.toNat : Int) - 128).sum * 8 := by
  rw [← List.sum_map_mul_right]
  exact (twoPass_sum _).trans (sum_rows (by simpa using hl))

/-- Settles O37: the DC output is 8 S, and POST[0] / 2^18 is 1 / 64. -/
theorem fdctDcIsRoundedMean : Obligations.FdctDcIsRoundedMean := by
  unfold Obligations.FdctDcIsRoundedMean
  intro xs hl
  rw [fdctBlock_getD _ (by omega), twoPass_shiftedAt_zero hl, postOne_eq, postScale, List.getD_cons_zero]
  omega

/-! The range of the coefficients (R155). -/

theorem shifted_sum_range {xs : List Byte} (hl : xs.length = 64) :
    -8192 ≤ (xs.map fun b => (b.toNat : Int) - 128).sum ∧ (xs.map fun b => (b.toNat : Int) - 128).sum ≤ 8128 := by
  have hb : ∀ y ∈ xs.map (fun b => (b.toNat : Int) - 128), -128 ≤ y ∧ y ≤ 127 := by
    intro y hy
    obtain ⟨b, -, rfl⟩ := List.mem_map.1 hy
    omega
  have hlo := List.card_nsmul_le_sum _ _ fun y hy => (hb y hy).1
  have hhi := List.sum_le_card_nsmul _ _ fun y hy => (hb y hy).2
  simp only [List.length_map, hl, nsmul_eq_mul] at hlo hhi
  omega

/-- Raised by 4, the shifted samples lie in -1020..1020. -/
theorem shiftedAt_centred {xs : List Byte} (hl : xs.length = 64) :
    ∀ r < 8, ∀ c < 8, |shiftedAt xs r c + 4| ≤ 1020 := by
  intro r hr c hc
  have hlt : 8 * r + c < xs.length := by omega
  rw [shiftedAt_eq hlt, abs_le]
  omega

/-- The bound of each two-pass output on samples in -1020..1020 scales to a coefficient of magnitude at most 1023. -/
theorem passBound_postScale : ∀ i < 64,
    passBound (i / 8) (passBound (i % 8) 1020) * postScale.getD i 0 ≤ 1023 * 262144 := by
  decide

theorem postScale_nonneg : ∀ i < 64, 0 ≤ postScale.getD i 0 := by decide

/-- Settles O38: the DC is the rounded mean; the AC outputs are those of the samples raised by 4, whose range is
symmetric. -/
theorem fdctWithinCategoryLimits : Obligations.FdctWithinCategoryLimits := by
  unfold Obligations.FdctWithinCategoryLimits
  intro xs hl
  constructor
  · have hS := shifted_sum_range hl
    rw [fdctDcIsRoundedMean xs hl]
    omega
  · intro i h1 hi
    have hraise := twoPass_add (shiftedAt xs) 4 (u := i / 8) (v := i % 8) (by omega) (by omega)
    rw [if_neg (by omega), add_zero] at hraise
    have hout := twoPass_bound (shiftedAt_centred hl) (u := i / 8) (v := i % 8) (by omega) (by omega)
    have hscaled : |twoPass (shiftedAt xs) (i / 8) (i % 8) * postScale.getD i 0| ≤ 1023 * 262144 := by
      rw [abs_mul, abs_of_nonneg (postScale_nonneg i hi), ← hraise]
      exact (mul_le_mul_of_nonneg_right hout (postScale_nonneg i hi)).trans (passBound_postScale i hi)
    rw [fdctBlock_getD _ hi, postOne_eq]
    have hrange := abs_le.1 hscaled
    omega

/-- Refutes O39: the samples 255 in columns 0, 3, 4, 7 and 0 in the others have COEF[4] = 1020. -/
theorem not_fdctAcBoundOfTheSpec : ¬ Obligations.FdctAcBoundOfTheSpec := by
  unfold Obligations.FdctAcBoundOfTheSpec
  intro h
  have hle := h ((List.range 64).map fun i => if i % 8 ∈ [0, 3, 4, 7] then 255#8 else 0#8) (by simp) 4 (by omega)
    (by omega)
  exact absurd hle (by decide)

end Sys2Proof.Machine

/-! PROOF. QUANT and ZIGZAG: how the commands end, the quotient of one coefficient, and the scan order
(42_quant_zigzag.md). -/

namespace Sys2Proof.Machine

open Sys2Proof.Safety

/-- What readAt answers, stored in order, holds at k the entry read k-th. -/
theorem tabGet_tabOf_readAt {α : Type} {r : Region} {st : Store α} {s : State} {ks : List Nat} {vs : List α}
    (h : readAt r st s ks = .ok vs) {k : Nat} (hk : k < ks.length) :
    tabGet (tabOf 0 vs) k = tabGet st (ks.getD k 0) := by
  have hkv : k < vs.length := (readAt_length _ _ _ _ _ h).symm ▸ hk
  have hat := congrArg (·[k]?) ((readAt_ok r st s ks vs).1 h)
  simp only [List.getElem?_map, List.getElem?_eq_getElem hk, List.getElem?_eq_getElem hkv, Option.map_some,
    Option.some.injEq] at hat
  rw [tabGet_tabOf, if_pos (Nat.zero_le k), Nat.sub_zero, List.getElem?_eq_getElem hkv, List.getD_eq_getElem _ _ hk,
    hat]

/-! The divisors (R170). -/

/-- Divisor i of table t, an entry with no value standing as 0. -/
def divisorAt (t : QSel) (s : State) (i : Nat) : Nat := ((tabGet s.qtab (64 * qselNumber t + i)).getD 0#8).toNat

/-- Divisor i of table t is written and is not 0. -/
def DivisorReady (t : QSel) (s : State) (i : Nat) : Prop :=
  ∃ q, tabGet s.qtab (64 * qselNumber t + i) = some q ∧ q ≠ 0#8

theorem readDivisors_succ {t : QSel} {s : State} {i : Nat} (h : DivisorReady t s i) (n : Nat) :
    readDivisors t s i (n + 1) = (readDivisors t s (i + 1) n).map (divisorAt t s i :: ·) := by
  obtain ⟨q, hq, h0⟩ := h
  rw [readDivisors, divisorAt, hq]
  simp only [if_neg h0, Option.getD_some]
  cases readDivisors t s (i + 1) n <;> rfl

/-- Reading passes over the divisors that are ready: the rest decides how it ends. -/
theorem readDivisors_add {t : QSel} {s : State} {m : Nat} (h : ∀ j < m, DivisorReady t s j) (n : Nat) :
    readDivisors t s 0 (m + n) = (readDivisors t s m n).map ((List.range m).map (divisorAt t s) ++ ·) := by
  induction m generalizing n with
  | zero => rw [Nat.zero_add]; cases readDivisors t s 0 n <;> rfl
  | succ m ih =>
    rw [Nat.add_right_comm, Nat.add_assoc, ih (fun j hj => h j (by omega)), readDivisors_succ (h m (by omega))]
    cases readDivisors t s (m + 1) n <;> simp [Except.map, List.range_succ]

theorem readDivisors_ready {t : QSel} {s : State} (h : DivisorsReady t s) :
    readDivisors t s 0 64 = .ok ((List.range 64).map (divisorAt t s)) := by
  rw [readDivisors_add (m := 64) h 0, readDivisors, Except.map, List.append_nil]

/-- With all divisors before i ready, a zero at i raises QZERO, whatever stands after it. -/
theorem readDivisors_zero {t : QSel} {s : State} {i : Nat} (hi : i < 64)
    (hzero : tabGet s.qtab (64 * qselNumber t + i) = some 0#8) (hbefore : ∀ j < i, DivisorReady t s j) :
    readDivisors t s 0 64 = .error (.raise .qzero (BitVec.ofNat 32 i) s) := by
  have hstop : readDivisors t s i (63 - i + 1) = .error (.raise .qzero (BitVec.ofNat 32 i) s) := by
    rw [readDivisors, hzero]; rfl
  rw [show 64 = i + (63 - i + 1) by omega, readDivisors_add hbefore, hstop, Except.map]

/-! The commands (R170, R177). -/

theorem exec_quant_eq (t : QSel) (s : State) : exec (.quant t) s = finish Footprint.none (quantBody t s) := rfl

theorem exec_zigzag_eq (s : State) : exec .zigzag s = finish (footprint s.ctrl .zigzag) (zigzagBody s) := rfl

/-- QUANT with ready divisors and COEF written completes, and each QCOEF entry is `quantOne` of its coefficient and
divisor. -/
theorem exec_quant_ready {t : QSel} {s : State} (hd : DivisorsReady t s) (hc : Written s.coef 0 64) :
    ∃ u, exec (.quant t) s = .next u ∧ u = { complete s with qcoef := u.qcoef } ∧
      ∀ i < 64, ∀ (q : Byte) (x : Half), tabGet s.qtab (64 * qselNumber t + i) = some q →
        tabGet s.coef i = some x →
        tabGet u.qcoef i = some (BitVec.ofInt 16 (quantOne x.toInt q.toNat)) := by
  obtain ⟨xs, hread, -⟩ := readAt_of_written .coef s.coef s (List.range 64) fun k hk => by
    simpa using hc k (List.mem_range.1 hk)
  rw [exec_quant_eq, quantBody, readDivisors_ready hd]
  simp only [hread]
  refine ⟨_, rfl, rfl, fun i hi q x hq hx => ?_⟩
  have hxi := tabGet_tabOf_readAt hread (k := i) (by simpa using hi)
  simp only [tabGet_tabOf, Nat.zero_le, if_true, Nat.sub_zero, List.getD_eq_getElem?_getD, List.getElem?_range hi,
    Option.getD_some, hx] at hxi
  simp [tabGet_tabOf, List.getElem?_zipWith, hxi, hi, divisorAt, hq]

theorem exec_zigzag_written {s : State} (h : Written s.qcoef 0 64) :
    ∃ u, exec .zigzag s = .next u ∧ u = { complete s with zzbuf := u.zzbuf } ∧
      ∀ k < 64, tabGet u.zzbuf k = tabGet s.qcoef (zzOrder.getD k 0) := by
  have hlt : ∀ k ∈ zzOrder, k < 64 := by decide
  obtain ⟨xs, hread, -⟩ := readAt_of_written .qcoef s.qcoef s zzOrder fun k hk => by simpa using h k (hlt k hk)
  rw [exec_zigzag_eq, zigzagBody, hread]
  exact ⟨_, rfl, rfl, fun k hk => tabGet_tabOf_readAt hread hk⟩

/-! The quotient (R170 to R172). -/

theorem quantOne_of_nonneg {x : Int} (hx : 0 ≤ x) (q : Nat) : quantOne x q = ((x.natAbs + q / 2) / q : Nat) :=
  if_pos hx

theorem quantOne_of_neg {x : Int} (hx : x < 0) (q : Nat) : quantOne x q = -((x.natAbs + q / 2) / q : Nat) :=
  if_neg hx.not_ge

theorem natAbs_quantOne (x : Int) (q : Nat) : (quantOne x q).natAbs = (x.natAbs + q / 2) / q := by
  rcases le_or_gt 0 x with hx | hx
  · rw [quantOne_of_nonneg hx, Int.natAbs_natCast]
  · rw [quantOne_of_neg hx, Int.natAbs_neg, Int.natAbs_natCast]

/-- Also for x = 0, whose quotient is 0. -/
theorem quantOne_neg (x : Int) (q : Nat) : quantOne (-x) q = -quantOne x q := by
  rcases lt_trichotomy x 0 with hx | rfl | hx
  · rw [quantOne_of_neg hx, quantOne_of_nonneg (by omega), Int.natAbs_neg, neg_neg]
  · have hzero : quantOne 0 q = 0 := by
      rw [← Int.natAbs_eq_zero, natAbs_quantOne, Nat.div_eq_zero_iff]
      omega
    rw [neg_zero, hzero, neg_zero]
  · rw [quantOne_of_nonneg hx.le, quantOne_of_neg (by omega), Int.natAbs_neg]

/-- Halves away from zero: adding q div 2 carries into the quotient exactly when r reaches q - q div 2. -/
theorem roundedDiv_eq {q n r : Nat} (hr : r < q) :
    (n * q + r + q / 2) / q = if q - q / 2 ≤ r then n + 1 else n := by
  have hcarry : (r + q / 2) / q = if q - q / 2 ≤ r then 1 else 0 := by
    split_ifs with h
    · exact Nat.div_eq_of_lt_le (by omega) (by omega)
    · exact Nat.div_eq_of_lt (by omega)
  rw [Nat.add_assoc, Nat.mul_comm, Nat.mul_add_div (by omega), hcarry]
  split_ifs <;> rfl

theorem natAbs_quantOne_le (x : Int) {q : Nat} (hq : 0 < q) : (quantOne x q).natAbs ≤ x.natAbs := by
  have hmul : x.natAbs ≤ x.natAbs * q := Nat.le_mul_of_pos_right _ hq
  rw [natAbs_quantOne, ← Nat.lt_succ_iff, Nat.div_lt_iff_lt_mul hq, Nat.succ_mul]
  omega

theorem quantOne_eq_zero_iff (x : Int) {q : Nat} (hq : 0 < q) : quantOne x q = 0 ↔ x.natAbs < q - q / 2 := by
  rw [← Int.natAbs_eq_zero, natAbs_quantOne, Nat.div_eq_zero_iff]
  omega

theorem quantOne_one (x : Int) : quantOne x 1 = x := by
  rcases le_or_gt 0 x with hx | hx
  · rw [quantOne_of_nonneg hx]; omega
  · rw [quantOne_of_neg hx]; omega

/-- A quotient of a 16-bit coefficient is no larger than it, so its 16 bits are 0 only when it is. -/
theorem ofInt_quantOne_eq_zero_iff (x : Half) {q : Nat} (hq : 0 < q) :
    BitVec.ofInt 16 (quantOne x.toInt q) = 0#16 ↔ quantOne x.toInt q = 0 := by
  refine ⟨fun h => ?_, fun h => by rw [h]; rfl⟩
  have hle := natAbs_quantOne_le x.toInt hq
  have hlo := BitVec.le_toInt x
  have hhi := BitVec.toInt_lt (x := x)
  have hmod := congrArg BitVec.toNat h
  rw [BitVec.toNat_ofInt, BitVec.toNat_ofNat] at hmod
  omega

/-- Settles O40: every entry is `quantOne`, by definition the quotient of R170. -/
theorem quantCompletes : Obligations.QuantCompletes := by
  unfold Obligations.QuantCompletes
  intro tb s hd hc
  obtain ⟨t, hexec, hframe, hq⟩ := exec_quant_ready hd hc
  exact ⟨t, hexec, hframe, hq⟩

/-- Settles O41: the loop passes over the divisors before i and stops there; QUANT has nothing to free. -/
theorem quantZeroDivisor : Obligations.QuantZeroDivisor := by
  unfold Obligations.QuantZeroDivisor
  intro tb s i hi hzero hbefore
  rw [exec_quant_eq, quantBody, readDivisors_zero hi hzero hbefore]
  rfl

/-- Settles O42: `roundedDiv_eq` on the magnitude. -/
theorem quantRoundingLaw : Obligations.QuantRoundingLaw := by
  unfold Obligations.QuantRoundingLaw
  intro x q n r hq _ hr hx m
  have hm : ((x.natAbs + q / 2) / q : Nat) = m := by
    rw [hx, roundedDiv_eq hr]
    exact Nat.cast_ite _ _ _
  refine ⟨fun h => (quantOne_of_nonneg h q).trans hm, fun h => (quantOne_of_neg h q).trans (congrArg _ hm),
    quantOne_neg x q, fun heven htie => if_pos (by omega), by omega⟩

/-- Settles O43: the stored quotient is 0 exactly in the dead zone, and q = 1 divides nothing. -/
theorem quantDeadZone : Obligations.QuantDeadZone := by
  unfold Obligations.QuantDeadZone
  intro tb s hd hc
  obtain ⟨t, hexec, -, hget⟩ := exec_quant_ready hd hc
  refine ⟨t, hexec, fun i hi q x hq hx => ⟨?_, fun h1 => ?_⟩⟩
  · obtain ⟨q', hq', h0⟩ := hd i hi
    obtain rfl : q' = q := by simpa [hq] using hq'.symm
    have hpos : 0 < q'.toNat := Nat.pos_of_ne_zero fun h => h0 (BitVec.eq_of_toNat_eq h)
    rw [hget i hi q' x hq hx, Option.some_inj, ofInt_quantOne_eq_zero_iff x hpos, quantOne_eq_zero_iff _ hpos]
  · subst h1
    rw [hget i hi _ x hq hx, show (1#8 : Byte).toNat = 1 from rfl, quantOne_one, BitVec.ofInt_toInt]

/-! The scan order (R176, R178). -/

theorem zzInv_lt : ∀ i < 64, zzInv.getD i 0 < 64 := by decide

theorem zzOrder_zzInv : ∀ i < 64, zzOrder.getD (zzInv.getD i 0) 0 = i := by decide

/-- Settles O44: `readAt` follows ZZORDER, and the two tables undo each other. -/
theorem zigzagCompletes : Obligations.ZigzagCompletes := by
  unfold Obligations.ZigzagCompletes
  intro s h
  obtain ⟨t, hexec, hframe, hget⟩ := exec_zigzag_written h
  refine ⟨t, hexec, hframe, hget, fun i hi => ?_, by decide, by decide⟩
  rw [hget _ (zzInv_lt i hi), zzOrder_zzInv i hi]

end Sys2Proof.Machine

/-! PROOF. Control commands and the category arithmetic of the entropy coder (43_entropy.md). -/

namespace Sys2Proof.Machine

open Sys2Proof.Safety

/-! DC_RESET and FREQ_CLEAR (R220, R221). -/

/-- Settles O23: the command is `complete` of `dcResetBody`, field by field as stated. -/
theorem dcResetCompletes : Obligations.DcResetCompletes := by
  unfold Obligations.DcResetCompletes
  exact fun _ => rfl

/-- Settles O24: the counters become a table of 1024 zeros. -/
theorem freqClearCompletes : Obligations.FreqClearCompletes := by
  unfold Obligations.FreqClearCompletes
  refine fun s => ⟨complete (freqClearBody s), rfl, rfl, fun tbl htbl sym hsym => ?_⟩
  have hlt : 256 * tbl + sym < 1024 := by omega
  rw [complete_freq, freqClearBody, tabGet_tabOf, if_pos (Nat.zero_le _), Nat.sub_zero, List.getElem?_replicate,
    if_pos hlt]

/-! Category and magnitude (R194, R195). -/

/-- The category exceeds k exactly when the magnitude needs more than k bits. -/
theorem lt_cat_iff {v : Int} {k : Nat} : k < cat v ↔ 2 ^ k ≤ v.natAbs := by
  unfold cat bitlen
  split
  · next h0 => simp [h0]
  · next h0 => rw [Nat.lt_succ_iff, Nat.le_log2 h0]

theorem cat_le_iff {v : Int} {k : Nat} : cat v ≤ k ↔ v.natAbs < 2 ^ k := by
  rw [← not_lt, lt_cat_iff, not_le]

theorem natAbs_lt_two_pow_cat (v : Int) : v.natAbs < 2 ^ cat v := cat_le_iff.1 le_rfl

theorem cat_pos {v : Int} (hv : v ≠ 0) : 0 < cat v := lt_cat_iff.2 (Int.natAbs_pos.2 hv)

theorem two_pow_le_natAbs {v : Int} (hv : v ≠ 0) : 2 ^ (cat v - 1) ≤ v.natAbs :=
  lt_cat_iff.1 (Nat.sub_one_lt (cat_pos hv).ne')

/-- Settles O45: the two bounds of `lt_cat_iff`. -/
theorem categoryIsBitLength : Obligations.CategoryIsBitLength := by
  unfold Obligations.CategoryIsBitLength
  exact ⟨rfl, fun v hv => ⟨cat_pos hv, two_pow_le_natAbs hv, natAbs_lt_two_pow_cat v⟩⟩

theorem mag_of_nonneg {v : Int} (hv : 0 ≤ v) (c : Nat) : mag v c = v.natAbs := by
  rw [mag, if_pos hv]
  omega

/-- The remainder of v - 1 is v - 1 + 2^c, since v lies above -2^c. -/
theorem mag_of_neg {v : Int} (hv : v < 0) : (mag v (cat v) : Int) = v + 2 ^ cat v - 1 := by
  have hlt := natAbs_lt_two_pow_cat v
  have hrem : (v - 1) % (2 ^ cat v : Int) = v + 2 ^ cat v - 1 := by
    zify at hlt
    rw [abs_of_neg hv] at hlt
    rw [← Int.add_emod_right, Int.emod_eq_of_lt] <;> omega
  rw [mag, if_neg hv.not_ge, hrem]
  zify at hlt
  rw [abs_of_neg hv] at hlt
  omega

theorem mag_lt (v : Int) : mag v (cat v) < 2 ^ cat v := by
  rcases le_or_gt 0 v with hv | hv
  · rw [mag_of_nonneg hv]
    exact natAbs_lt_two_pow_cat v
  · have hm := mag_of_neg hv
    zify
    omega

/-- Settles O46: `mag_of_nonneg` and `mag_of_neg`, the leading bit by 2^(c-1) <= |v|. -/
theorem magnitudeBits : Obligations.MagnitudeBits := by
  unfold Obligations.MagnitudeBits
  intro v hv
  have hlo := two_pow_le_natAbs hv
  refine ⟨fun hpos => ?_, fun hneg => ⟨mag_of_neg hneg, ?_⟩, mag_lt v⟩
  · rw [mag_of_nonneg hpos.le]
    exact ⟨by omega, hlo⟩
  · have hm := mag_of_neg hneg
    have hdouble : 2 ^ cat v = 2 * 2 ^ (cat v - 1) := by
      rw [← pow_succ', Nat.sub_add_cancel (cat_pos hv)]
    zify at hlo hdouble ⊢
    rw [abs_of_neg hneg] at hlo
    omega

end Sys2Proof.Machine

/-! PROOF. Bits, bytes and stuffing as lists (43_entropy.md R190, R191, R193). -/

namespace Sys2Proof.Machine

open Sys2Proof.Safety

/-! Bits. -/

@[simp] theorem bitsOf_length (n v : Nat) : (bitsOf n v).length = n := by
  induction n with
  | zero => rfl
  | succ n ih => rw [bitsOf, List.length_cons, ih]

theorem bitsOf_mod {m n : Nat} (h : n ≤ m) (v : Nat) : bitsOf n (v % 2 ^ m) = bitsOf n v := by
  induction n with
  | zero => rfl
  | succ n ih =>
    have hbit : v % 2 ^ m / 2 ^ n % 2 = v / 2 ^ n % 2 := by
      rw [← Nat.sub_add_cancel (show n ≤ m by omega), pow_add, Nat.mul_comm, Nat.mod_mul_right_div_self,
        Nat.mod_mod_of_dvd _ (dvd_pow_self 2 (by omega))]
    rw [bitsOf, bitsOf, hbit, ih (by omega)]

theorem bitsOf_add (m n v : Nat) : bitsOf (m + n) v = bitsOf m (v / 2 ^ n) ++ bitsOf n v := by
  induction m with
  | zero => simp [bitsOf]
  | succ m ih =>
    rw [Nat.add_right_comm, bitsOf, bitsOf, ih, Nat.div_div_eq_div_mul, ← pow_add, Nat.add_comm n m,
      List.cons_append]

/-- Appending n bits v to an accumulator shifts it by n. -/
theorem bitsOf_append (m n acc : Nat) {v : Nat} (hv : v < 2 ^ n) :
    bitsOf (m + n) (acc * 2 ^ n + v) = bitsOf m acc ++ bitsOf n v := by
  rw [bitsOf_add, Nat.add_comm, Nat.add_mul_div_right _ _ (by positivity), Nat.div_eq_of_lt hv, Nat.zero_add,
    ← bitsOf_mod (le_refl n) (v + acc * 2 ^ n), Nat.add_mul_mod_self_right, Nat.mod_eq_of_lt hv]

theorem bitsOf_ones (n : Nat) : bitsOf n (2 ^ n - 1) = List.replicate n true := by
  induction n with
  | zero => rfl
  | succ n ih =>
    have hsum : 2 ^ (n + 1) - 1 = 1 * 2 ^ n + (2 ^ n - 1) := by
      have := Nat.one_le_two_pow (n := n)
      rw [pow_succ]
      omega
    calc bitsOf (n + 1) (2 ^ (n + 1) - 1)
      _ = bitsOf 1 1 ++ bitsOf n (2 ^ n - 1) := by
        rw [hsum, Nat.add_comm n 1, bitsOf_append 1 n 1 (Nat.sub_one_lt (by positivity))]
      _ = List.replicate (n + 1) true := by rw [ih]; rfl

/-- n bits show the remainder of what they were taken from. -/
theorem bitsValue_bitsOf (n v : Nat) : bitsValue (bitsOf n v) = v % 2 ^ n := by
  induction n generalizing v with
  | zero => exact (Nat.mod_one v).symm
  | succ n ih =>
    have hbit : (v / 2 ^ 0 % 2 == 1).toNat = v % 2 := by
      rw [pow_zero, Nat.div_one]
      rcases Nat.mod_two_eq_zero_or_one v with h | h <;> rw [h] <;> rfl
    have hlast : bitsValue (bitsOf (n + 1) v) = 2 * bitsValue (bitsOf n (v / 2)) + v % 2 := by
      rw [bitsOf_add, bitsValue, List.foldl_append, pow_one, ← hbit]
      rfl
    rw [hlast, ih, pow_succ', Nat.mod_mul, Nat.add_comm]

/-! Complete bytes. -/

theorem completeBytes_of_lt {l : List Bool} (h : l.length < 8) : completeBytes l = [] := by
  rw [completeBytes.eq_def]
  split
  · simp only [List.length_cons] at h
    omega
  · rfl

theorem completeBytes_bitsOf (v : Nat) (l : List Bool) :
    completeBytes (bitsOf 8 v ++ l) = BitVec.ofNat 8 v :: completeBytes l := by
  have hv : BitVec.ofNat 8 (bitsValue (bitsOf 8 v)) = BitVec.ofNat 8 v := by
    rw [bitsValue_bitsOf]
    exact BitVec.eq_of_toNat_eq (by simp)
  rw [← hv]
  rfl

theorem byteBits_cons (b : Byte) (bs : List Byte) : byteBits (b :: bs) = bitsOf 8 b.toNat ++ byteBits bs := rfl

theorem byteBits_append (as bs : List Byte) : byteBits (as ++ bs) = byteBits as ++ byteBits bs := List.flatMap_append

theorem byteBits_length (bs : List Byte) : (byteBits bs).length = 8 * bs.length := by
  induction bs with
  | nil => rfl
  | cons b bs ih =>
    rw [byteBits_cons, List.length_append, bitsOf_length, ih, List.length_cons]
    omega

theorem completeBytes_byteBits (bs : List Byte) (l : List Bool) :
    completeBytes (byteBits bs ++ l) = bs ++ completeBytes l := by
  induction bs with
  | nil => rfl
  | cons b bs ih =>
    rw [byteBits_cons, List.append_assoc, completeBytes_bitsOf, ih, BitVec.ofNat_toNat, BitVec.setWidth_eq,
      List.cons_append]

/-- An accumulator of 8k + rem bits is k bytes and the rem bits left. -/
theorem bitsOf_bytes (k rem acc : Nat) : ∃ bs : List Byte, bs.length = k ∧
    bitsOf (8 * k + rem) acc = byteBits bs ++ bitsOf rem acc := by
  induction k with
  | zero => exact ⟨[], rfl, by simp [byteBits]⟩
  | succ k ih =>
    obtain ⟨bs, hlen, hbs⟩ := ih
    refine ⟨BitVec.ofNat 8 (acc / 2 ^ (8 * k + rem)) :: bs, by simp [hlen], ?_⟩
    rw [byteBits_cons, BitVec.toNat_ofNat, bitsOf_mod (le_refl 8), List.append_assoc, ← hbs, ← bitsOf_add]
    congr 1
    omega

/-! Stuffing. -/

theorem stuffed_append (as bs : List Byte) : stuffed (as ++ bs) = stuffed as ++ stuffed bs := List.flatMap_append

theorem stuffed_cons (b : Byte) (bs : List Byte) : stuffed (b :: bs) = stuffed [b] ++ stuffed bs :=
  stuffed_append [b] bs

theorem stuffed_marker (bs : List Byte) : stuffed (0xFF#8 :: bs) = 0xFF#8 :: 0x00#8 :: stuffed bs := rfl

theorem stuffed_plain {b : Byte} (hb : b ≠ 0xFF#8) (bs : List Byte) : stuffed (b :: bs) = b :: stuffed bs := by
  rw [stuffed_cons]
  simp [stuffed, hb]

theorem stuffed_head (b : Byte) (bs : List Byte) : (stuffed (b :: bs))[0]? = some b := by
  by_cases hb : b = 0xFF#8
  · rw [hb]
    rfl
  · rw [stuffed_plain hb]
    rfl

theorem stuffed_length_le (bs : List Byte) : (stuffed bs).length ≤ 2 * bs.length := by
  induction bs with
  | nil => simp [stuffed]
  | cons b bs ih =>
    by_cases hb : b = 0xFF#8
    · subst hb
      simp only [stuffed_marker, List.length_cons]
      omega
    · simp only [stuffed_plain hb, List.length_cons]
      omega

/-- In a stuffed stream every 0xFF is followed by 0x00 (R193). -/
theorem stuffed_getElem?_marker {bs : List Byte} {i : Nat} (h : (stuffed bs)[i]? = some 0xFF#8) :
    (stuffed bs)[i + 1]? = some 0x00#8 := by
  induction bs generalizing i with
  | nil => simp [stuffed] at h
  | cons b bs ih =>
    by_cases hb : b = 0xFF#8
    · subst hb
      rw [stuffed_marker] at h ⊢
      match i, h with
      | 0, _ => rfl
      | 1, h => simp at h
      | i + 2, h => exact ih h
    · rw [stuffed_plain hb] at h ⊢
      match i, h with
      | 0, h => simp [hb] at h
      | i + 1, h => exact ih h

/-! The bytes a stream completes. -/

theorem pendingBits_length (s : State) : (pendingBits s).length = s.pack.cnt.toNat := bitsOf_length _ _

theorem pendingBits_length_lt (s : State) : (pendingBits s).length < 8 := by
  rw [pendingBits_length]
  exact s.pack.cnt.isLt

/-- Bits that are some bytes and fewer than eight more are the complete bytes and the rest. -/
theorem completeBytes_of_eq {l r : List Bool} {bs : List Byte} (h : l = byteBits bs ++ r) (hr : r.length < 8) :
    completeBytes l = bs := by
  rw [h, completeBytes_byteBits, completeBytes_of_lt hr, List.append_nil]

/-- From s to t the packer completed the bytes of the bits new and kept the rest pending (R190). -/
def Packed (s t : State) (new : List Bool) : Prop :=
  pendingBits s ++ new = byteBits (completeBytes (pendingBits s ++ new)) ++ pendingBits t

theorem packed_of_eq {s t : State} {new : List Bool} {bs : List Byte}
    (h : pendingBits s ++ new = byteBits bs ++ pendingBits t) : Packed s t new := by
  rw [Packed, completeBytes_of_eq h (pendingBits_length_lt t)]
  exact h

theorem Packed.append {s t : State} {as : List Bool} (h : Packed s t as) (bs : List Bool) :
    completeBytes (pendingBits s ++ (as ++ bs)) =
      completeBytes (pendingBits s ++ as) ++ completeBytes (pendingBits t ++ bs) := by
  rw [← List.append_assoc, h, List.append_assoc, completeBytes_byteBits, ← h]

theorem Packed.trans {s t u : State} {as bs : List Bool} (h1 : Packed s t as) (h2 : Packed t u bs) :
    Packed s u (as ++ bs) := by
  rw [Packed, h1.append, byteBits_append, List.append_assoc, ← h2, ← List.append_assoc, ← List.append_assoc, ← h1]

/-- The bytes of two runs of bits in turn. -/
theorem Packed.streamBytes_append {s t : State} {as : List Bool} (h : Packed s t as) (bs : List Bool) :
    streamBytes s (as ++ bs) = streamBytes s as ++ streamBytes t bs := by
  rw [streamBytes, h.append, stuffed_append]
  rfl

theorem Packed.refl (s : State) : Packed s s [] := packed_of_eq (bs := []) (List.append_nil _)

theorem streamBytes_nil (s : State) : streamBytes s [] = [] := by
  rw [streamBytes, List.append_nil, completeBytes_of_lt (pendingBits_length_lt s)]
  rfl

theorem completeBytes_length_le (l : List Bool) : 8 * (completeBytes l).length ≤ l.length := by
  induction l using completeBytes.induct with
  | case1 b7 b6 b5 b4 b3 b2 b1 b0 rest ih =>
    simp only [completeBytes, List.length_cons]
    omega
  | case2 l hl =>
    rw [completeBytes.eq_2 l hl]
    exact Nat.zero_le _

theorem completeBytes_prefix (l m : List Bool) : completeBytes l <+: completeBytes (l ++ m) := by
  induction l using completeBytes.induct with
  | case1 b7 b6 b5 b4 b3 b2 b1 b0 rest ih => exact (List.prefix_cons_inj _).2 ih
  | case2 l hl =>
    rw [completeBytes.eq_2 l hl]
    exact List.nil_prefix

theorem streamBytes_prefix (s : State) (as bs : List Bool) : streamBytes s as <+: streamBytes s (as ++ bs) := by
  obtain ⟨cs, hcs⟩ := completeBytes_prefix (pendingBits s ++ as) bs
  refine ⟨stuffed cs, ?_⟩
  rw [streamBytes, ← stuffed_append, hcs, List.append_assoc, ← streamBytes]

/-- Stuffing at most doubles the bytes. -/
theorem streamBytes_length_le {s : State} {new : List Bool} {n : Nat} (h : 7 + new.length < 8 * (n + 1)) :
    (streamBytes s new).length ≤ 2 * n := by
  have hstuff := stuffed_length_le (completeBytes (pendingBits s ++ new))
  have hbytes := completeBytes_length_le (pendingBits s ++ new)
  have hpend := pendingBits_length_lt s
  rw [List.length_append] at hbytes
  rw [streamBytes]
  omega

end Sys2Proof.Machine

/-! PROOF. What a run of the byte stream does, said once: its bytes are all written, or the first that cannot be
written stops it (43_entropy.md R190 to R192). -/

namespace Sys2Proof.Machine

open Sys2Proof.Safety

/-! A sequence of operations. -/

/-- What holds of the state a body ends in, and of how it halts. -/
def Sat (P : State → Prop) (E : Halt → Prop) : Except Halt State → Prop
  | .ok t => P t
  | .error e => E e

theorem Sat.bind {P P' : State → Prop} {E : Halt → Prop} {x : Except Halt State} {f : State → Except Halt State}
    (hx : Sat P E x) (hf : ∀ t, P t → Sat P' E (f t)) : Sat P' E (x.bind f) := by
  cases x with
  | error e => exact hx
  | ok t => exact hf t hx

theorem Sat.mono {P P' : State → Prop} {E : Halt → Prop} {x : Except Halt State} (hx : Sat P E x)
    (h : ∀ t, P t → P' t) : Sat P' E x := by
  cases x with
  | error e => exact hx
  | ok t => exact h t hx

theorem Sat.ok {P : State → Prop} {E : Halt → Prop} {x : Except Halt State} {t : State} (hx : Sat P E x)
    (h : x = .ok t) : P t := by
  rw [h] at hx
  exact hx

/-- Every outcome is an end or a halt, and a body that halts is of no use to a condition on its end. -/
theorem sat_of_ok {P : State → Prop} {x : Except Halt State} (h : ∀ t, x = .ok t → P t) :
    Sat P (fun _ => True) x := by
  cases x with
  | error e => exact True.intro
  | ok t => exact h t rfl

theorem body_bind_congr {x : Except Halt State} {f g : State → Except Halt State} (h : ∀ t, x = .ok t → f t = g t) :
    x.bind f = x.bind g := by
  cases x with
  | error e => rfl
  | ok t => exact h t rfl

theorem body_bind_assoc (x : Except Halt State) (f g : State → Except Halt State) :
    (x.bind f).bind g = x.bind fun t => (f t).bind g := by
  cases x <;> rfl

theorem emitByte_bind (b : Byte) (s : State) :
    emitByte b s = (writeByte b s).bind fun t => if b = 0xFF#8 then writeByte 0x00#8 t else .ok t := by
  unfold emitByte
  cases writeByte b s <;> rfl

theorem drain_succ (k rem acc : Nat) (s : State) :
    drain (k + 1) rem acc s =
      (emitByte (BitVec.ofNat 8 (acc / 2 ^ (8 * k + rem))) s).bind (drain k rem (acc % 2 ^ (8 * k + rem))) := by
  rw [drain]
  cases emitByte (BitVec.ofNat 8 (acc / 2 ^ (8 * k + rem))) s <;> rfl

/-! Bytes written. -/

theorem bytesFrom_add (m : List Host.Cell) (a n k : Nat) :
    bytesFrom m a (n + k) = bytesFrom m a n ++ bytesFrom m (a + n) k := by
  simp [bytesFrom, List.range_add, Nat.add_assoc]

theorem bytesFrom_congr {m m' : List Host.Cell} {a n : Nat}
    (h : ∀ x, a ≤ x → x < a + n → Memory.read m x = Memory.read m' x) : bytesFrom m a n = bytesFrom m' a n :=
  List.map_congr_left fun i hi => h (a + i) (Nat.le_add_right a i) (Nat.add_lt_add_left (List.mem_range.1 hi) a)

/-- The j-th byte from DSTPTR on can be written. -/
def CanWrite (s : State) (j : Nat) : Prop :=
  s.dstPtr.toNat + j < s.dstLim.toNat ∧ busError s .write (s.dstPtr + BitVec.ofNat 32 j) = false

/-- From s to t the bytes out were written at DSTPTR, each of which could be. -/
structure Wrote (s t : State) (out : List Byte) : Prop where
  lim : t.dstLim = s.dstLim
  bus : t.busErr = s.busErr
  racy : t.racyDst = s.racyDst
  ptr : t.dstPtr.toNat = s.dstPtr.toNat + out.length
  can : ∀ j < out.length, CanWrite s j
  bytes : s.racyDst = [] → bytesFrom t.mem s.dstPtr.toNat out.length = out
  rest : ∀ a : Nat, ¬ (s.dstPtr.toNat ≤ a ∧ a < t.dstPtr.toNat) → Memory.read t.mem a = Memory.read s.mem a

/-- Updates outside the stream write nothing. -/
theorem wrote_nil {s t : State} (hlim : t.dstLim = s.dstLim) (hbus : t.busErr = s.busErr)
    (hracy : t.racyDst = s.racyDst) (hptr : t.dstPtr = s.dstPtr) (hmem : t.mem = s.mem) : Wrote s t [] :=
  ⟨hlim, hbus, hracy, congrArg BitVec.toNat hptr, fun _ h => (Nat.not_lt_zero _ h).elim, fun _ => rfl,
    fun _ _ => by rw [hmem]⟩

theorem Wrote.refl (s : State) : Wrote s s [] := wrote_nil rfl rfl rfl rfl rfl

/-- The address n bytes after DSTPTR, where DSTPTR stands once they are written. -/
theorem Wrote.ptr_add {s t : State} {out : List Byte} (h : Wrote s t out) (j : Nat) :
    t.dstPtr + BitVec.ofNat 32 j = s.dstPtr + BitVec.ofNat 32 (out.length + j) := by
  apply BitVec.eq_of_toNat_eq
  rw [BitVec.toNat_add, BitVec.toNat_add, h.ptr, BitVec.toNat_ofNat, BitVec.toNat_ofNat]
  omega

theorem Wrote.busError {s t : State} {out : List Byte} (h : Wrote s t out) (k : AccessKind) (a : Word) :
    busError t k a = busError s k a := by rw [Machine.busError, h.bus, Machine.busError]

theorem Wrote.canWrite {s t : State} {out : List Byte} (h : Wrote s t out) (j : Nat) :
    CanWrite t j ↔ CanWrite s (out.length + j) := by
  rw [CanWrite, CanWrite, h.busError, h.ptr_add, h.lim, h.ptr, Nat.add_assoc]

theorem Wrote.trans {s t u : State} {as bs : List Byte} (h1 : Wrote s t as) (h2 : Wrote t u bs) :
    Wrote s u (as ++ bs) where
  lim := h2.lim.trans h1.lim
  bus := h2.bus.trans h1.bus
  racy := h2.racy.trans h1.racy
  ptr := by rw [h2.ptr, h1.ptr, List.length_append, Nat.add_assoc]
  can j hj := by
    rcases lt_or_ge j as.length with h | h
    · exact h1.can j h
    · rw [List.length_append] at hj
      have hcan := (h1.canWrite (j - as.length)).1 (h2.can _ (by omega))
      rwa [Nat.add_sub_cancel' h] at hcan
  bytes hr := by
    have hfirst : bytesFrom u.mem s.dstPtr.toNat as.length = as :=
      (bytesFrom_congr fun x _ hx => h2.rest x (by have := h1.ptr; omega)).trans (h1.bytes hr)
    rw [List.length_append, bytesFrom_add, hfirst, ← h1.ptr, h2.bytes (h1.racy.trans hr)]
  rest a ha := by
    have hptr := h1.ptr
    have hptr' := h2.ptr
    rw [h2.rest a (by omega), h1.rest a (by omega)]

theorem Wrote.bytes_getElem? {s t : State} {out : List Byte} (h : Wrote s t out) (hr : s.racyDst = []) {i : Nat}
    (hi : i < out.length) : out[i]? = some (Memory.read t.mem (s.dstPtr.toNat + i)) := by
  conv_lhs => rw [← h.bytes hr]
  rw [bytesFrom, List.getElem?_map, List.getElem?_range hi, Option.map_some]

/-! The first byte that cannot be written. -/

/-- The fault code where the n-th byte cannot be written. -/
def outputCode (s : State) (n : Nat) : FaultCode := if s.dstLim.toNat ≤ s.dstPtr.toNat + n then .dstOvf else .busErr

theorem faultNumber_outputCode (s : State) (n : Nat) :
    faultNumber (outputCode s n) = if s.dstLim.toNat ≤ s.dstPtr.toNat + n then 6#8 else 7#8 := by
  unfold outputCode
  split <;> rfl

theorem outputCode_ne_catOvf (s : State) (n : Nat) : outputCode s n ≠ .catOvf := by
  unfold outputCode
  split <;> simp

theorem stopsAt_iff {s : State} {n : Nat} : StopsAt s n ↔ (∀ j < n, CanWrite s j) ∧ ¬ CanWrite s n := by
  simp only [StopsAt, CanWrite, not_and_or, Nat.not_lt, Bool.not_eq_false]

theorem stopsAt_unique {s : State} {m n : Nat} (hm : StopsAt s m) (hn : StopsAt s n) : m = n := by
  obtain ⟨hm, hm'⟩ := stopsAt_iff.1 hm
  obtain ⟨hn, hn'⟩ := stopsAt_iff.1 hn
  by_contra hne
  rcases lt_or_gt_of_ne hne with h | h
  · exact hm' (hn m h)
  · exact hn' (hm n h)

theorem Wrote.stopsAt {s t : State} {out : List Byte} {n : Nat} (h : Wrote s t out) (hn : StopsAt t n) :
    StopsAt s (out.length + n) := by
  obtain ⟨hbefore, hstop⟩ := stopsAt_iff.1 hn
  refine stopsAt_iff.2 ⟨fun j hj => ?_, fun hcan => hstop ((h.canWrite n).2 hcan)⟩
  rcases lt_or_ge j out.length with hlt | hge
  · exact h.can j hlt
  · have hcan := (h.canWrite (j - out.length)).1 (hbefore _ (by omega))
    rwa [Nat.add_sub_cancel' hge] at hcan

theorem Wrote.outputCode {s t : State} {out : List Byte} (h : Wrote s t out) (n : Nat) :
    outputCode t n = outputCode s (out.length + n) := by
  rw [Machine.outputCode, h.lim, h.ptr, Nat.add_assoc, ← Machine.outputCode]

theorem canWrite_of_room {n : Nat} {s : State} (h : RoomFor n s) {j : Nat} (hj : j < n) : CanWrite s j := by
  obtain ⟨hlim, hbus⟩ := h
  have hlt := s.dstLim.isLt
  have haddr : (s.dstPtr + BitVec.ofNat 32 j).toNat = s.dstPtr.toNat + j := by
    rw [BitVec.toNat_add, BitVec.toNat_ofNat]
    omega
  exact ⟨by omega, hbus _ (by omega) (by omega)⟩

/-! Runs of the stream. -/

/-- A run whose bytes are out: it writes all of them and ends in a state of which Q holds, or it raises the fault of
the first that cannot be written, with those before it written. -/
def Outputs (s : State) (out : List Byte) (Q : State → Prop) (x : Except Halt State) : Prop :=
  (∃ t, x = .ok t ∧ Wrote s t out ∧ Q t) ∨
  ∃ n u, n < out.length ∧ StopsAt s n ∧ Wrote s u (out.take n) ∧ x = .error (.raise (outputCode s n) u.dstPtr u)

/-- Runs compose: the first writes the bytes begun with, and once they are written the second writes the rest. -/
theorem Outputs.bind {s : State} {as out : List Byte} {Q Q' : State → Prop} {x : Except Halt State}
    {f : State → Except Halt State} (hpre : as <+: out) (hx : Outputs s as Q x)
    (hf : ∀ t, Q t → Outputs t (out.drop as.length) Q' (f t)) : Outputs s out Q' (x.bind f) := by
  obtain ⟨bs, rfl⟩ := hpre
  rw [List.drop_left] at hf
  rcases hx with ⟨t, rfl, hw, hq⟩ | ⟨n, u, hn, hstop, hw, rfl⟩
  · rcases hf t hq with ⟨u, hu, hw', hq'⟩ | ⟨n, u, hn, hstop, hw', hu⟩
    · exact .inl ⟨u, hu, hw.trans hw', hq'⟩
    · refine .inr ⟨as.length + n, u, by rw [List.length_append]; omega, hw.stopsAt hstop, ?_, ?_⟩
      · rw [List.take_length_add_append]
        exact hw.trans hw'
      · rw [← hw.outputCode]
        exact hu
  · refine .inr ⟨n, u, by rw [List.length_append]; omega, hstop, ?_, rfl⟩
    rwa [List.take_append_of_le_length hn.le]

theorem Outputs.mono {s : State} {out : List Byte} {Q Q' : State → Prop} {x : Except Halt State}
    (hx : Outputs s out Q x) (h : ∀ t, Q t → Q' t) : Outputs s out Q' x := by
  rcases hx with ⟨t, ht, hw, hq⟩ | hstop
  · exact .inl ⟨t, ht, hw, h t hq⟩
  · exact .inr hstop

theorem Outputs.of_room {s : State} {out : List Byte} {Q : State → Prop} {x : Except Halt State} {n : Nat}
    (hx : Outputs s out Q x) (hroom : RoomFor n s) (hn : out.length ≤ n) : ∃ t, x = .ok t ∧ Wrote s t out ∧ Q t := by
  rcases hx with h | ⟨m, u, hm, hstop, -⟩
  · exact h
  · exact absurd (canWrite_of_room hroom (by omega)) (stopsAt_iff.1 hstop).2

theorem Outputs.of_stop {s : State} {out : List Byte} {Q : State → Prop} {x : Except Halt State} {n : Nat}
    (hx : Outputs s out Q x) (hn : n < out.length) (hstop : StopsAt s n) :
    ∃ u, x = .error (.raise (outputCode s n) u.dstPtr u) ∧ Wrote s u (out.take n) := by
  rcases hx with ⟨t, -, hw, -⟩ | ⟨m, u, -, hm, hw, hu⟩
  · exact absurd (hw.can n hn) (stopsAt_iff.1 hstop).2
  · obtain rfl := stopsAt_unique hm hstop
    exact ⟨u, hu, hw⟩

theorem Outputs.ok {s t : State} {out : List Byte} {Q : State → Prop} {x : Except Halt State} (hx : Outputs s out Q x)
    (h : x = .ok t) : Wrote s t out ∧ Q t := by
  rcases hx with ⟨u, hu, hw, hq⟩ | ⟨n, u, -, -, -, hu⟩
  · obtain rfl : u = t := by simpa [hu] using h
    exact ⟨hw, hq⟩
  · rw [hu] at h
    cases h

/-- Neither end of such a run is a category overflow. -/
theorem Outputs.halt_ne_catOvf {s : State} {out : List Byte} {Q : State → Prop} {x : Except Halt State}
    (hx : Outputs s out Q x) (info : Word) (u : State) : x ≠ .error (.raise .catOvf info u) := by
  rcases hx with ⟨t, rfl, -⟩ | ⟨n, v, -, -, -, rfl⟩
  · simp
  · intro h
    injection h with h
    injection h with h
    exact outputCode_ne_catOvf s n h

/-- Only PACK, DSTPTR, memory and the count of free values differ. -/
def OnlyStream (s t : State) : Prop :=
  t = { s with pack := t.pack, dstPtr := t.dstPtr, mem := t.mem, draws := t.draws }

theorem OnlyStream.refl (s : State) : OnlyStream s s := rfl

theorem OnlyStream.trans {s t u : State} (h1 : OnlyStream s t) (h2 : OnlyStream t u) : OnlyStream s u := by
  rw [OnlyStream, h2, h1]

theorem OnlyStream.setPred {s t : State} (h : OnlyStream s t) (c : Component) (p : Half) :
    OnlyStream (setPred c p s) (setPred c p t) := by
  rw [h]
  cases c <;> rfl

theorem stopsAt_zero {s : State} (h : ¬ CanWrite s 0) : StopsAt s 0 :=
  stopsAt_iff.2 ⟨fun _ hj => (Nat.not_lt_zero _ hj).elim, h⟩

/-- WriteByte is a run of one byte (R192). -/
theorem writeByte_outputs (b : Byte) (s : State) : Outputs s [b] (OnlyStream s) (writeByte b s) := by
  rcases writeByte_cases b s with ⟨hl, h⟩ | ⟨hl, hb, h⟩ | ⟨hl, hb, v, n, h, hp, hv⟩
  · have hcode : outputCode s 0 = .dstOvf := if_pos hl
    exact .inr ⟨0, s, Nat.one_pos, stopsAt_zero fun hcan => hcan.1.not_ge hl, Wrote.refl s, by rw [h, hcode]⟩
  · have hcode : outputCode s 0 = .busErr := if_neg (not_le.2 hl)
    exact .inr ⟨0, s, Nat.one_pos, stopsAt_zero fun hcan => by simpa [hb] using hcan.2, Wrote.refl s,
      by rw [h, hcode]⟩
  · refine .inl ⟨_, h, ⟨rfl, rfl, rfl, hp, fun j hj => ?_, fun hr => ?_, fun a ha => ?_⟩, rfl⟩
    · obtain rfl := Nat.lt_one_iff.1 hj
      exact ⟨hl, by simpa using hb⟩
    · obtain ⟨rfl, -⟩ := hv (by rw [hr]; rfl)
      simp [bytesFrom]
    · refine Memory.read_write_ne _ _ _ _ fun hne => ha ?_
      subst hne
      exact ⟨le_rfl, by show _ < (s.dstPtr + 1#32).toNat; omega⟩

/-- A completed byte is a run of that byte, stuffed (R191). -/
theorem emitByte_outputs (b : Byte) (s : State) : Outputs s (stuffed [b]) (OnlyStream s) (emitByte b s) := by
  rw [emitByte_bind]
  by_cases hb : b = 0xFF#8
  · subst hb
    exact (writeByte_outputs 0xFF#8 s).bind ⟨[0x00#8], rfl⟩ fun t ht =>
      (writeByte_outputs 0x00#8 t).mono fun _ => ht.trans
  · simp only [if_neg hb]
    rw [stuffed_plain hb]
    exact (writeByte_outputs b s).bind (List.prefix_refl _) fun t ht => .inl ⟨t, rfl, Wrote.refl t, ht⟩

theorem packOf_mod {m n : Nat} (h : n ≤ m) (v : Nat) : packOf n (v % 2 ^ m) = packOf n v := by
  rw [packOf, Nat.mod_mod_of_dvd _ (Nat.pow_dvd_pow 2 h), ← packOf]

/-- The loop of R190 is a run of the complete bytes of its accumulator, stuffed. -/
theorem drain_outputs (k rem acc : Nat) (hrem : rem < 8) (s : State) :
    Outputs s (stuffed (completeBytes (bitsOf (8 * k + rem) acc)))
      (fun t => OnlyStream s t ∧ t.pack = packOf rem acc) (drain k rem acc s) := by
  induction k generalizing acc s with
  | zero =>
    rw [completeBytes_of_lt (by simpa using hrem)]
    exact .inl ⟨_, rfl, wrote_nil rfl rfl rfl rfl rfl, rfl, rfl⟩
  | succ k ih =>
    have hbits : bitsOf (8 * (k + 1) + rem) acc =
        bitsOf 8 (acc / 2 ^ (8 * k + rem)) ++ bitsOf (8 * k + rem) (acc % 2 ^ (8 * k + rem)) := by
      rw [bitsOf_mod le_rfl, ← bitsOf_add]
      congr 1
      omega
    rw [drain_succ, hbits, completeBytes_bitsOf, stuffed_cons]
    refine (emitByte_outputs _ s).bind (List.prefix_append _ _) fun t ht => ?_
    rw [List.drop_left]
    refine (ih _ t).mono fun u ⟨honly, hpack⟩ => ⟨ht.trans honly, ?_⟩
    rw [hpack, packOf_mod (Nat.le_add_left _ _)]

/-- PutBits is a run of stuffed bytes, whatever its operands. -/
theorem putBits_outputs (v n : Nat) (s : State) : ∃ bs, Outputs s (stuffed bs) (OnlyStream s) (putBits v n s) :=
  ⟨_, (drain_outputs _ _ _ (Nat.mod_lt _ (by omega)) s).mono fun _ h => h.1⟩

/-! Runs of bits. -/

/-- PACK holds no bit at or above CNT (10_state.md R33). -/
def PackOk (s : State) : Prop := s.pack.acc.toNat < 2 ^ s.pack.cnt.toNat

theorem packOk_packOf {t : State} {n v : Nat} (hn : n < 8) (h : t.pack = packOf n v) : PackOk t := by
  rw [PackOk, h]
  exact (packOf_inv n v).resolve_right (by omega)

theorem pendingBits_packOf {t : State} {n v : Nat} (hn : n < 8) (h : t.pack = packOf n v) :
    pendingBits t = bitsOf n v := by
  have hcnt : (packOf n v).cnt.toNat = n := by
    rw [packOf, BitVec.toNat_ofNat]
    omega
  have hacc : (packOf n v).acc.toNat = v % 2 ^ n % 2 ^ 7 := by rw [packOf, BitVec.toNat_ofNat]
  rw [pendingBits, h, hcnt, hacc, bitsOf_mod (by omega), bitsOf_mod le_rfl]

/-- From s to t the bits new went through the packer and nothing else changed. -/
structure Appended (s t : State) (new : List Bool) : Prop where
  only : OnlyStream s t
  packed : Packed s t new
  packOk : PackOk s → PackOk t

theorem Appended.refl (s : State) : Appended s s [] := ⟨OnlyStream.refl s, Packed.refl s, id⟩

theorem Appended.trans {s t u : State} {as bs : List Bool} (h1 : Appended s t as) (h2 : Appended t u bs) :
    Appended s u (as ++ bs) :=
  ⟨h1.only.trans h2.only, h1.packed.trans h2.packed, h2.packOk ∘ h1.packOk⟩

theorem Appended.setPred {s t : State} {new : List Bool} (h : Appended s t new) (c : Component) (p : Half) :
    Appended (setPred c p s) (setPred c p t) new := by
  refine ⟨h.only.setPred c p, ?_, ?_⟩
  · cases c <;> exact h.packed
  · cases c <;> exact h.packOk

/-- A run that puts the bits new through the packer. -/
def AppendsBits (s : State) (new : List Bool) (x : Except Halt State) : Prop :=
  Outputs s (streamBytes s new) (Appended s · new) x

theorem AppendsBits.bind {s : State} {as bs : List Bool} {x : Except Halt State} {f : State → Except Halt State}
    (hx : AppendsBits s as x) (hf : ∀ t, Appended s t as → AppendsBits t bs (f t)) :
    AppendsBits s (as ++ bs) (x.bind f) := by
  refine Outputs.bind (streamBytes_prefix s as bs) hx fun t ht => ?_
  rw [ht.packed.streamBytes_append, List.drop_left]
  exact (hf t ht).mono fun u hu => ht.trans hu

theorem appendsBits_nil (s : State) : AppendsBits s [] (.ok s) :=
  .inl ⟨s, rfl, by rw [streamBytes_nil]; exact Wrote.refl s, Appended.refl s⟩

/-- PutBits puts its bits through the packer (R190). -/
theorem putBits_appends {v n : Nat} (hv : v < 2 ^ n) (s : State) : AppendsBits s (bitsOf n v) (putBits v n s) := by
  have hrem : (s.pack.cnt.toNat + n) % 8 < 8 := Nat.mod_lt _ (by omega)
  have hbits : bitsOf (8 * ((s.pack.cnt.toNat + n) / 8) + (s.pack.cnt.toNat + n) % 8) (s.pack.acc.toNat * 2 ^ n + v) =
      pendingBits s ++ bitsOf n v := by
    rw [Nat.div_add_mod, bitsOf_append _ _ _ hv]
    rfl
  have hrun := drain_outputs ((s.pack.cnt.toNat + n) / 8) _ (s.pack.acc.toNat * 2 ^ n + v) hrem s
  rw [hbits] at hrun
  refine hrun.mono fun t ⟨honly, hpack⟩ => ⟨honly, ?_, fun _ => packOk_packOf hrem hpack⟩
  obtain ⟨bs, -, hbs⟩ := bitsOf_bytes ((s.pack.cnt.toNat + n) / 8) _ (s.pack.acc.toNat * 2 ^ n + v)
  rw [hbits, ← pendingBits_packOf hrem hpack] at hbs
  exact packed_of_eq hbs

end Sys2Proof.Machine

/-! PROOF. The coding loop as a list of symbols (43_entropy.md R196 to R206). -/

namespace Sys2Proof.Machine

open Sys2Proof.Safety

/-! Symbols in turn. -/

theorem emitSymbol_bind {t sym : Nat} {s : State} {e : HuffEntry} (he : tabGet s.huff (256 * t + sym) = some e)
    (hlo : 1 ≤ e.len.toNat) (hhi : e.len.toNat ≤ 16) (v n : Nat) :
    emitSymbol t sym v n s =
      (putBits (e.code.toNat % 2 ^ e.len.toNat) e.len.toNat s).bind fun u => putBits v n u := by
  have hlen : ¬ (e.len.toNat = 0 ∨ 16 < e.len.toNat) := by omega
  simp only [emitSymbol, he, if_neg hlen]
  cases putBits (e.code.toNat % 2 ^ e.len.toNat) e.len.toNat s <;> rfl

theorem symbol_emit {s : State} (h : s.ctrl.stats = false) (t sym v n : Nat) :
    symbol t sym v n s = emitSymbol t sym v n s := by
  simp [symbol, h]

theorem symbol_count {s : State} (h : s.ctrl.stats = true) (t sym v n : Nat) :
    symbol t sym v n s = countSymbol t sym s := by
  simp [symbol, h]

theorem symbol_missing {s : State} (hs : s.ctrl.stats = false) {t sym : Nat} {e : HuffEntry}
    (he : tabGet s.huff (256 * t + sym) = some e) (hlen : e.len.toNat = 0 ∨ 16 < e.len.toNat) (v n : Nat) :
    symbol t sym v n s = .error (.raise .huffMissing (BitVec.ofNat 32 (256 * t + sym)) s) := by
  rw [symbol_emit hs]
  simp only [emitSymbol, he, if_pos hlen]

theorem codeSyms_cons (y : Nat × Nat × Nat × Nat) (ys : List (Nat × Nat × Nat × Nat)) (s : State) :
    codeSyms (y :: ys) s = (symbol y.1 y.2.1 y.2.2.1 y.2.2.2 s).bind (codeSyms ys) := by
  rw [codeSyms]
  cases symbol y.1 y.2.1 y.2.2.1 y.2.2.2 s <;> rfl

theorem codeSyms_append (xs ys : List (Nat × Nat × Nat × Nat)) (s : State) :
    codeSyms (xs ++ ys) s = (codeSyms xs s).bind (codeSyms ys) := by
  induction xs generalizing s with
  | nil => rfl
  | cons x xs ih =>
    rw [List.cons_append, codeSyms_cons, codeSyms_cons, body_bind_assoc]
    exact body_bind_congr fun t _ => ih t

theorem codeSyms_singleton (y : Nat × Nat × Nat × Nat) (s : State) :
    codeSyms [y] s = symbol y.1 y.2.1 y.2.2.1 y.2.2.2 s := by
  rw [codeSyms_cons]
  cases symbol y.1 y.2.1 y.2.2.1 y.2.2.2 s <;> rfl

/-- A condition on states and on halts that the packer and the counters keep. -/
structure CodingSpec (P : State → Prop) (E : Halt → Prop) : Prop where
  put : ∀ v n s, P s → Sat P E (putBits v n s)
  count : ∀ f s, P s → P { s with freq := f }
  missing : ∀ info s, E (.raise .huffMissing info s)
  unwritten : ∀ r k s, E (.unwritten r k s)

theorem symbol_sat {P : State → Prop} {E : Halt → Prop} (hP : CodingSpec P E) (t sym v n : Nat) {s : State} (hs : P s) :
    Sat P E (symbol t sym v n s) := by
  cases hstats : s.ctrl.stats with
  | true =>
    rw [symbol_count hstats, countSymbol]
    cases tabGet s.freq (256 * t + sym) with
    | none => exact hP.unwritten _ _ _
    | some c => exact hP.count _ s hs
  | false =>
    cases he : tabGet s.huff (256 * t + sym) with
    | none =>
      rw [symbol_emit hstats, emitSymbol, he]
      exact hP.unwritten _ _ _
    | some e =>
      by_cases hlen : e.len.toNat = 0 ∨ 16 < e.len.toNat
      · rw [symbol_missing hstats he hlen]
        exact hP.missing _ _
      · rw [symbol_emit hstats, emitSymbol_bind he (by omega) (by omega)]
        exact (hP.put _ _ s hs).bind fun u hu => hP.put _ _ u hu

theorem codeSyms_sat {P : State → Prop} {E : Halt → Prop} (hP : CodingSpec P E) (ys : List (Nat × Nat × Nat × Nat))
    {s : State} (hs : P s) : Sat P E (codeSyms ys s) := by
  induction ys generalizing s with
  | nil => exact hs
  | cons y ys ih =>
    rw [codeSyms_cons]
    exact (symbol_sat hP _ _ _ _ hs).bind fun t ht => ih ht

/-- Only the stream and the counters differ. -/
def OnlyCoding (s t : State) : Prop :=
  t = { s with pack := t.pack, dstPtr := t.dstPtr, mem := t.mem, draws := t.draws, freq := t.freq }

theorem OnlyCoding.trans_stream {s t u : State} (h1 : OnlyCoding s t) (h2 : OnlyStream t u) : OnlyCoding s u := by
  rw [OnlyCoding, h2, h1]

theorem onlyCoding_spec (s : State) : CodingSpec (OnlyCoding s) (fun _ => True) where
  put v n t ht := by
    obtain ⟨bs, hrun⟩ := putBits_outputs v n t
    exact sat_of_ok fun u hu => ht.trans_stream (hrun.ok hu).2
  count f t ht := by rw [OnlyCoding, ht]
  missing _ _ := True.intro
  unwritten _ _ _ := True.intro

theorem codeSyms_onlyCoding {ys : List (Nat × Nat × Nat × Nat)} {s t : State} (h : codeSyms ys s = .ok t) :
    OnlyCoding s t :=
  (codeSyms_sat (onlyCoding_spec s) ys (s := s) rfl).ok h

theorem OnlyCoding.setPred {s t : State} (h : OnlyCoding s t) (c : Component) (p : Half) :
    OnlyCoding (setPred c p s) (setPred c p t) := by
  rw [h]
  cases c <;> rfl

theorem OnlyCoding.trans {s t u : State} (h1 : OnlyCoding s t) (h2 : OnlyCoding t u) : OnlyCoding s u := by
  rw [OnlyCoding, h2, h1]

/-- What the symbols leave alone and the coding loop reads. -/
theorem OnlyCoding.reads {s t : State} (h : OnlyCoding s t) :
    t.zzbuf = s.zzbuf ∧ t.ctrl = s.ctrl ∧ t.huff = s.huff := by
  rw [h]
  exact ⟨rfl, rfl, rfl⟩

/-! One turn of the AC loop (R200, R201). -/

/-- The symbols one AC value sends after a run of r zeros. -/
def turnSyms (std : Bool) (r : Nat) (v : Int) : List (Nat × Nat × Nat) :=
  if v = 0 then if std = false ∧ r + 1 = 16 then [(0xF0, 0, 0)] else []
  else List.replicate (r / 16) (0xF0, 0, 0) ++ [(r % 16 * 16 + cat v, mag v (cat v), cat v)]

/-- The run after one AC value. -/
def turnRun (std : Bool) (r : Nat) (v : Int) : Nat :=
  if v = 0 then if std = false ∧ r + 1 = 16 then 0 else r + 1 else 0

theorem acSyms_cons (std : Bool) (r : Nat) (v : Int) (vs : List Int) :
    acSyms std r (v :: vs) = turnSyms std r v ++ acSyms std (turnRun std r v) vs := by
  by_cases hv : v = 0
  · cases std <;> by_cases hr : r + 1 = 16 <;> simp [acSyms, turnSyms, turnRun, hv, hr]
  · simp [acSyms, turnSyms, turnRun, hv]

theorem acBefore_cons (std : Bool) (r : Nat) (v : Int) (vs : List Int) :
    acBefore std r (v :: vs) = turnSyms std r v ++ acBefore std (turnRun std r v) vs := by
  by_cases hv : v = 0
  · cases std <;> by_cases hr : r + 1 = 16 <;> simp [acBefore, turnSyms, turnRun, hv, hr]
  · simp [acBefore, turnSyms, turnRun, hv]

/-- The run after a list of AC values. -/
def runAfter (std : Bool) (r : Nat) (vs : List Int) : Nat := vs.foldl (turnRun std) r

/-- The symbols of a list are those before its second part and then those of that part. -/
theorem acSyms_append (std : Bool) (r : Nat) (vs ws : List Int) :
    acSyms std r (vs ++ ws) = acBefore std r vs ++ acSyms std (runAfter std r vs) ws := by
  induction vs generalizing r with
  | nil => rfl
  | cons v vs ih => rw [List.cons_append, acSyms_cons, acBefore_cons, ih, List.append_assoc]; rfl

theorem acSyms_eq_acBefore (std : Bool) (r : Nat) (vs : List Int) :
    acSyms std r vs = acBefore std r vs ++ acSyms std (runAfter std r vs) [] := by
  conv_lhs => rw [← List.append_nil vs]
  exact acSyms_append std r vs []

/-- AC symbols with their table. -/
def inTable (ta : Nat) (ys : List (Nat × Nat × Nat)) : List (Nat × Nat × Nat × Nat) := ys.map fun y => (ta, y)

theorem inTable_append (ta : Nat) (xs ys : List (Nat × Nat × Nat)) :
    inTable ta (xs ++ ys) = inTable ta xs ++ inTable ta ys := List.map_append

theorem zrls_eq (ta n : Nat) (s : State) : zrls ta n s = codeSyms (inTable ta (List.replicate n (0xF0, 0, 0))) s := by
  induction n generalizing s with
  | zero => rfl
  | succ n ih =>
    rw [zrls, List.replicate_succ, inTable, List.map_cons, codeSyms_cons]
    cases symbol ta 0xF0 0 0 s with
    | error e => rfl
    | ok t => exact ih t

theorem acZero_eq (ta r : Nat) (s : State) :
    acZero ta r s = (codeSyms (inTable ta (turnSyms s.ctrl.acmode r 0)) s).map (turnRun s.ctrl.acmode r 0, ·) := by
  cases hmode : s.ctrl.acmode with
  | true => simp [acZero, turnSyms, turnRun, hmode, inTable, codeSyms, Except.map]
  | false =>
    by_cases hr : r + 1 = 16
    · simp only [acZero, turnSyms, turnRun, hmode, hr, if_true, Bool.false_eq_true, if_false, and_self, inTable,
        List.map_cons, List.map_nil, codeSyms_singleton]
      cases symbol ta 0xF0 0 0 s <;> rfl
    · simp [acZero, turnSyms, turnRun, hmode, hr, inTable, codeSyms, Except.map]

theorem acNonzero_eq (ta k r : Nat) {v : Int} (hv : v ≠ 0) (hcat : v.natAbs < 1024) (std : Bool) (s : State) :
    acNonzero ta k r v s = codeSyms (inTable ta (turnSyms std r v)) s := by
  have hcat : ¬ 10 < cat v := not_lt.2 (cat_le_iff.2 hcat)
  rw [acNonzero, if_neg hcat, turnSyms, if_neg hv, inTable_append, codeSyms_append, zrls_eq]
  cases codeSyms (inTable ta (List.replicate (r / 16) (0xF0, 0, 0))) s with
  | error e => rfl
  | ok t => exact (codeSyms_singleton (ta, r % 16 * 16 + cat v, mag v (cat v), cat v) t).symm

theorem zzAt_of_some {s : State} {k : Nat} {h : Half} (hk : tabGet s.zzbuf k = some h) : zzAt s k = h.toInt := by
  rw [zzAt, hk, Option.getD_some]

/-- A turn at a written value within the category limit sends its symbols and sets the run. -/
theorem acStep_eq (ta r : Nat) {k : Nat} {s : State} (hk : (tabGet s.zzbuf k).isSome = true)
    (hcat : (zzAt s k).natAbs < 1024) :
    acStep ta k r s =
      (codeSyms (inTable ta (turnSyms s.ctrl.acmode r (zzAt s k))) s).map (turnRun s.ctrl.acmode r (zzAt s k), ·) := by
  obtain ⟨h, hh⟩ := Option.isSome_iff_exists.1 hk
  rw [zzAt_of_some hh] at hcat ⊢
  simp only [acStep, hh]
  by_cases h0 : h = 0#16
  · subst h0
    exact acZero_eq ta r s
  · have hne : h.toInt ≠ 0 := fun hz => h0 (BitVec.eq_of_toInt_eq hz)
    rw [if_neg h0, acNonzero_eq ta k r hne hcat s.ctrl.acmode, turnRun, if_neg hne]
    cases codeSyms (inTable ta (turnSyms s.ctrl.acmode r h.toInt)) s <;> rfl

/-- A turn at a value above the category limit raises CAT_OVF with its index (R211). -/
theorem acStep_catOvf (ta r : Nat) {k : Nat} {s : State} (hk : (tabGet s.zzbuf k).isSome = true)
    (hcat : 1024 ≤ (zzAt s k).natAbs) : acStep ta k r s = .error (.raise .catOvf (BitVec.ofNat 32 k) s) := by
  obtain ⟨h, hh⟩ := Option.isSome_iff_exists.1 hk
  rw [zzAt_of_some hh] at hcat
  have hne : h ≠ 0#16 := fun h0 => by rw [h0] at hcat; exact absurd hcat (by decide)
  have hover : 10 < cat h.toInt := lt_cat_iff.2 hcat
  simp only [acStep, hh, if_neg hne, acNonzero, if_pos hover]

/-! The AC loop. -/

theorem acLoop_succ (ta : Nat) {k : Nat} (hk : k < 64) (r : Nat) (s : State) :
    acLoop ta (64 - k) r s = (acStep ta k r s).bind fun p => acLoop ta (64 - (k + 1)) p.1 p.2 := by
  obtain ⟨n, hn⟩ : ∃ n, 64 - k = n + 1 := ⟨63 - k, by omega⟩
  have hk' : 63 - n = k := by omega
  have hn' : 64 - (k + 1) = n := by omega
  rw [hn, acLoop, hk', hn']
  cases acStep ta k r s <;> rfl

theorem acLoop_zero (ta r : Nat) (s : State) (std : Bool) :
    acLoop ta 0 r s = codeSyms (inTable ta (acSyms std r [])) s := by
  by_cases hr : 0 < r
  · simp [acLoop, acSyms, hr, inTable, codeSyms_singleton]
  · simp [acLoop, acSyms, hr, inTable, codeSyms]

/-- ZZBUF[k] to ZZBUF[k + n - 1] are written and within the category limit. -/
def AcReady (s : State) (k n : Nat) : Prop :=
  ∀ j, k ≤ j → j < k + n → (tabGet s.zzbuf j).isSome = true ∧ (zzAt s j).natAbs < 1024

theorem zzAt_congr {s t : State} (h : t.zzbuf = s.zzbuf) : zzAt t = zzAt s := by
  funext k
  rw [zzAt, h, zzAt]

/-- The loop passes over n values that are ready by sending their symbols; the rest decides how it ends. -/
theorem acLoop_eq (ta r k n : Nat) (s : State) (hn : k + n ≤ 64) (h : AcReady s k n) :
    acLoop ta (64 - k) r s =
      (codeSyms (inTable ta (acBefore s.ctrl.acmode r ((List.range' k n).map (zzAt s)))) s).bind
        (acLoop ta (64 - (k + n)) (runAfter s.ctrl.acmode r ((List.range' k n).map (zzAt s)))) := by
  induction n generalizing k r s with
  | zero => rfl
  | succ n ih =>
    obtain ⟨hsome, hcat⟩ := h k le_rfl (by omega)
    rw [acLoop_succ ta (by omega), acStep_eq ta r hsome hcat, List.range'_succ, List.map_cons, acBefore_cons,
      inTable_append, codeSyms_append]
    cases hx : codeSyms (inTable ta (turnSyms s.ctrl.acmode r (zzAt s k))) s with
    | error e => rfl
    | ok t =>
      obtain ⟨hzz, hctrl, -⟩ := (codeSyms_onlyCoding hx).reads
      have hready : AcReady t (k + 1) n := fun j hj hj' => by
        rw [hzz, zzAt_congr hzz]
        exact h j (by omega) (by omega)
      have hrest := ih (turnRun s.ctrl.acmode r (zzAt s k)) (k + 1) t (by omega) hready
      rw [hctrl, zzAt_congr hzz, Nat.add_right_comm] at hrest
      rw [Nat.add_assoc] at hrest
      exact hrest

/-! ENC_BLOCK (R205, R210). -/

/-- The DC symbol of the block in ZZBUF, with its table. -/
def dcSym (c : Component) (s : State) : Nat × Nat × Nat × Nat :=
  (dcTable c, cat (dcDiff c s), mag (dcDiff c s) (cat (dcDiff c s)), cat (dcDiff c s))

/-- ZZBUF[0], an entry with no value standing as 0. -/
def zzDc (s : State) : Half := (tabGet s.zzbuf 0).getD 0#16

/-- The first n AC values of ZZBUF. -/
def firstAc (s : State) (n : Nat) : List Int := (List.range' 1 n).map (zzAt s)

/-- The AC symbols of the first n values, with the EOB. -/
def acSymsOf (c : Component) (s : State) (n : Nat) : List (Nat × Nat × Nat × Nat) :=
  inTable (acTable c) (acSyms s.ctrl.acmode 0 (firstAc s n))

/-- The AC symbols sent before ZZBUF[k]. -/
def acSymsBefore (c : Component) (s : State) (k : Nat) : List (Nat × Nat × Nat × Nat) :=
  inTable (acTable c) (acBefore s.ctrl.acmode 0 (firstAc s (k - 1)))

theorem blockSyms_eq (c : Component) (s : State) : blockSyms c s = dcSym c s :: acSymsOf c s 63 := rfl

theorem symsBefore_eq (c : Component) (s : State) (k : Nat) : symsBefore c s k = dcSym c s :: acSymsBefore c s k := rfl

/-- The symbols before ZZBUF[k] are the first of those of the values before k. -/
theorem symsBefore_prefix (c : Component) (s : State) (k : Nat) :
    dcSym c s :: acSymsBefore c s k <+: dcSym c s :: acSymsOf c s (k - 1) := by
  rw [List.prefix_cons_inj, acSymsOf, acSyms_eq_acBefore, inTable_append]
  exact List.prefix_append _ _

/-- The DC symbol, the predictor, and then the symbols ys. -/
def codeHead (c : Component) (ys : List (Nat × Nat × Nat × Nat)) (s : State) : Except Halt State :=
  (codeSyms [dcSym c s] s).bind fun t => codeSyms ys (setPred c (zzDc s) t)

theorem encBlockBody_dcOvf {c : Component} {s : State} (h0 : (tabGet s.zzbuf 0).isSome = true)
    (hd : 2048 ≤ (dcDiff c s).natAbs) : encBlockBody c s = .error (.raise .catOvf 0#32 s) := by
  obtain ⟨dc, hdc⟩ := Option.isSome_iff_exists.1 h0
  rw [dcDiff, zzAt_of_some hdc] at hd
  have hover : 11 < cat (dc.toInt - (pred s c).toInt) := lt_cat_iff.2 hd
  simp only [encBlockBody, dcCode, hdc, if_pos hover]

theorem encBlockBody_dc {c : Component} {s : State} (h0 : (tabGet s.zzbuf 0).isSome = true)
    (hd : (dcDiff c s).natAbs < 2048) :
    encBlockBody c s = (codeSyms [dcSym c s] s).bind fun t => acLoop (acTable c) 63 0 (setPred c (zzDc s) t) := by
  obtain ⟨dc, hdc⟩ := Option.isSome_iff_exists.1 h0
  have hcat : ¬ 11 < cat (dcDiff c s) := not_lt.2 (cat_le_iff.2 hd)
  have hdiff : dc.toInt - (pred s c).toInt = dcDiff c s := by rw [dcDiff, zzAt_of_some hdc]
  rw [codeSyms_singleton]
  simp only [encBlockBody, dcCode, hdc, hdiff, if_neg hcat, dcSym, zzDc, Option.getD_some]
  cases symbol (dcTable c) (cat (dcDiff c s)) (mag (dcDiff c s) (cat (dcDiff c s))) (cat (dcDiff c s)) s <;> rfl

/-- Before ZZBUF[k] the block is its DC symbol and the AC symbols of the values before k. -/
theorem encBlockBody_before {c : Component} {s : State} {k : Nat} (hk : 1 ≤ k) (hk' : k ≤ 64)
    (h0 : (tabGet s.zzbuf 0).isSome = true) (hd : (dcDiff c s).natAbs < 2048) (hac : AcReady s 1 (k - 1)) :
    encBlockBody c s =
      (codeHead c (acSymsBefore c s k) s).bind
        (acLoop (acTable c) (64 - k) (runAfter s.ctrl.acmode 0 (firstAc s (k - 1)))) := by
  rw [encBlockBody_dc h0 hd, codeHead, body_bind_assoc]
  refine body_bind_congr fun t ht => ?_
  obtain ⟨hzz, hctrl, -⟩ := (codeSyms_onlyCoding ht).reads
  have hzz' : (setPred c (zzDc s) t).zzbuf = s.zzbuf := by rw [setPred_zzbuf, hzz]
  have hloop := acLoop_eq (acTable c) 0 1 (k - 1) (setPred c (zzDc s) t) (by omega) fun j hj hj' => by
    rw [hzz', zzAt_congr hzz']
    exact hac j hj hj'
  rwa [setPred_ctrl, hctrl, zzAt_congr hzz', Nat.add_sub_cancel' hk] at hloop

theorem codable_acReady {c : Component} {s : State} (h : Codable c s) {k : Nat} (hk : k ≤ 64) :
    AcReady s 1 (k - 1) := by
  obtain ⟨hw, -, hac⟩ := h
  intro j hj hj'
  have hsome := hw j (by omega)
  rw [Nat.zero_add] at hsome
  exact ⟨hsome, hac j hj (by omega)⟩

theorem codable_dc {c : Component} {s : State} (h : Codable c s) :
    (tabGet s.zzbuf 0).isSome = true ∧ (dcDiff c s).natAbs < 2048 := by
  obtain ⟨hw, hd, -⟩ := h
  exact ⟨hw 0 (by omega), hd⟩

theorem codeHead_append (c : Component) (xs ys : List (Nat × Nat × Nat × Nat)) (s : State) :
    codeHead c (xs ++ ys) s = (codeHead c xs s).bind (codeSyms ys) := by
  rw [codeHead, codeHead, body_bind_assoc]
  exact body_bind_congr fun t _ => codeSyms_append xs ys _

/-- A block within the limits is coded as its symbols, the predictor taken after the first. -/
theorem encBlockBody_codable {c : Component} {s : State} (h : Codable c s) :
    encBlockBody c s = codeHead c (acSymsOf c s 63) s := by
  obtain ⟨h0, hd⟩ := codable_dc h
  rw [encBlockBody_before (k := 64) (by omega) le_rfl h0 hd (codable_acReady h le_rfl), acSymsOf,
    acSyms_eq_acBefore, inTable_append, codeHead_append]
  exact body_bind_congr fun t _ => acLoop_zero _ _ _ _

end Sys2Proof.Machine

/-! PROOF. The bodies of the sequencer in turn, and what a block that completes was (44_sequencer.md R231, R232,
43_entropy.md R211). -/

namespace Sys2Proof.Machine

open Sys2Proof.Safety

/-! The sequencer, body by body (44_sequencer.md R231, R232). -/

theorem codeBlock_bind (e : Fin 6 × QSel × Component) (s : State) :
    codeBlock e s = (fdctBody e.1 s).bind fun s1 => (quantBody e.2.1 s1).bind fun s2 =>
      (zigzagBody s2).bind (encBlockBody e.2.2) := by
  unfold codeBlock
  rcases fdctBody e.1 s with _ | s1
  · rfl
  rcases hq : quantBody e.2.1 s1 with _ | s2
  · simp only [Except.bind, hq]
  rcases hz : zigzagBody s2 with _ | s3 <;> simp only [Except.bind, hq, hz]

theorem codeBlocks_cons (e : Fin 6 × QSel × Component) (es : List (Fin 6 × QSel × Component)) (s : State) :
    codeBlocks (e :: es) s = (codeBlock e s).bind (codeBlocks es) := by
  rw [codeBlocks]
  cases codeBlock e s <;> rfl

theorem encMcuBody_bind (s : State) : encMcuBody s = (loadMcuBody s).bind (codeBlocks (blockOrder s.ctrl)) := by
  unfold encMcuBody
  cases loadMcuBody s <;> rfl

theorem codeMcus_cons (p : Nat × Nat) (ps : List (Nat × Nat)) (s : State) :
    codeMcus (p :: ps) s =
      (encMcuBody { s with mcuPos := ⟨BitVec.ofNat 16 p.1, BitVec.ofNat 16 p.2⟩ }).bind (codeMcus ps) := by
  rw [codeMcus]
  cases encMcuBody { s with mcuPos := ⟨BitVec.ofNat 16 p.1, BitVec.ofNat 16 p.2⟩ } <;> rfl

theorem encScanBody_bind (s : State) :
    encScanBody s = (codeMcus (scanOrder s) (dcResetBody s)).bind fun t =>
      if s.ctrl.stats then .ok t else flushBody t := by
  unfold encScanBody
  cases codeMcus (scanOrder s) (dcResetBody s) <;> rfl

/-- A condition on states and on halts that the parts of ENC_SCAN keep. -/
structure ScanSpec (P : State → Prop) (E : Halt → Prop) : Prop where
  load : ∀ s, P s → Sat P E (loadMcuBody s)
  block : ∀ e s, P s → Sat P E (codeBlock e s)
  pos : ∀ p s, P s → P { s with mcuPos := p }
  flush : ∀ s, P s → Sat P E (flushBody s)

section
variable {P : State → Prop} {E : Halt → Prop} (hP : ScanSpec P E)
include hP

theorem codeBlocks_sat (es : List (Fin 6 × QSel × Component)) {s : State} (hs : P s) : Sat P E (codeBlocks es s) := by
  induction es generalizing s with
  | nil => exact hs
  | cons e es ih =>
    rw [codeBlocks_cons]
    exact (hP.block e s hs).bind fun t ht => ih ht

theorem encMcuBody_sat {s : State} (hs : P s) : Sat P E (encMcuBody s) := by
  rw [encMcuBody_bind]
  exact (hP.load s hs).bind fun t ht => codeBlocks_sat hP _ ht

theorem codeMcus_sat (ps : List (Nat × Nat)) {s : State} (hs : P s) : Sat P E (codeMcus ps s) := by
  induction ps generalizing s with
  | nil => exact hs
  | cons p ps ih =>
    rw [codeMcus_cons]
    exact (encMcuBody_sat hP (hP.pos _ s hs)).bind fun t ht => ih ht

theorem encScanBody_sat {s : State} (hs : P (dcResetBody s)) : Sat P E (encScanBody s) := by
  rw [encScanBody_bind]
  refine (codeMcus_sat hP _ hs).bind fun t ht => ?_
  split
  · exact ht
  · exact hP.flush t ht

end

/-! The bodies of the transform path (41_fdct.md, 42_quant_zigzag.md). -/

theorem fdctBody_cases (b : Fin 6) (s : State) :
    (∃ xs : List Byte, xs.length = 64 ∧
      fdctBody b s = .ok { s with coef := tabOf 0 ((fdctBlock xs).map (BitVec.ofInt 16)) }) ∨
    ∃ k, fdctBody b s = .error (.unwritten .blk k s) := by
  unfold fdctBody
  cases hx : readAt .blk s.blk s (List.range' (64 * b.val) 64) with
  | error e =>
    obtain ⟨k, -, rfl, -⟩ := readAt_error _ _ _ _ _ hx
    exact .inr ⟨k, rfl⟩
  | ok xs => exact .inl ⟨xs, (readAt_length _ _ _ _ _ hx).trans (by simp), rfl⟩

theorem readDivisors_pos {t : QSel} {s : State} {i n : Nat} {qs : List Nat} (h : readDivisors t s i n = .ok qs) :
    ∀ q ∈ qs, 0 < q := by
  induction n generalizing i qs with
  | zero =>
    cases h
    simp
  | succ n ih =>
    rw [readDivisors] at h
    split at h
    · cases h
    · next d _ =>
      split at h
      · cases h
      · next hd =>
        split at h
        · cases h
        · next rest hrest =>
          cases h
          have hpos : 0 < d.toNat := Nat.pos_of_ne_zero fun h0 => hd (BitVec.eq_of_toNat_eq h0)
          exact List.forall_mem_cons.2 ⟨hpos, ih hrest⟩

theorem quantBody_cases (t : QSel) (s : State) :
    (∃ (xs : List Half) (qs : List Nat), (List.range 64).map (tabGet s.coef) = xs.map some ∧ qs.length = 64 ∧
      (∀ q ∈ qs, 0 < q) ∧ quantBody t s =
        .ok { s with qcoef := tabOf 0 (List.zipWith (fun x q => BitVec.ofInt 16 (quantOne x.toInt q)) xs qs) }) ∨
    (∃ r k, quantBody t s = .error (.unwritten r k s)) ∨
    ∃ k, quantBody t s = .error (.raise .qzero k s) := by
  unfold quantBody
  rcases readDivisors_cases t s 64 0 with ⟨qs, hq, hlen⟩ | ⟨j, -, -, -, hq⟩ | ⟨j, -, -, -, hq⟩ <;> simp only [hq]
  · cases hx : readAt .coef s.coef s (List.range 64) with
    | error e =>
      obtain ⟨k, -, rfl, -⟩ := readAt_error _ _ _ _ _ hx
      exact .inr (.inl ⟨_, k, rfl⟩)
    | ok xs => exact .inl ⟨xs, qs, (readAt_ok _ _ _ _ _).1 hx, hlen, readDivisors_pos hq, rfl⟩
  · exact .inr (.inl ⟨_, _, rfl⟩)
  · exact .inr (.inr ⟨_, rfl⟩)

theorem zigzagBody_cases (s : State) :
    (∃ xs : List Half, zzOrder.map (tabGet s.qcoef) = xs.map some ∧ zigzagBody s = .ok { s with zzbuf := tabOf 0 xs }) ∨
    ∃ k, zigzagBody s = .error (.unwritten .qcoef k s) := by
  unfold zigzagBody
  cases hx : readAt .qcoef s.qcoef s zzOrder with
  | error e =>
    obtain ⟨k, -, rfl, -⟩ := readAt_error _ _ _ _ _ hx
    exact .inr ⟨k, rfl⟩
  | ok xs => exact .inl ⟨xs, (readAt_ok _ _ _ _ _).1 hx, rfl⟩

/-! A block that completes is within the limits. -/

theorem acStep_ok {ta k r r' : Nat} {s t : State} (h : acStep ta k r s = .ok (r', t)) :
    (tabGet s.zzbuf k).isSome = true ∧ (zzAt s k).natAbs < 1024 ∧ t.zzbuf = s.zzbuf := by
  cases hk : tabGet s.zzbuf k with
  | none => simp [acStep, hk] at h
  | some v =>
    have hsome : (tabGet s.zzbuf k).isSome = true := by rw [hk]; rfl
    by_cases hcat : 1024 ≤ (zzAt s k).natAbs
    · rw [acStep_catOvf ta r hsome hcat] at h
      cases h
    · rw [acStep_eq ta r hsome (not_le.1 hcat)] at h
      refine ⟨rfl, not_le.1 hcat, ?_⟩
      cases hx : codeSyms (inTable ta (turnSyms s.ctrl.acmode r (zzAt s k))) s with
      | error e => rw [hx] at h; cases h
      | ok u =>
        rw [hx] at h
        injection h with h
        injection h with _ h
        exact h ▸ (codeSyms_onlyCoding hx).reads.1

theorem acLoop_ok {ta k n r : Nat} {s t : State} (hn : k + n = 64) (h : acLoop ta (64 - k) r s = .ok t) :
    AcReady s k n := by
  induction n generalizing k r s with
  | zero => exact fun j hj hj' => absurd hj' (by omega)
  | succ n ih =>
    rw [acLoop_succ ta (by omega)] at h
    cases hx : acStep ta k r s with
    | error e => rw [hx] at h; cases h
    | ok p =>
      rw [hx] at h
      obtain ⟨hsome, hcat, hzz⟩ := acStep_ok hx
      intro j hj hj'
      rcases Nat.eq_or_lt_of_le hj with rfl | hlt
      · exact ⟨hsome, hcat⟩
      · have hrest := ih (by omega) h j hlt (by omega)
        rwa [hzz, zzAt_congr hzz] at hrest

/-- ENC_BLOCK completes only within the category limits (R211). -/
theorem codable_of_ok {c : Component} {s t : State} (h : encBlockBody c s = .ok t) : Codable c s := by
  have h0 : (tabGet s.zzbuf 0).isSome = true := by
    by_contra hnone
    rw [Option.not_isSome_iff_eq_none] at hnone
    simp [encBlockBody, dcCode, hnone] at h
  have hd : (dcDiff c s).natAbs < 2048 := by
    by_contra hover
    rw [encBlockBody_dcOvf h0 (not_lt.1 hover)] at h
    cases h
  rw [encBlockBody_dc h0 hd] at h
  cases hx : codeSyms [dcSym c s] s with
  | error e => rw [hx] at h; cases h
  | ok u =>
    rw [hx] at h
    have hzz : (setPred c (zzDc s) u).zzbuf = s.zzbuf := by rw [setPred_zzbuf, (codeSyms_onlyCoding hx).reads.1]
    have hready := acLoop_ok (k := 1) (n := 63) rfl h
    rw [AcReady, hzz, zzAt_congr hzz] at hready
    refine ⟨fun i hi => ?_, hd, fun k hk hk' => (hready k hk hk').2⟩
    rw [Nat.zero_add]
    rcases Nat.eq_zero_or_pos i with rfl | hpos
    · exact h0
    · exact (hready i hpos hi).1

theorem codeHead_sat {P P' : State → Prop} {E : Halt → Prop} (hP : CodingSpec P E) (hP' : CodingSpec P' E)
    {c : Component} {s : State} (hpred : ∀ t, P t → P' (setPred c (zzDc s) t)) (ys : List (Nat × Nat × Nat × Nat))
    (hs : P s) : Sat P' E (codeHead c ys s) :=
  (codeSyms_sat hP _ hs).bind fun t ht => codeSyms_sat hP' ys (hpred t ht)

end Sys2Proof.Machine

/-! PROOF. The stream holds no marker (43_entropy.md R191, R193). -/

namespace Sys2Proof.Machine

open Sys2Proof.Safety

/-- Between address a and DSTPTR every 0xFF is followed by 0x00, and no other agent's write races. -/
def Unmarked (a : Nat) (s : State) : Prop :=
  s.racyDst = [] ∧ a ≤ s.dstPtr.toNat ∧ Stuffed s.mem a s.dstPtr.toNat

/-- Stuffed bytes written at DSTPTR keep the stream free of markers. -/
theorem Unmarked.wrote {a : Nat} {s t : State} {bs : List Byte} (h : Unmarked a s) (hw : Wrote s t (stuffed bs)) :
    Unmarked a t := by
  obtain ⟨hracy, hle, hst⟩ := h
  have hptr := hw.ptr
  refine ⟨hw.racy.trans hracy, by omega, fun j hj hj' hff => ?_⟩
  rcases lt_or_ge j s.dstPtr.toNat with hold | hnew
  · rw [hw.rest j (by omega)] at hff
    obtain ⟨hnext, hzero⟩ := hst j hj hold hff
    exact ⟨by omega, by rw [hw.rest _ (by omega), hzero]⟩
  · obtain ⟨i, rfl⟩ := Nat.exists_eq_add_of_le hnew
    have hi : (stuffed bs)[i]? = some 0xFF#8 := by rw [hw.bytes_getElem? hracy (by omega), hff]
    have hnext := stuffed_getElem?_marker hi
    obtain ⟨hlt, -⟩ := List.getElem?_eq_some_iff.1 hnext
    rw [hw.bytes_getElem? hracy hlt, Option.some_inj] at hnext
    exact ⟨by omega, hnext⟩

theorem putBits_unmarked {a v n : Nat} {s : State} (h : Unmarked a s) :
    Sat (Unmarked a) (fun _ => True) (putBits v n s) := by
  obtain ⟨bs, hrun⟩ := putBits_outputs v n s
  exact sat_of_ok fun t ht => h.wrote (hrun.ok ht).1

theorem unmarked_coding (a : Nat) : CodingSpec (Unmarked a) (fun _ => True) where
  put _ _ _ hs := putBits_unmarked hs
  count _ _ hs := hs
  missing _ _ := True.intro
  unwritten _ _ _ := True.intro

theorem encBlockBody_unmarked {a : Nat} {c : Component} {s : State} (h : Unmarked a s) :
    Sat (Unmarked a) (fun _ => True) (encBlockBody c s) := by
  refine sat_of_ok fun t ht => ?_
  have hpred : ∀ u, Unmarked a u → Unmarked a (setPred c (zzDc s) u) := fun u hu => by cases c <;> exact hu
  have hsat := codeHead_sat (unmarked_coding a) (unmarked_coding a) hpred (acSymsOf c s 63) h
  rw [← encBlockBody_codable (codable_of_ok ht)] at hsat
  exact hsat.ok ht

theorem fdctBody_unmarked {a : Nat} (b : Fin 6) {s : State} (h : Unmarked a s) :
    Sat (Unmarked a) (fun _ => True) (fdctBody b s) := by
  rcases fdctBody_cases b s with ⟨_, _, hx⟩ | ⟨_, hx⟩ <;> rw [hx]
  · exact h
  · exact True.intro

theorem quantBody_unmarked {a : Nat} (q : QSel) {s : State} (h : Unmarked a s) :
    Sat (Unmarked a) (fun _ => True) (quantBody q s) := by
  rcases quantBody_cases q s with ⟨_, _, _, _, _, hx⟩ | ⟨_, _, hx⟩ | ⟨_, hx⟩ <;> rw [hx]
  · exact h
  · exact True.intro
  · exact True.intro

theorem zigzagBody_unmarked {a : Nat} {s : State} (h : Unmarked a s) :
    Sat (Unmarked a) (fun _ => True) (zigzagBody s) := by
  rcases zigzagBody_cases s with ⟨_, _, hx⟩ | ⟨_, hx⟩ <;> rw [hx]
  · exact h
  · exact True.intro

theorem flushBody_unmarked {a : Nat} {s : State} (h : Unmarked a s) :
    Sat (Unmarked a) (fun _ => True) (flushBody s) := by
  unfold flushBody
  split
  · exact putBits_unmarked h
  · exact h

theorem loadMcuBody_unmarked {a : Nat} {s : State} (h : Unmarked a s) :
    Sat (Unmarked a) (fun _ => True) (loadMcuBody s) := by
  rcases loadMcuBody_cases s with ⟨_, _, _, _, hx⟩ | ⟨_, _, _, hx, _⟩ <;> rw [hx]
  · exact True.intro
  · exact h

theorem unmarked_scan (a : Nat) : ScanSpec (Unmarked a) (fun _ => True) where
  load _ hs := loadMcuBody_unmarked hs
  block e s hs := by
    rw [codeBlock_bind]
    exact (fdctBody_unmarked e.1 hs).bind fun _ h1 => (quantBody_unmarked e.2.1 h1).bind fun _ h2 =>
      (zigzagBody_unmarked h2).bind fun _ h3 => encBlockBody_unmarked h3
  pos _ _ hs := hs
  flush _ hs := flushBody_unmarked hs

theorem withOverlap_sat {P : State → Prop} {E : Halt → Prop} {body : State → Except Halt State} {s : State}
    (h : ∀ n rs, Sat P E (body (advance n { s with racySrc := rs }))) : Sat P E (withOverlap body s) := by
  obtain ⟨n, rs, hx⟩ := withOverlap_cases body s
  rw [hx]
  exact h n rs

/-- Every body leaves the stream free of markers where it completes. -/
theorem bodyOf_unmarked {a : Nat} (i : Instr) {s : State} (h : Unmarked a s) :
    Sat (Unmarked a) (fun _ => True) (bodyOf i s) := by
  cases i with
  | nop | dcReset | freqClear => exact h
  | loadMcu => exact loadMcuBody_unmarked h
  | fdct b => exact fdctBody_unmarked b h
  | quant q => exact quantBody_unmarked q h
  | zigzag => exact zigzagBody_unmarked h
  | encBlock c => exact encBlockBody_unmarked h
  | putbits v n => exact putBits_unmarked h
  | flush => exact flushBody_unmarked h
  | encMcu => exact withOverlap_sat fun n rs => encMcuBody_sat (unmarked_scan a) h
  | encScan => exact withOverlap_sat fun n rs => encScanBody_sat (unmarked_scan a) h

/-- Settles O54: a command without a fault is a body that completed, and at its start no byte is written. -/
theorem streamHoldsNoMarker : Obligations.StreamHoldsNoMarker := by
  unfold Obligations.StreamHoldsNoMarker
  intro i s t h hfault hracy
  rw [exec_eq] at h
  cases hc : checkOf i s with
  | some sub =>
    rw [hc] at h
    cases h
    cases hfault
  | none =>
    rw [hc] at h
    rcases finish_cases _ _ _ h with ⟨u, hx, rfl⟩ | ⟨code, info, u, -, rfl⟩
    · have hstart : Unmarked s.dstPtr.toNat s := ⟨hracy, le_rfl, fun j hj hj' => absurd hj' (by omega)⟩
      obtain ⟨-, -, hst⟩ := (bodyOf_unmarked i hstart).ok hx
      exact hst
    · cases hfault

end Sys2Proof.Machine

/-! PROOF. A scan raises no CAT_OVF: the ranges of its values (43_entropy.md R211, 60_exceptions.md R264). -/

namespace Sys2Proof.Machine

open Sys2Proof.Safety

/-- The range of a value of the block's own datapath at index i of COEF, QCOEF or ZZBUF. -/
def ValueInRange (i : Nat) (v : Int) : Prop := if i = 0 then -1024 ≤ v ∧ v ≤ 1016 else v.natAbs ≤ 1023

/-- A buffer whose 64 values are written and in range. -/
def BufferInRange (st : Store Half) : Prop := ∀ i < 64, ∃ x, tabGet st i = some x ∧ ValueInRange i x.toInt

theorem ValueInRange.natAbs_le {i : Nat} {v : Int} (h : ValueInRange i v) : v.natAbs ≤ 1024 := by
  unfold ValueInRange at h
  split at h <;> omega

theorem ValueInRange.toInt_ofInt {i : Nat} {v : Int} (h : ValueInRange i v) :
    ValueInRange i (BitVec.ofInt 16 v).toInt := by
  have hle := h.natAbs_le
  rwa [BitVec.toInt_ofInt_eq_self (by omega) (by norm_num; omega) (by norm_num; omega)]

/-- Quantization keeps the sign and does not raise the magnitude. -/
theorem ValueInRange.quantOne {i : Nat} {v : Int} (h : ValueInRange i v) {q : Nat} (hq : 0 < q) :
    ValueInRange i (quantOne v q) := by
  have hle := natAbs_quantOne_le v hq
  have hsign : 0 ≤ v → 0 ≤ Machine.quantOne v q := fun hv => by
    rw [quantOne_of_nonneg hv]
    exact Int.natCast_nonneg _
  have hneg : v < 0 → Machine.quantOne v q ≤ 0 := fun hv => by
    rw [quantOne_of_neg hv]
    exact neg_nonpos.2 (Int.natCast_nonneg _)
  by_cases h0 : i = 0
  · rw [ValueInRange, if_pos h0] at h ⊢
    omega
  · rw [ValueInRange, if_neg h0] at h ⊢
    omega

theorem fdctBlock_inRange {xs : List Byte} (hl : xs.length = 64) {i : Nat} (hi : i < 64) :
    ValueInRange i ((fdctBlock xs).getD i 0) := by
  obtain ⟨hdc, hac⟩ := fdctWithinCategoryLimits xs hl
  unfold ValueInRange
  split
  · next h0 => rw [h0]; exact hdc
  · exact hac i (by omega) hi

theorem bufferInRange_fdct {xs : List Byte} (hl : xs.length = 64) :
    BufferInRange (tabOf 0 ((fdctBlock xs).map (BitVec.ofInt 16))) := by
  intro i hi
  have hi' : i < (fdctBlock xs).length := by rwa [fdctBlock_length]
  refine ⟨BitVec.ofInt 16 ((fdctBlock xs).getD i 0), ?_, (fdctBlock_inRange hl hi).toInt_ofInt⟩
  rw [tabGet_tabOf, if_pos (Nat.zero_le i), Nat.sub_zero, List.getElem?_map, List.getD_eq_getElem _ _ hi',
    List.getElem?_eq_getElem hi', Option.map_some]

theorem bufferInRange_quant {st : Store Half} (h : BufferInRange st) {xs : List Half} {qs : List Nat}
    (hxs : (List.range 64).map (tabGet st) = xs.map some) (hlen : qs.length = 64) (hpos : ∀ q ∈ qs, 0 < q) :
    BufferInRange (tabOf 0 (List.zipWith (fun x q => BitVec.ofInt 16 (quantOne x.toInt q)) xs qs)) := by
  intro i hi
  obtain ⟨x, hx, hr⟩ := h i hi
  have hxi : xs[i]? = some x := by
    have hget := congrArg (·[i]?) hxs
    simpa [List.getElem?_range hi, hx, eq_comm] using hget
  have hqi : i < qs.length := hlen ▸ hi
  refine ⟨_, ?_, (hr.quantOne (hpos _ (List.getElem_mem hqi))).toInt_ofInt⟩
  rw [tabGet_tabOf, if_pos (Nat.zero_le i), Nat.sub_zero, List.getElem?_zipWith, hxi, List.getElem?_eq_getElem hqi]

/-- ZZORDER keeps DC first. -/
theorem zzOrder_ac : ∀ k < 64, zzOrder.getD k 0 < 64 ∧ (zzOrder.getD k 0 = 0 ↔ k = 0) := by decide

theorem bufferInRange_zigzag {st : Store Half} (h : BufferInRange st) {xs : List Half}
    (hxs : zzOrder.map (tabGet st) = xs.map some) : BufferInRange (tabOf 0 xs) := by
  intro k hk
  obtain ⟨hlt, hdc⟩ := zzOrder_ac k hk
  obtain ⟨x, hx, hr⟩ := h _ hlt
  refine ⟨x, ?_, ?_⟩
  · have hget := congrArg (·[k]?) hxs
    have hord : zzOrder[k]? = some (zzOrder.getD k 0) := by
      rw [List.getD_eq_getElem _ _ (show k < zzOrder.length from hk), List.getElem?_eq_getElem]
    rw [List.getElem?_map, hord, Option.map_some, hx, List.getElem?_map] at hget
    rw [tabGet_tabOf, if_pos (Nat.zero_le k), Nat.sub_zero]
    simpa [eq_comm] using hget
  · simpa only [ValueInRange, hdc] using hr

/-- No halt is a category overflow. -/
def NoCatOvf (e : Halt) : Prop := ∀ info u, e ≠ .raise .catOvf info u

theorem eq_catOvf_of_faultNumber {code : FaultCode} (h : faultNumber code = 4#8) : code = .catOvf := by
  revert h
  cases code <;> decide

theorem noCatOvf_raise {code : FaultCode} (h : code ≠ .catOvf) (info : Word) (s : State) :
    NoCatOvf (.raise code info s) := fun _ _ he => h (by injection he)

theorem noCatOvf_unwritten (r : Region) (k : Nat) (s : State) : NoCatOvf (.unwritten r k s) := fun _ _ he => nomatch he

/-- The predictors are those of s. -/
def SamePreds (s t : State) : Prop := ∀ c, pred t c = pred s c

theorem OnlyStream.samePreds {s t : State} (h : OnlyStream s t) : SamePreds s t := by
  intro c
  rw [h]
  cases c <;> rfl

theorem putBits_noCatOvf (v n : Nat) (s : State) : Sat (OnlyStream s) NoCatOvf (putBits v n s) := by
  obtain ⟨bs, hrun⟩ := putBits_outputs v n s
  cases hx : putBits v n s with
  | error e => exact fun info u he => hrun.halt_ne_catOvf info u (hx.trans (congrArg _ he))
  | ok t => exact (hrun.ok hx).2

theorem samePreds_coding (s : State) : CodingSpec (SamePreds s) NoCatOvf where
  put v n t ht := (putBits_noCatOvf v n t).mono fun _ hu c => (hu.samePreds c).trans (ht c)
  count f t ht c := (show pred { t with freq := f } c = pred t c by cases c <;> rfl).trans (ht c)
  missing _ _ := noCatOvf_raise (by simp) _ _
  unwritten := noCatOvf_unwritten

/-- Every predictor is in the range of a quantized DC. -/
def PredsInRange (s : State) : Prop := ∀ c, PredInRange s c

theorem predsInRange_dcReset (s : State) : PredsInRange (dcResetBody s) := fun c => by
  have hzero : pred (dcResetBody s) c = 0#16 := by cases c <;> rfl
  rw [PredInRange, hzero]
  decide

/-- With ZZBUF and the predictor in range the block is within the category limits: a DC difference is at most 2040. -/
theorem codable_of_inRange {c : Component} {s : State} (hz : BufferInRange s.zzbuf) (hp : PredInRange s c) :
    Codable c s := by
  obtain ⟨hlo, hhi⟩ := hp
  refine ⟨fun i hi => ?_, ?_, fun k hk hk' => ?_⟩
  · obtain ⟨x, hx, -⟩ := hz i hi
    rw [Nat.zero_add, hx]
    rfl
  · obtain ⟨x, hx, hr⟩ := hz 0 (by omega)
    rw [ValueInRange, if_pos rfl] at hr
    rw [dcDiff, zzAt_of_some hx]
    omega
  · obtain ⟨x, hx, hr⟩ := hz k hk'
    rw [ValueInRange, if_neg (by omega)] at hr
    rw [zzAt_of_some hx]
    omega

/-- ENC_BLOCK on values in range raises no CAT_OVF and leaves the predictors in range. -/
theorem encBlockBody_inRange {c : Component} {s : State} (hz : BufferInRange s.zzbuf) (hp : PredsInRange s) :
    Sat PredsInRange NoCatOvf (encBlockBody c s) := by
  have hset : ∀ t, SamePreds s t → SamePreds (setPred c (zzDc s) s) (setPred c (zzDc s) t) := fun t ht d => by
    by_cases hd : d = c
    · rw [hd, pred_setPred, pred_setPred]
    · rw [pred_setPred_ne _ _ _ _ hd, pred_setPred_ne _ _ _ _ hd, ht d]
  rw [encBlockBody_codable (codable_of_inRange hz (hp c))]
  refine (codeHead_sat (samePreds_coding s) (samePreds_coding _) hset _ fun _ => rfl).mono fun t ht d => ?_
  rw [PredInRange, ht d]
  by_cases hd : d = c
  · obtain ⟨x, hx, hr⟩ := hz 0 (by omega)
    rw [hd, pred_setPred, zzDc, hx]
    exact hr
  · rw [pred_setPred_ne _ _ _ _ hd]
    exact hp d

/-- FDCT, QUANT, ZIGZAG and ENC_BLOCK in turn keep every value in range. -/
theorem codeBlock_inRange (e : Fin 6 × QSel × Component) {s : State} (hp : PredsInRange s) :
    Sat PredsInRange NoCatOvf (codeBlock e s) := by
  rw [codeBlock_bind]
  have hfdct : Sat (fun t => PredsInRange t ∧ BufferInRange t.coef) NoCatOvf (fdctBody e.1 s) := by
    rcases fdctBody_cases e.1 s with ⟨xs, hl, hx⟩ | ⟨k, hx⟩ <;> rw [hx]
    · exact ⟨hp, bufferInRange_fdct hl⟩
    · exact noCatOvf_unwritten _ _ _
  refine hfdct.bind fun s1 ⟨hp1, hc1⟩ => ?_
  have hquant : Sat (fun t => PredsInRange t ∧ BufferInRange t.qcoef) NoCatOvf (quantBody e.2.1 s1) := by
    rcases quantBody_cases e.2.1 s1 with ⟨xs, qs, hxs, hlen, hpos, hx⟩ | ⟨r, k, hx⟩ | ⟨k, hx⟩ <;> rw [hx]
    · exact ⟨hp1, bufferInRange_quant hc1 hxs hlen hpos⟩
    · exact noCatOvf_unwritten _ _ _
    · exact noCatOvf_raise (by simp) _ _
  refine hquant.bind fun s2 ⟨hp2, hq2⟩ => ?_
  have hzigzag : Sat (fun t => PredsInRange t ∧ BufferInRange t.zzbuf) NoCatOvf (zigzagBody s2) := by
    rcases zigzagBody_cases s2 with ⟨xs, hxs, hx⟩ | ⟨k, hx⟩ <;> rw [hx]
    · exact ⟨hp2, bufferInRange_zigzag hq2 hxs⟩
    · exact noCatOvf_unwritten _ _ _
  exact hzigzag.bind fun s3 ⟨hp3, hz3⟩ => encBlockBody_inRange hz3 hp3

theorem predsInRange_of_same {s t : State} (h : SamePreds s t) (hp : PredsInRange s) : PredsInRange t := fun c => by
  rw [PredInRange, h c]
  exact hp c

theorem inRange_scan : ScanSpec PredsInRange NoCatOvf where
  load s hs := by
    rcases loadMcuBody_cases s with ⟨_, _, _, _, hx⟩ | ⟨_, _, _, hx, _⟩ <;> rw [hx]
    · exact noCatOvf_raise (by simp) _ _
    · exact hs
  block e _ hs := codeBlock_inRange e hs
  pos _ _ hs := hs
  flush s hs := by
    unfold flushBody
    split
    · exact (putBits_noCatOvf _ _ s).mono fun _ ht => predsInRange_of_same ht.samePreds hs
    · exact hs

/-- Settles O59: the predictors start at 0 and stay in range, and so does every buffer of the datapath. -/
theorem scanNeverOverflowsCategory : Obligations.ScanNeverOverflowsCategory := by
  unfold Obligations.ScanNeverOverflowsCategory
  intro s t herr h
  rw [exec_eq] at h
  cases hc : checkOf .encScan s with
  | some sub =>
    rw [hc] at h
    cases h
    simp [faultNumber]
  | none =>
    rw [hc] at h
    have hsat : Sat PredsInRange NoCatOvf (bodyOf .encScan s) :=
      withOverlap_sat fun n rs => encScanBody_sat inRange_scan (predsInRange_dcReset _)
    rcases finish_cases _ _ _ h with ⟨v, hx, rfl⟩ | ⟨code, info, v, hx, rfl⟩
    · obtain ⟨n, rs, hframe⟩ := bodyOf_reaches engineFrame_rel freqClearBody_engine .encScan s
      rw [hx] at hframe
      obtain ⟨hstatus, -⟩ := engineFrame_keeps_control hframe
      rw [complete_status, hstatus]
      exact herr
    · rw [hx] at hsat
      have hne : code ≠ .catOvf := fun hcode => hsat info v (by rw [hcode])
      exact fun hnum => hne (eq_catOvf_of_faultNumber hnum)

end Sys2Proof.Machine

/-! PROOF. PUTBITS and FLUSH (43_entropy.md R222, R223). -/

namespace Sys2Proof.Machine

open Sys2Proof.Safety

/-! The commands of the bit packer. -/

theorem exec_putbits_eq (v : Half) (n : BitVec 5) (s : State) :
    exec (.putbits v n) s = finish (footprint s.ctrl (.putbits v n)) (putBits (v.toNat % 2 ^ n.toNat) n.toNat s) := rfl

theorem exec_flush_eq (s : State) : exec .flush s = finish (footprint s.ctrl .flush) (flushBody s) := rfl

theorem exec_encBlock_eq (c : Component) (s : State) :
    exec (.encBlock c) s = finish (footprint s.ctrl (.encBlock c)) (encBlockBody c s) := rfl

theorem Wrote.appends {s t : State} {new : List Bool} (hw : Wrote s t (streamBytes s new)) (hp : Packed s t new)
    (hr : s.racyDst = []) : Appends s t new :=
  ⟨_, hp, hw.ptr, hw.bytes hr⟩

/-- Settles O47: at most 23 bits complete two bytes, four with their stuffing. -/
theorem putbitsAppendsItsBits : Obligations.PutbitsAppendsItsBits := by
  unfold Obligations.PutbitsAppendsItsBits
  intro s v n hwf hpack hroom
  obtain ⟨hn, hn', hv⟩ := (wf_putbits_iff v n).1 hwf
  have hlen : (streamBytes s (bitsOf n.toNat v.toNat)).length ≤ 2 * 2 :=
    streamBytes_length_le (by rw [bitsOf_length]; omega)
  obtain ⟨t, ht, hw, happ⟩ := (putBits_appends hv s).of_room hroom hlen
  rw [exec_putbits_eq, Nat.mod_eq_of_lt hv, ht]
  refine ⟨complete t, rfl, ?_, hw.rest, happ.packOk hpack, hw.appends happ.packed⟩
  rw [happ.only]
  rfl

theorem cnt_pos {s : State} (h : s.pack.cnt ≠ 0#3) : 0 < s.pack.cnt.toNat :=
  Nat.pos_of_ne_zero fun h0 => h (BitVec.eq_of_toNat_eq h0)

/-- FLUSH with pending bits puts 1-bits through the packer up to the next byte (R223). -/
theorem flushBody_appends {s : State} (h : s.pack.cnt ≠ 0#3) :
    AppendsBits s (List.replicate (8 - s.pack.cnt.toNat) true) (flushBody s) := by
  rw [flushBody, if_pos (cnt_pos h), ← bitsOf_ones]
  exact putBits_appends (Nat.sub_one_lt (by positivity)) s

theorem flushBody_empty {s : State} (h : s.pack.cnt = 0#3) : flushBody s = .ok s := by
  rw [flushBody, h, if_neg (by decide)]

/-- The byte FLUSH writes: the pending bits filled with 1-bits. -/
def flushByte (s : State) : Nat :=
  s.pack.acc.toNat * 2 ^ (8 - s.pack.cnt.toNat) + (2 ^ (8 - s.pack.cnt.toNat) - 1)

theorem flushByte_lt {s : State} (h : PackOk s) : flushByte s < 256 := by
  have hpow : 2 ^ s.pack.cnt.toNat * 2 ^ (8 - s.pack.cnt.toNat) = 256 := by
    rw [← pow_add, Nat.add_sub_cancel' (show _ ≤ 8 from s.pack.cnt.isLt.le)]
    rfl
  have hpos := Nat.one_le_two_pow (n := 8 - s.pack.cnt.toNat)
  have hmul := Nat.mul_le_mul_right (2 ^ (8 - s.pack.cnt.toNat)) (show _ + 1 ≤ _ from h)
  rw [hpow, Nat.succ_mul] at hmul
  rw [flushByte]
  omega

theorem pendingBits_flush (s : State) :
    pendingBits s ++ List.replicate (8 - s.pack.cnt.toNat) true = bitsOf 8 (flushByte s) := by
  rw [← bitsOf_ones, pendingBits, ← bitsOf_append _ _ _ (Nat.sub_one_lt (by positivity)),
    Nat.add_sub_cancel' s.pack.cnt.isLt.le, flushByte]

theorem completeBytes_flush (s : State) :
    completeBytes (pendingBits s ++ List.replicate (8 - s.pack.cnt.toNat) true) = [BitVec.ofNat 8 (flushByte s)] := by
  rw [pendingBits_flush, ← List.append_nil (bitsOf 8 _), completeBytes_bitsOf, completeBytes_of_lt (by simp)]

theorem pack_of_pending_nil {t : State} (h : pendingBits t = []) (hok : PackOk t) : t.pack = ⟨0#3, 0#7⟩ := by
  have hcnt : t.pack.cnt.toNat = 0 := by rw [← pendingBits_length, h, List.length_nil]
  have hacc : t.pack.acc.toNat = 0 := by
    rw [PackOk, hcnt] at hok
    omega
  cases hp : t.pack with
  | mk cnt acc =>
    rw [hp] at hcnt hacc
    rw [BitVec.eq_of_toNat_eq (x := cnt) (y := 0#3) hcnt, BitVec.eq_of_toNat_eq (x := acc) (y := 0#7) hacc]

/-- FLUSH with pending bits and room completes: one byte, stuffed, and PACK empty. -/
theorem flushBody_room {s : State} (hpack : PackOk s) (h : s.pack.cnt ≠ 0#3) (hroom : RoomFor 2 s) :
    ∃ t, flushBody s = .ok t ∧ OnlyStream s t ∧ t.pack = ⟨0#3, 0#7⟩ ∧
      Wrote s t (stuffed [BitVec.ofNat 8 (flushByte s)]) := by
  have hlen : (streamBytes s (List.replicate (8 - s.pack.cnt.toNat) true)).length ≤ 2 * 1 :=
    streamBytes_length_le (by rw [List.length_replicate]; omega)
  obtain ⟨t, ht, hw, happ⟩ := (flushBody_appends h).of_room hroom hlen
  have hpend := happ.packed
  rw [Packed, completeBytes_flush, pendingBits_flush] at hpend
  have hnil : pendingBits t = [] := by
    have hl := congrArg List.length hpend
    rw [List.length_append, bitsOf_length, byteBits_length, List.length_singleton] at hl
    exact List.eq_nil_of_length_eq_zero (by omega)
  rw [streamBytes, completeBytes_flush] at hw
  exact ⟨t, ht, happ.only, pack_of_pending_nil hnil (happ.packOk hpack), hw⟩

/-- Settles O48: the pending bits and the 1-bits are one byte, with its stuffing, and nothing stays pending. -/
theorem flushPadsWithOnes : Obligations.FlushPadsWithOnes := by
  unfold Obligations.FlushPadsWithOnes
  intro s hpack
  refine ⟨fun h => by rw [exec_flush_eq, flushBody_empty h]; rfl, fun h hroom => ?_⟩
  intro pad b len
  obtain ⟨t, ht, honly, hempty, hw⟩ := flushBody_room hpack h hroom
  have hbyte : (BitVec.ofNat 8 (flushByte s)).toNat = b := by
    rw [BitVec.toNat_ofNat]
    exact Nat.mod_eq_of_lt (flushByte_lt hpack)
  have hlen : (stuffed [BitVec.ofNat 8 (flushByte s)]).length = len := by
    by_cases hff : b = 255
    · have hmark : BitVec.ofNat 8 (flushByte s) = 0xFF#8 := BitVec.eq_of_toNat_eq (hbyte.trans hff)
      rw [hmark, show len = 2 from if_pos hff]
      rfl
    · have hplain : BitVec.ofNat 8 (flushByte s) ≠ 0xFF#8 := fun h => hff (hbyte.symm.trans (congrArg BitVec.toNat h))
      rw [stuffed_plain hplain, show len = 1 from if_neg hff]
      rfl
  have hptr := hw.ptr_add 0
  rw [BitVec.add_zero, Nat.add_zero, hlen] at hptr
  have hptr' := hw.ptr
  rw [hlen] at hptr'
  refine ⟨complete t, by rw [exec_flush_eq, ht]; rfl, ?_, ?_, ?_⟩
  · rw [honly, hempty, hptr]
    rfl
  · rw [← hptr']
    exact hw.rest
  · intro hr
    have hread : ∀ i x, (stuffed [BitVec.ofNat 8 (flushByte s)])[i]? = some x →
        Memory.read t.mem (s.dstPtr.toNat + i) = x := fun i x hx => by
      obtain ⟨hi, -⟩ := List.getElem?_eq_some_iff.1 hx
      rwa [hw.bytes_getElem? hr hi, Option.some_inj] at hx
    have hhead := stuffed_head (BitVec.ofNat 8 (flushByte s)) []
    refine ⟨(congrArg BitVec.toNat (hread 0 _ hhead)).trans hbyte, fun hff => hread 1 _ ?_⟩
    rw [BitVec.eq_of_toNat_eq (y := 0xFF#8) (hbyte.trans hff)] at hhead ⊢
    exact stuffed_getElem?_marker hhead

end Sys2Proof.Machine

/-! PROOF. The symbols of a block, and ENC_BLOCK in an emitting pass (43_entropy.md R196 to R213). -/

namespace Sys2Proof.Machine

open Sys2Proof.Safety

/-! The symbols of a block. -/

theorem forall_mem_turnSyms {Q : Nat × Nat × Nat → Prop} (hzrl : Q (0xF0, 0, 0))
    (hval : ∀ r v, v ≠ 0 → v.natAbs < 1024 → Q (r % 16 * 16 + cat v, mag v (cat v), cat v)) {std : Bool} {r : Nat}
    {v : Int} (hv : v.natAbs < 1024) : ∀ y ∈ turnSyms std r v, Q y := by
  intro y hy
  unfold turnSyms at hy
  split at hy
  · split at hy
    · rwa [List.mem_singleton.1 hy]
    · cases hy
  · next h0 =>
    rcases List.mem_append.1 hy with hy | hy
    · rwa [List.eq_of_mem_replicate hy]
    · rw [List.mem_singleton.1 hy]
      exact hval r v h0 hv

/-- What holds of ZRL, EOB and every run and value within the limits holds of every AC symbol. -/
theorem forall_mem_acSyms {Q : Nat × Nat × Nat → Prop} (heob : Q (0x00, 0, 0)) (hzrl : Q (0xF0, 0, 0))
    (hval : ∀ r v, v ≠ 0 → v.natAbs < 1024 → Q (r % 16 * 16 + cat v, mag v (cat v), cat v)) {std : Bool} {r : Nat}
    {vs : List Int} (hvs : ∀ v ∈ vs, v.natAbs < 1024) : ∀ y ∈ acSyms std r vs, Q y := by
  induction vs generalizing r with
  | nil =>
    intro y hy
    unfold acSyms at hy
    split at hy
    · rwa [List.mem_singleton.1 hy]
    · cases hy
  | cons v vs ih =>
    obtain ⟨hv, hrest⟩ := List.forall_mem_cons.1 hvs
    rw [acSyms_cons]
    exact List.forall_mem_append.2 ⟨forall_mem_turnSyms hzrl hval hv, ih hrest⟩

theorem cat_range {v : Int} (hv : v ≠ 0) (hlt : v.natAbs < 1024) : 1 ≤ cat v ∧ cat v ≤ 10 :=
  ⟨cat_pos hv, cat_le_iff.2 hlt⟩

theorem acSyms_used {std : Bool} {r : Nat} {vs : List Int} (hvs : ∀ v ∈ vs, v.natAbs < 1024) :
    ∀ y ∈ acSyms std r vs, AcSymbolUsed y.1 :=
  forall_mem_acSyms (Q := fun y => AcSymbolUsed y.1) (.inl rfl) (.inr (.inl rfl))
    (fun r v hv hlt => by
      have hcat := cat_range hv hlt
      exact .inr (.inr ⟨by dsimp only; omega, by dsimp only; omega, by dsimp only; omega⟩)) hvs

/-- The magnitude bits of a symbol fit their number. -/
def MagFits (y : Nat × Nat × Nat × Nat) : Prop := y.2.2.1 < 2 ^ y.2.2.2

theorem magFits_dcSym (c : Component) (s : State) : MagFits (dcSym c s) := mag_lt _

theorem magFits_acSyms {ta : Nat} {std : Bool} {r : Nat} {vs : List Int} (hvs : ∀ v ∈ vs, v.natAbs < 1024) :
    ∀ y ∈ inTable ta (acSyms std r vs), MagFits y := by
  intro y hy
  obtain ⟨x, hx, rfl⟩ := List.mem_map.1 hy
  exact forall_mem_acSyms (Q := fun y => y.2.1 < 2 ^ y.2.2) Nat.one_pos Nat.one_pos (fun _ v _ _ => mag_lt v) hvs x hx

theorem mem_inTable {ta : Nat} {ys : List (Nat × Nat × Nat)} {y : Nat × Nat × Nat × Nat} (h : y ∈ inTable ta ys) :
    y.1 = ta ∧ y.2 ∈ ys := by
  obtain ⟨x, hx, rfl⟩ := List.mem_map.1 h
  exact ⟨rfl, hx⟩

theorem acReady_values {s : State} {n : Nat} (h : AcReady s 1 n) :
    ∀ v ∈ firstAc s n, v.natAbs < 1024 := by
  intro v hv
  obtain ⟨j, hj, rfl⟩ := List.mem_map.1 hv
  obtain ⟨hlo, hhi⟩ := List.mem_range'_1.1 hj
  exact (h j hlo hhi).2

theorem codesReady_block {c : Component} {s : State} {n : Nat} (h : CodesReady c s) (hd : (dcDiff c s).natAbs < 2048)
    (hac : AcReady s 1 n) : ∀ y ∈ dcSym c s :: acSymsOf c s n, HasCode s y.1 y.2.1 := by
  obtain ⟨hdc, hacs⟩ := h
  refine List.forall_mem_cons.2 ⟨hdc _ (cat_le_iff.2 hd), fun y hy => ?_⟩
  obtain ⟨hta, hmem⟩ := mem_inTable hy
  rw [hta]
  exact hacs _ (acSyms_used (acReady_values hac) _ hmem)

theorem countersReady_block {c : Component} {s : State} {n : Nat} (h : CountersReady c s)
    (hd : (dcDiff c s).natAbs < 2048) (hac : AcReady s 1 n) :
    ∀ y ∈ dcSym c s :: acSymsOf c s n, (tabGet s.freq (256 * y.1 + y.2.1)).isSome = true := by
  obtain ⟨hdc, hacs⟩ := h
  have hcat : cat (dcDiff c s) ≤ 11 := cat_le_iff.2 hd
  refine List.forall_mem_cons.2 ⟨hdc (cat (dcDiff c s)) (by omega), fun y hy => ?_⟩
  obtain ⟨hta, hmem⟩ := mem_inTable hy
  rw [hta]
  refine hacs _ ?_
  rcases acSyms_used (acReady_values hac) _ hmem with h | h | h <;> omega

theorem magFits_block {c : Component} {s : State} {n : Nat} (hac : AcReady s 1 n) :
    ∀ y ∈ dcSym c s :: acSymsOf c s n, MagFits y :=
  List.forall_mem_cons.2 ⟨magFits_dcSym c s, magFits_acSyms (acReady_values hac)⟩

/-! How many bits. -/

/-- A bound on the bits of symbols: codes of at most 16 bits, and the magnitude bits. -/
def bitCost (ys : List (Nat × Nat × Nat × Nat)) : Nat := (ys.map fun y => 16 + y.2.2.2).sum

theorem bitCost_append (xs ys : List (Nat × Nat × Nat × Nat)) : bitCost (xs ++ ys) = bitCost xs + bitCost ys := by
  simp [bitCost]

theorem bitCost_zrl (ta : Nat) : bitCost (inTable ta [(0xF0, 0, 0)]) = 16 := rfl

theorem bitCost_eob (ta : Nat) : bitCost (inTable ta [(0x00, 0, 0)]) = 16 := rfl

theorem bitCost_prefix {xs ys : List (Nat × Nat × Nat × Nat)} (h : xs <+: ys) : bitCost xs ≤ bitCost ys := by
  obtain ⟨zs, rfl⟩ := h
  rw [bitCost_append]
  exact Nat.le_add_right _ _

theorem symBits_length_le {s : State} {y : Nat × Nat × Nat × Nat} (h : HasCode s y.1 y.2.1) :
    (symBits s y).length ≤ 16 + y.2.2.2 := by
  obtain ⟨e, he, -, hlen⟩ := h
  simp only [symBits, he, List.length_append, bitsOf_length]
  omega

theorem flatMap_symBits_length_le {s : State} {ys : List (Nat × Nat × Nat × Nat)}
    (h : ∀ y ∈ ys, HasCode s y.1 y.2.1) : (ys.flatMap (symBits s)).length ≤ bitCost ys := by
  induction ys with
  | nil => simp
  | cons y ys ih =>
    obtain ⟨hy, hys⟩ := List.forall_mem_cons.1 h
    have hhead := symBits_length_le hy
    have htail := ih hys
    simp only [List.flatMap_cons, List.length_append, bitCost, List.map_cons, List.sum_cons] at htail ⊢
    omega

/-- A value, or a zero still in the run, costs at most 26 bits: ZRL and EOB stand for zeros. -/
theorem bitCost_acSyms (ta : Nat) (std : Bool) (r : Nat) {vs : List Int} (hvs : ∀ v ∈ vs, v.natAbs < 1024) :
    bitCost (inTable ta (acSyms std r vs)) ≤ 26 * (vs.length + r) := by
  induction vs generalizing r with
  | nil =>
    unfold acSyms
    split
    · rw [bitCost_eob]
      omega
    · exact Nat.zero_le _
  | cons v vs ih =>
    obtain ⟨hv, hrest⟩ := List.forall_mem_cons.1 hvs
    have hturn : bitCost (inTable ta (turnSyms std r v)) + 26 * turnRun std r v ≤ 26 * (r + 1) := by
      by_cases h0 : v = 0
      · by_cases hzrl : std = false ∧ r + 1 = 16
        · rw [turnSyms, turnRun, if_pos h0, if_pos h0, if_pos hzrl, if_pos hzrl, bitCost_zrl]
          omega
        · rw [turnSyms, turnRun, if_pos h0, if_pos h0, if_neg hzrl, if_neg hzrl]
          exact (Nat.zero_add _).le
      · have hcat := cat_range h0 hv
        have hcost : bitCost (inTable ta (turnSyms std r v)) = 16 * (r / 16) + (16 + cat v) := by
          simp [turnSyms, h0, bitCost, inTable, Nat.mul_comm]
        rw [hcost, turnRun, if_neg h0]
        omega
    have hlast := ih (turnRun std r v) hrest
    rw [acSyms_cons, inTable_append, bitCost_append, List.length_cons]
    omega

theorem bitCost_block {c : Component} {s : State} {n : Nat} (hd : (dcDiff c s).natAbs < 2048) (hac : AcReady s 1 n) :
    bitCost (dcSym c s :: acSymsOf c s n) ≤ 27 + 26 * n := by
  have hcat : cat (dcDiff c s) ≤ 11 := cat_le_iff.2 hd
  have hacs := bitCost_acSyms (acTable c) s.ctrl.acmode 0 (acReady_values hac)
  rw [firstAc, List.length_map, List.length_range', ← firstAc] at hacs
  have hcons : bitCost (dcSym c s :: acSymsOf c s n) = 16 + cat (dcDiff c s) + bitCost (acSymsOf c s n) := by
    simp [bitCost, dcSym]
  rw [hcons, acSymsOf]
  omega

/-- The first symbols of a block, each with a code, complete fewer than 512 bytes. -/
theorem streamBytes_block_length_le {c : Component} {s : State} {n : Nat} {ys : List (Nat × Nat × Nat × Nat)}
    (hn : n ≤ 63) (hd : (dcDiff c s).natAbs < 2048) (hac : AcReady s 1 n)
    (hys : ys <+: dcSym c s :: acSymsOf c s n) (hc : ∀ y ∈ ys, HasCode s y.1 y.2.1) :
    (streamBytes s (ys.flatMap (symBits s))).length ≤ 512 := by
  have hbits := flatMap_symBits_length_le hc
  have hcost := (bitCost_prefix hys).trans (bitCost_block hd hac)
  have hlen := streamBytes_length_le (s := s) (new := ys.flatMap (symBits s)) (n := 255) (by omega)
  omega

/-! Emitting (R196). -/

theorem symBits_congr {s t : State} (h : t.huff = s.huff) : symBits t = symBits s := by
  funext y
  rw [symBits, h, symBits]

/-- Each symbol has a code, and its magnitude bits fit. -/
def Emittable (s : State) (ys : List (Nat × Nat × Nat × Nat)) : Prop := ∀ y ∈ ys, HasCode s y.1 y.2.1 ∧ MagFits y

theorem Emittable.congr {s t : State} {ys : List (Nat × Nat × Nat × Nat)} (h : Emittable s ys)
    (hhuff : t.huff = s.huff) : Emittable t ys := by
  intro y hy
  rw [HasCode, hhuff]
  exact h y hy

theorem symbol_appends {s : State} {y : Nat × Nat × Nat × Nat} (hs : s.ctrl.stats = false)
    (hc : HasCode s y.1 y.2.1) (hm : MagFits y) :
    AppendsBits s (symBits s y) (symbol y.1 y.2.1 y.2.2.1 y.2.2.2 s) := by
  obtain ⟨e, he, hlo, hhi⟩ := hc
  rw [symbol_emit hs, emitSymbol_bind he hlo hhi, symBits, he]
  have hcode := putBits_appends (Nat.mod_lt e.code.toNat (Nat.two_pow_pos e.len.toNat)) s
  rw [bitsOf_mod le_rfl] at hcode
  exact hcode.bind fun t _ => putBits_appends hm t

theorem Appended.reads {s t : State} {new : List Bool} (h : Appended s t new) : t.ctrl = s.ctrl ∧ t.huff = s.huff := by
  rw [h.only]
  exact ⟨rfl, rfl⟩

/-- In an emitting pass symbols append their bits in order. -/
theorem codeSyms_appends {s : State} {ys : List (Nat × Nat × Nat × Nat)} (hs : s.ctrl.stats = false)
    (h : Emittable s ys) : AppendsBits s (ys.flatMap (symBits s)) (codeSyms ys s) := by
  induction ys generalizing s with
  | nil => exact appendsBits_nil s
  | cons y ys ih =>
    obtain ⟨⟨hc, hm⟩, hys⟩ := List.forall_mem_cons.1 h
    rw [codeSyms_cons, List.flatMap_cons]
    refine (symbol_appends hs hc hm).bind fun t ht => ?_
    obtain ⟨hctrl, hhuff⟩ := ht.reads
    rw [← symBits_congr hhuff]
    exact ih (by rw [hctrl, hs]) (Emittable.congr hys hhuff)

/-- The predictor is no part of the stream. -/
theorem appendsBits_setPred {s : State} {c : Component} {p : Half} {new : List Bool} {x : Except Halt State}
    (h : AppendsBits (setPred c p s) new x) : Outputs s (streamBytes s new) (Appended (setPred c p s) · new) x := by
  have hset : Outputs s [] (· = setPred c p s) (.ok (setPred c p s)) :=
    .inl ⟨_, rfl, wrote_nil (by simp) (by simp) (by simp) (by simp) (by simp), rfl⟩
  have hbytes : streamBytes (setPred c p s) new = streamBytes s new := by cases c <;> rfl
  rw [AppendsBits, hbytes] at h
  exact hset.bind (f := fun _ => x) List.nil_prefix fun t ht => ht ▸ h

/-- A block's symbols append their bits in order, the predictor taken after the first. -/
theorem codeHead_appends {c : Component} {s : State} {ys : List (Nat × Nat × Nat × Nat)} (hs : s.ctrl.stats = false)
    (h : Emittable s (dcSym c s :: ys)) :
    Outputs s (streamBytes s ((dcSym c s :: ys).flatMap (symBits s)))
      (Appended (setPred c (zzDc s) s) · ((dcSym c s :: ys).flatMap (symBits s))) (codeHead c ys s) := by
  obtain ⟨hdc, hys⟩ := List.forall_mem_cons.1 h
  have hsplit : (dcSym c s :: ys).flatMap (symBits s) =
      [dcSym c s].flatMap (symBits s) ++ ys.flatMap (symBits s) := by simp
  have hfirst := codeSyms_appends hs (ys := [dcSym c s]) (List.forall_mem_singleton.2 hdc)
  rw [hsplit]
  refine Outputs.bind (streamBytes_prefix _ _ _) hfirst fun t ht => ?_
  obtain ⟨hctrl, hhuff⟩ := ht.reads
  have hhuff' : (setPred c (zzDc s) t).huff = s.huff := by rw [setPred_huff, hhuff]
  have hrest := codeSyms_appends (s := setPred c (zzDc s) t) (ys := ys) (by rw [setPred_ctrl, hctrl, hs])
    (Emittable.congr hys hhuff')
  rw [symBits_congr hhuff'] at hrest
  rw [ht.packed.streamBytes_append, List.drop_left]
  exact (appendsBits_setPred hrest).mono fun u hu => (ht.setPred c _).trans hu

theorem codeHead_onlyCoding {c : Component} {s u : State} {ys : List (Nat × Nat × Nat × Nat)}
    (h : codeHead c ys s = .ok u) : OnlyCoding (setPred c (zzDc s) s) u := by
  rw [codeHead] at h
  cases hx : codeSyms [dcSym c s] s with
  | error e => rw [hx] at h; cases h
  | ok t =>
    rw [hx] at h
    exact ((codeSyms_onlyCoding hx).setPred c _).trans (codeSyms_onlyCoding h)

theorem codeHead_reads {c : Component} {s u : State} {ys : List (Nat × Nat × Nat × Nat)}
    (h : codeHead c ys s = .ok u) : u.zzbuf = s.zzbuf ∧ u.ctrl = s.ctrl ∧ u.huff = s.huff := by
  have hreads := (codeHead_onlyCoding h).reads
  rwa [setPred_zzbuf, setPred_ctrl, setPred_huff] at hreads

/-- The outcome of an emitting ENC_BLOCK on a block that is ready. -/
theorem encBlockBody_appends {c : Component} {s : State} (hs : s.ctrl.stats = false) (hcod : Codable c s)
    (hcodes : CodesReady c s) :
    Outputs s (streamBytes s ((blockSyms c s).flatMap (symBits s)))
      (Appended (setPred c (zzDc s) s) · ((blockSyms c s).flatMap (symBits s))) (encBlockBody c s) := by
  obtain ⟨-, hd⟩ := codable_dc hcod
  have hac := codable_acReady hcod le_rfl
  rw [encBlockBody_codable hcod]
  exact codeHead_appends hs fun y hy => ⟨codesReady_block hcodes hd hac y hy, magFits_block hac y hy⟩

theorem packOk_setPred {c : Component} {p : Half} {s : State} (h : PackOk s) : PackOk (setPred c p s) := by
  cases c <;> exact h

theorem packed_of_setPred {c : Component} {p : Half} {s t : State} {new : List Bool}
    (h : Packed (setPred c p s) t new) : Packed s t new := by
  cases c <;> exact h

/-- Settles O51: the block is its symbols, and they complete at most 512 bytes. -/
theorem encBlockEmitsItsSymbols : Obligations.EncBlockEmitsItsSymbols := by
  unfold Obligations.EncBlockEmitsItsSymbols
  intro c s hs hcod hcodes hpack hroom
  obtain ⟨-, hd⟩ := codable_dc hcod
  have hac := codable_acReady hcod le_rfl
  have hlen := streamBytes_block_length_le (ys := blockSyms c s) le_rfl hd hac (List.prefix_refl _)
    (codesReady_block hcodes hd hac)
  obtain ⟨t, ht, hw, happ⟩ := (encBlockBody_appends hs hcod hcodes).of_room hroom hlen
  have hptr := hw.ptr
  refine ⟨complete t, by rw [exec_encBlock_eq, ht]; rfl, ?_, hw.rest, ?_, happ.packOk (packOk_setPred hpack),
    hw.appends (packed_of_setPred happ.packed)⟩
  · rw [happ.only]
    rfl
  · rw [complete_dstPtr]
    omega

end Sys2Proof.Machine

/-! PROOF. Where the output of PUTBITS, FLUSH and ENC_BLOCK stops (43_entropy.md R192, 60_exceptions.md R253). -/

namespace Sys2Proof.Machine

open Sys2Proof.Safety

theorem freed_mem (fp : Footprint) (s : State) : (freeRegisters fp (freeTables fp s)).mem = s.mem := by
  rw [(free_frame fp s).1]

/-- A command whose body raises a fault of the block ends in the fault state with the body's memory and DSTPTR
(60_exceptions.md R252, R253). -/
theorem finish_raise (fp : Footprint) (code : FaultCode) (info : Word) (u : State) :
    ∃ t, finish fp (.error (.raise code info u)) = .next t ∧ t.status.fault = true ∧ t.status.busy = false ∧
      t.status.errCode = faultNumber code ∧ t.errInfo = info ∧ t.mem = u.mem ∧ t.dstPtr = u.dstPtr :=
  ⟨_, rfl, rfl, rfl, rfl, rfl, freed_mem fp u, freed_dstPtr fp u⟩

theorem outputFault_of_stop {s : State} {out : List Byte} {Q : State → Prop} {x : Except Halt State} {n : Nat}
    (hx : Outputs s out Q x) (hn : n < out.length) (hstop : StopsAt s n) (fp : Footprint) :
    ∃ t, finish fp x = .next t ∧ OutputFault s t out n := by
  obtain ⟨u, hu, hw⟩ := hx.of_stop hn hstop
  obtain ⟨t, ht, hfault, hbusy, hcode, hinfo, hmem, hptr⟩ := finish_raise fp (outputCode s n) u.dstPtr u
  have hlen : (out.take n).length = n := List.length_take_of_le hn.le
  have hbytes := hw.bytes
  have hrest := hw.rest
  have hend := hw.ptr
  rw [hlen] at hbytes hend
  refine ⟨t, by rw [hu, ht], hfault, hbusy, hcode.trans (faultNumber_outputCode s n), hinfo.trans hptr.symm, ?_, ?_, ?_⟩
  · rw [hptr, hend]
  · rwa [hmem]
  · rwa [hmem, ← hend]

/-- Settles O49: in each of the three commands the body is a run of the stuffed bytes. -/
theorem outputFaults : Obligations.OutputFaults := by
  unfold Obligations.OutputFaults
  intro s i new n _ hemits hn hstop
  rcases hemits with ⟨v, k, rfl, hwf, rfl⟩ | ⟨rfl, hcnt, rfl⟩ | ⟨c, rfl, hs, hcod, hcodes, rfl⟩
  · obtain ⟨-, -, hv⟩ := (wf_putbits_iff v k).1 hwf
    rw [exec_putbits_eq, Nat.mod_eq_of_lt hv]
    exact outputFault_of_stop (putBits_appends hv s) hn hstop _
  · rw [exec_flush_eq]
    exact outputFault_of_stop (flushBody_appends hcnt) hn hstop _
  · rw [exec_encBlock_eq]
    exact outputFault_of_stop (encBlockBody_appends hs hcod hcodes) hn hstop _

end Sys2Proof.Machine

/-! PROOF. ENC_BLOCK in a counting pass (43_entropy.md R196, R210). -/

namespace Sys2Proof.Machine

open Sys2Proof.Safety

/-- A counter n higher, saturating. -/
def countUpBy (n : Nat) (old : Word) : Word := BitVec.ofNat 32 (min (old.toNat + n) (2 ^ 32 - 1))

theorem countUpBy_zero (old : Word) : countUpBy 0 old = old := by
  apply BitVec.eq_of_toNat_eq
  have := old.isLt
  rw [countUpBy, BitVec.toNat_ofNat]
  omega

theorem countUpBy_add (m n : Nat) (old : Word) : countUpBy n (countUpBy m old) = countUpBy (m + n) old := by
  apply BitVec.eq_of_toNat_eq
  simp only [countUpBy, BitVec.toNat_ofNat]
  omega

/-- How often symbols name counter k. -/
def namesOf (ys : List (Nat × Nat × Nat × Nat)) (k : Nat) : Nat := ys.countP fun y => 256 * y.1 + y.2.1 == k

theorem namesOf_append (xs ys : List (Nat × Nat × Nat × Nat)) (k : Nat) :
    namesOf (xs ++ ys) k = namesOf xs k + namesOf ys k := List.countP_append

/-- From f to g each counter grew by how often the symbols name it. -/
def Counted (ys : List (Nat × Nat × Nat × Nat)) (f g : Store Word) : Prop :=
  ∀ k, tabGet g k = (tabGet f k).map (countUpBy (namesOf ys k))

theorem Counted.nil (f : Store Word) : Counted [] f f := fun k => by
  cases tabGet f k with
  | none => rfl
  | some old => exact congrArg some (countUpBy_zero old).symm

theorem Counted.trans {xs ys : List (Nat × Nat × Nat × Nat)} {f g h : Store Word} (h1 : Counted xs f g)
    (h2 : Counted ys g h) : Counted (xs ++ ys) f h := fun k => by
  rw [h2 k, h1 k, Option.map_map, namesOf_append]
  exact congrArg (Option.map · _) (funext fun old => countUpBy_add _ _ old)

theorem Counted.isSome {ys : List (Nat × Nat × Nat × Nat)} {f g : Store Word} (h : Counted ys f g) (k : Nat) :
    (tabGet g k).isSome = (tabGet f k).isSome := by
  rw [h k, Option.isSome_map]

theorem counted_single {y : Nat × Nat × Nat × Nat} {f : Store Word} {old : Word}
    (h : tabGet f (256 * y.1 + y.2.1) = some old) : Counted [y] f (tabSet f (256 * y.1 + y.2.1) (countUp old)) := by
  intro k
  rw [tabGet_tabSet]
  by_cases hk : k = 256 * y.1 + y.2.1
  · subst hk
    rw [if_pos rfl, h, Option.map_some, namesOf, List.countP_singleton, if_pos (beq_self_eq_true _)]
    rfl
  · have hne : (256 * y.1 + y.2.1 == k) = false := beq_false_of_ne (Ne.symm hk)
    rw [if_neg hk, namesOf, List.countP_singleton, hne]
    exact Counted.nil f k

/-- Every symbol's counter holds a value. -/
def Countable (s : State) (ys : List (Nat × Nat × Nat × Nat)) : Prop :=
  ∀ y ∈ ys, (tabGet s.freq (256 * y.1 + y.2.1)).isSome = true

/-- In a counting pass symbols change the counters alone. -/
theorem codeSyms_counts {s : State} {ys : List (Nat × Nat × Nat × Nat)} (hs : s.ctrl.stats = true)
    (h : Countable s ys) : ∃ f, codeSyms ys s = .ok { s with freq := f } ∧ Counted ys s.freq f := by
  induction ys generalizing s with
  | nil => exact ⟨s.freq, rfl, Counted.nil _⟩
  | cons y ys ih =>
    obtain ⟨hy, hys⟩ := List.forall_mem_cons.1 h
    obtain ⟨old, hold⟩ := Option.isSome_iff_exists.1 hy
    have hone := counted_single hold
    obtain ⟨f, hf, hcount⟩ := ih (s := { s with freq := tabSet s.freq (256 * y.1 + y.2.1) (countUp old) }) hs
      fun z hz => (hone.isSome _).trans (hys z hz)
    refine ⟨f, ?_, hone.trans hcount⟩
    rw [codeSyms_cons, symbol_count hs, countSymbol, hold]
    exact hf

theorem codeHead_counts {c : Component} {s : State} {ys : List (Nat × Nat × Nat × Nat)} (hs : s.ctrl.stats = true)
    (h : Countable s (dcSym c s :: ys)) :
    ∃ f, codeHead c ys s = .ok { setPred c (zzDc s) s with freq := f } ∧ Counted (dcSym c s :: ys) s.freq f := by
  obtain ⟨hdc, hys⟩ := List.forall_mem_cons.1 h
  obtain ⟨f, hf, hone⟩ := codeSyms_counts hs (ys := [dcSym c s]) (List.forall_mem_singleton.2 hdc)
  obtain ⟨g, hg, hrest⟩ := codeSyms_counts (s := setPred c (zzDc s) { s with freq := f }) (ys := ys)
    (by rw [setPred_ctrl, hs]) fun y hy => by
      rw [setPred_freq]
      exact (hone.isSome _).trans (hys y hy)
  rw [setPred_freq] at hrest
  refine ⟨g, ?_, hone.trans hrest⟩
  rw [codeHead, hf]
  refine hg.trans ?_
  cases c <;> rfl

/-- Settles O50: the block is its symbols, each counted where it is named. -/
theorem encBlockCounts : Obligations.EncBlockCounts := by
  unfold Obligations.EncBlockCounts
  intro c s hs hcod hready
  obtain ⟨-, hd⟩ := codable_dc hcod
  have hac := codable_acReady hcod le_rfl
  obtain ⟨f, hf, hcount⟩ := codeHead_counts hs (countersReady_block hready hd hac)
  rw [exec_encBlock_eq, encBlockBody_codable hcod]
  exact ⟨_, congrArg (finish _) hf, rfl, hcount⟩

end Sys2Proof.Machine

/-! PROOF. CAT_OVF and HUFF_MISSING of ENC_BLOCK (43_entropy.md R196, R211). -/

namespace Sys2Proof.Machine

open Sys2Proof.Safety

/-- The loop at a value above the category limit raises CAT_OVF with its index. -/
theorem acLoop_catOvf (ta r : Nat) {k : Nat} {s : State} (hk : k < 64) (hsome : (tabGet s.zzbuf k).isSome = true)
    (hcat : 1024 ≤ (zzAt s k).natAbs) : acLoop ta (64 - k) r s = .error (.raise .catOvf (BitVec.ofNat 32 k) s) := by
  rw [acLoop_succ ta hk, acStep_catOvf ta r hsome hcat]
  rfl

/-- Once the symbols before ZZBUF[k] are coded, a value there above the limit raises CAT_OVF (R211). -/
theorem encBlockBody_acOvf {c : Component} {s u : State} {k : Nat} (hk : 1 ≤ k) (hk' : k < 64)
    (hd : (dcDiff c s).natAbs < 2048) (hw : Written s.zzbuf 0 (k + 1)) (hac : AcReady s 1 (k - 1))
    (hcat : 1024 ≤ (zzAt s k).natAbs) (hu : codeHead c (acSymsBefore c s k) s = .ok u) :
    encBlockBody c s = .error (.raise .catOvf (BitVec.ofNat 32 k) u) := by
  have hsome : ∀ j ≤ k, (tabGet s.zzbuf j).isSome = true := fun j hj => by simpa using hw j (by omega)
  obtain ⟨hzz, -, -⟩ := codeHead_reads hu
  rw [encBlockBody_before hk hk'.le (hsome 0 (by omega)) hd hac, hu]
  exact acLoop_catOvf _ _ hk' (by rw [hzz]; exact hsome k le_rfl) (by rwa [zzAt_congr hzz])

theorem acReady_of_written {s : State} {k : Nat} (hw : Written s.zzbuf 0 (k + 1))
    (hlt : ∀ j, 1 ≤ j → j < k → (zzAt s j).natAbs < 1024) : AcReady s 1 (k - 1) := fun j hj hj' =>
  ⟨by simpa using hw j (by omega), hlt j hj (by omega)⟩

/-- A DC symbol without a code raises HUFF_MISSING, whatever follows it. -/
theorem encBlockBody_dcMissing {c : Component} {s : State} {e : HuffEntry} (h0 : (tabGet s.zzbuf 0).isSome = true)
    (hs : s.ctrl.stats = false) (hd : (dcDiff c s).natAbs < 2048)
    (he : tabGet s.huff (256 * dcTable c + cat (dcDiff c s)) = some e) (hlen : e.len.toNat = 0 ∨ 16 < e.len.toNat) :
    encBlockBody c s =
      .error (.raise .huffMissing (BitVec.ofNat 32 (256 * dcTable c + cat (dcDiff c s))) s) := by
  rw [encBlockBody_dc h0 hd, codeSyms_singleton, dcSym, symbol_missing hs he hlen]
  rfl

/-- Once the symbols before it are coded, an AC symbol without a code raises HUFF_MISSING. -/
theorem encBlockBody_acMissing {c : Component} {s u : State} {pre post : List (Nat × Nat × Nat × Nat)}
    {y : Nat × Nat × Nat × Nat} {e : HuffEntry} (hs : s.ctrl.stats = false) (hcod : Codable c s)
    (hsplit : acSymsOf c s 63 = pre ++ y :: post) (he : tabGet s.huff (256 * y.1 + y.2.1) = some e)
    (hlen : e.len.toNat = 0 ∨ 16 < e.len.toNat) (hu : codeHead c pre s = .ok u) :
    encBlockBody c s = .error (.raise .huffMissing (BitVec.ofNat 32 (256 * y.1 + y.2.1)) u) := by
  obtain ⟨-, hctrl, hhuff⟩ := codeHead_reads hu
  rw [encBlockBody_codable hcod, hsplit, codeHead_append, hu]
  show codeSyms (y :: post) u = _
  rw [codeSyms_cons, symbol_missing (by rw [hctrl, hs]) (by rw [hhuff, he]) hlen]
  rfl

/-- A faulting ENC_BLOCK after symbols whose bytes were written. -/
theorem wroteBits_of_wrote {s t u : State} {new : List Bool} (hw : Wrote s u (streamBytes s new)) (hmem : t.mem = u.mem)
    (hptr : t.dstPtr = u.dstPtr) : WroteBits s t new := by
  rw [WroteBits, hmem, hptr]
  exact ⟨hw.ptr, hw.bytes, hw.rest⟩

theorem wrote_none (s : State) : Wrote s s (streamBytes s []) := by
  rw [streamBytes_nil]
  exact Wrote.refl s

/-- ENC_BLOCK whose body raises a fault of the block, in the terms of O52. -/
theorem exec_encBlock_raise {c : Component} {s u : State} {code : FaultCode} {info : Word}
    (h : encBlockBody c s = .error (.raise code info u)) :
    ∃ t, exec (.encBlock c) s = .next t ∧ t.status.fault = true ∧ t.status.errCode = faultNumber code ∧
      t.errInfo = info ∧ t.mem = u.mem ∧ t.dstPtr = u.dstPtr := by
  obtain ⟨t, ht, hfault, -, hcode, hinfo, hmem, hptr⟩ := finish_raise (footprint s.ctrl (.encBlock c)) code info u
  exact ⟨t, by rw [exec_encBlock_eq, h, ht], hfault, hcode, hinfo, hmem, hptr⟩

/-- The first symbols of a block, each with a code and with room, are written. -/
theorem codeHead_room {c : Component} {s : State} {n : Nat} {ys : List (Nat × Nat × Nat × Nat)} (hn : n ≤ 63)
    (hs : s.ctrl.stats = false) (hd : (dcDiff c s).natAbs < 2048) (hac : AcReady s 1 n)
    (hpre : dcSym c s :: ys <+: dcSym c s :: acSymsOf c s n) (hc : ∀ y ∈ dcSym c s :: ys, HasCode s y.1 y.2.1)
    (hroom : RoomFor 512 s) :
    ∃ u, codeHead c ys s = .ok u ∧ Wrote s u (streamBytes s ((dcSym c s :: ys).flatMap (symBits s))) := by
  have hemit : Emittable s (dcSym c s :: ys) := fun y hy => ⟨hc y hy, magFits_block hac y (hpre.subset hy)⟩
  obtain ⟨u, hu, hw, -⟩ :=
    (codeHead_appends hs hemit).of_room hroom (streamBytes_block_length_le hn hd hac hpre hc)
  exact ⟨u, hu, hw⟩

/-- Settles O52: each clause is the halt of the body, after the symbols before it are coded. -/
theorem encBlockFaults : Obligations.EncBlockFaults := by
  unfold Obligations.EncBlockFaults
  intro c s h0
  refine ⟨fun hd => exec_encBlock_raise (encBlockBody_dcOvf h0 hd), fun k hk hk' hd hw hcat hlt => ?_,
    fun e hs hd he hlen => exec_encBlock_raise (encBlockBody_dcMissing h0 hs hd he hlen),
    fun pre y post e hs hcod hsplit hcodes he hlen _ hroom => ?_⟩
  · have hac := acReady_of_written hw hlt
    have hpre := symsBefore_prefix c s k
    refine ⟨fun hs hready => ?_, fun hs hcodes _ hroom => ?_⟩
    · have hcount : Countable s (dcSym c s :: acSymsBefore c s k) := fun y hy =>
        countersReady_block hready hd hac y (hpre.subset hy)
      obtain ⟨f, hf, -⟩ := codeHead_counts hs hcount
      obtain ⟨t, ht, hfault, hcode, hinfo, hmem, hptr⟩ :=
        exec_encBlock_raise (encBlockBody_acOvf hk hk' hd hw hac hcat hf)
      exact ⟨t, ht, hfault, hcode, hinfo, hmem.trans (setPred_mem c _ s), hptr.trans (setPred_dstPtr c _ s)⟩
    · rw [symsBefore_eq]
      obtain ⟨u, hu, hwrote⟩ := codeHead_room (by omega) hs hd hac hpre
        (fun y hy => codesReady_block hcodes hd hac y (hpre.subset hy)) hroom
      obtain ⟨t, ht, hfault, hcode, hinfo, hmem, hptr⟩ :=
        exec_encBlock_raise (encBlockBody_acOvf hk hk' hd hw hac hcat hu)
      exact ⟨t, ht, hfault, hcode, hinfo, wroteBits_of_wrote hwrote hmem hptr⟩
  · obtain ⟨-, hd⟩ := codable_dc hcod
    have hac := codable_acReady hcod le_rfl
    rw [blockSyms_eq] at hsplit
    cases pre with
    | nil =>
      obtain ⟨rfl, -⟩ := List.cons.inj hsplit
      obtain ⟨t, ht, hfault, hcode, hinfo, hmem, hptr⟩ :=
        exec_encBlock_raise (encBlockBody_dcMissing h0 hs hd he hlen)
      exact ⟨t, ht, hfault, hcode, hinfo, wroteBits_of_wrote (wrote_none s) hmem hptr⟩
    | cons d pre =>
      obtain ⟨rfl, htail⟩ := List.cons.inj hsplit
      have hpre : dcSym c s :: pre <+: dcSym c s :: acSymsOf c s 63 :=
        (List.prefix_cons_inj _).2 (htail ▸ List.prefix_append _ _)
      obtain ⟨u, hu, hwrote⟩ := codeHead_room le_rfl hs hd hac hpre hcodes hroom
      obtain ⟨t, ht, hfault, hcode, hinfo, hmem, hptr⟩ :=
        exec_encBlock_raise (encBlockBody_acMissing hs hcod htail he hlen hu)
      exact ⟨t, ht, hfault, hcode, hinfo, wroteBits_of_wrote hwrote hmem hptr⟩

end Sys2Proof.Machine

/-! PROOF. The two AC modes on one block (43_entropy.md R202). -/

namespace Sys2Proof.Machine

open Sys2Proof.Safety

theorem runAfter_concat (std : Bool) (r : Nat) (vs : List Int) (v : Int) :
    runAfter std r (vs ++ [v]) = turnRun std (runAfter std r vs) v := List.foldl_append

/-- STD's run at the end of a list is the number of zeros that end it. -/
theorem runAfter_std_eq_trailingZeros (vs : List Int) : runAfter true 0 vs = trailingZeros vs := by
  induction vs using List.reverseRecOn with
  | nil => rfl
  | append_singleton vs v ih =>
    rw [runAfter_concat, ih]
    by_cases hv : v = 0 <;> simp [turnRun, trailingZeros, hv]

/-- SRC sends the ZRLs of a run as it goes; STD sends them only before a value, so the two lists differ exactly in
the ZRLs of a last run of 16 zeros or more. -/
theorem acSyms_modes_agree_iff (r : Nat) (vs : List Int) :
    acSyms true r vs = List.replicate (r / 16) (0xF0, 0, 0) ++ acSyms false (r % 16) vs ↔ runAfter true r vs < 16 := by
  induction vs generalizing r with
  | nil =>
    rcases lt_or_ge r 16 with hr | hr
    · have hdiv : r / 16 = 0 := by omega
      have hmod : r % 16 = r := by omega
      simp [acSyms, runAfter, hdiv, hmod, hr]
    · obtain ⟨n, hn⟩ : ∃ n, r / 16 = n + 1 := ⟨r / 16 - 1, by omega⟩
      have hpos : 0 < r := by omega
      simp [acSyms, runAfter, hn, List.replicate_succ, hpos, hr]
  | cons v vs ih =>
    rw [acSyms_cons, acSyms_cons, show runAfter true r (v :: vs) = runAfter true (turnRun true r v) vs from rfl, ← ih]
    by_cases hv : v = 0
    · by_cases hzrl : r % 16 + 1 = 16
      · have hdiv : (r + 1) / 16 = r / 16 + 1 := by omega
        have hmod : (r + 1) % 16 = 0 := by omega
        simp [turnSyms, turnRun, hv, hzrl, hdiv, hmod, List.replicate_succ']
      · have hdiv : (r + 1) / 16 = r / 16 := by omega
        have hmod : (r + 1) % 16 = r % 16 + 1 := by omega
        simp [turnSyms, turnRun, hv, hzrl, hdiv, hmod]
    · have hdiv : r % 16 / 16 = 0 := by omega
      simp [turnSyms, turnRun, hv, hdiv]

/-- Settles O53: the run that is open at the end is the zeros that end the block. -/
theorem acModesAgreeOnShortTails : Obligations.AcModesAgreeOnShortTails := by
  unfold Obligations.AcModesAgreeOnShortTails
  intro vs _
  rw [← runAfter_std_eq_trailingZeros, ← acSyms_modes_agree_iff]
  rfl

end Sys2Proof.Machine

/-! PROOF. The bodies of the commands neither read nor change STATUS and IRQSTAT: a body started after another command
has completed does what it would have done before (60_exceptions.md R261). -/

namespace Sys2Proof.Machine

open Sys2Proof.Safety

/-! STATUS and IRQSTAT replaced. -/

/-- The state with another STATUS and IRQSTAT. -/
def withControl (st : Status) (irq : IrqBits) (s : State) : State := { s with status := st, irqStat := irq }

section
variable (st : Status) (irq : IrqBits) (s : State)

@[simp] theorem withControl_ctrl : (withControl st irq s).ctrl = s.ctrl := rfl
@[simp] theorem withControl_qtab : (withControl st irq s).qtab = s.qtab := rfl
@[simp] theorem withControl_huff : (withControl st irq s).huff = s.huff := rfl
@[simp] theorem withControl_freq : (withControl st irq s).freq = s.freq := rfl
@[simp] theorem withControl_zzbuf : (withControl st irq s).zzbuf = s.zzbuf := rfl
@[simp] theorem pred_withControl (c : Component) : pred (withControl st irq s) c = pred s c := by cases c <;> rfl

end

/-- The halt with the state it reached changed. -/
def Halt.map (f : State → State) : Halt → Halt
  | .raise code info s => .raise code info (f s)
  | .unwritten r k s => .unwritten r k (f s)

/-- The outcome with the state that a halt reached changed by f, and the answer by g. -/
def mapEnd {β : Type} (f : State → State) (g : β → β) : Except Halt β → Except Halt β
  | .ok b => .ok (g b)
  | .error e => .error (e.map f)

theorem mapEnd_bind {β γ : Type} {f : State → State} {g : β → β} {g' : γ → γ} {x : Except Halt β}
    {k k' : β → Except Halt γ} (h : ∀ b, k' (g b) = mapEnd f g' (k b)) :
    (mapEnd f g x).bind k' = mapEnd f g' (x.bind k) := by
  cases x with
  | error e => rfl
  | ok b => exact h b

/-- A body that neither reads nor changes STATUS and IRQSTAT. -/
def Blind (f : State → Except Halt State) : Prop :=
  ∀ st irq s, f (withControl st irq s) = mapEnd (withControl st irq) (withControl st irq) (f s)

/-- The same of an operation that also answers a value. -/
def BlindVal {β : Type} (f : State → Except Halt (β × State)) : Prop :=
  ∀ st irq s, f (withControl st irq s) = mapEnd (withControl st irq) (Prod.map id (withControl st irq)) (f s)

theorem Blind.bind {f g : State → Except Halt State} (hf : Blind f) (hg : Blind g) :
    Blind fun s => (f s).bind g := fun st irq s => by
  show (f (withControl st irq s)).bind g = _
  rw [hf st irq s]
  exact mapEnd_bind (hg st irq)

theorem BlindVal.bind {β : Type} {f : State → Except Halt (β × State)} {g : β → State → Except Halt State}
    (hf : BlindVal f) (hg : ∀ b, Blind (g b)) : Blind fun s => (f s).bind fun p => g p.1 p.2 := fun st irq s => by
  show (f (withControl st irq s)).bind _ = _
  rw [hf st irq s]
  exact mapEnd_bind fun p => hg p.1 st irq p.2

theorem blind_ok : Blind .ok := fun _ _ _ => rfl

/-! The output stream (43_entropy.md R190 to R192). -/

theorem memWrite_blind (a : Word) (b : Byte) : Blind (memWrite a b) := fun st irq s => by
  rw [memWrite, memWrite, apply_ite (mapEnd _ _), apply_ite (mapEnd _ _)]
  rfl

theorem writeByte_bind (b : Byte) (s : State) :
    writeByte b s = if s.dstLim ≤ s.dstPtr then .error (.raise .dstOvf s.dstPtr s)
      else (memWrite s.dstPtr b s).bind fun t => .ok { t with dstPtr := t.dstPtr + 1#32 } := by
  rw [writeByte]
  cases memWrite s.dstPtr b s <;> rfl

theorem writeByte_blind (b : Byte) : Blind (writeByte b) := fun st irq s => by
  have hstep : Blind fun t => .ok { t with dstPtr := t.dstPtr + 1#32 } := fun _ _ _ => rfl
  rw [writeByte_bind, writeByte_bind, apply_ite (mapEnd _ _), ← (memWrite_blind s.dstPtr b).bind hstep st irq s]
  rfl

theorem emitByte_blind (b : Byte) : Blind (emitByte b) := fun st irq s => by
  rw [emitByte_bind, emitByte_bind]
  refine (writeByte_blind b).bind (fun st irq t => ?_) st irq s
  split
  · exact writeByte_blind 0x00#8 st irq t
  · rfl

theorem drain_blind (k rem acc : Nat) : Blind (drain k rem acc) := by
  induction k generalizing acc with
  | zero => exact fun _ _ _ => rfl
  | succ k ih =>
    intro st irq s
    rw [drain_succ, drain_succ]
    exact (emitByte_blind _).bind (ih _) st irq s

theorem putBits_blind (v n : Nat) : Blind (putBits v n) := fun st irq s => drain_blind _ _ _ st irq s

theorem flushBody_blind : Blind flushBody := fun st irq s => by
  rw [flushBody, flushBody, apply_ite (mapEnd _ _), ← putBits_blind]
  rfl

/-! The entropy coder (43_entropy.md R196 to R210). -/

theorem countSymbol_blind (t sym : Nat) : Blind (countSymbol t sym) := fun st irq s => by
  simp only [countSymbol, withControl_freq]
  cases tabGet s.freq (256 * t + sym) <;> rfl

theorem emitSymbol_blind (t sym v n : Nat) : Blind (emitSymbol t sym v n) := fun st irq s => by
  cases he : tabGet s.huff (256 * t + sym) with
  | none =>
    simp only [emitSymbol, withControl_huff, he]
    rfl
  | some e =>
    by_cases hlen : e.len.toNat = 0 ∨ 16 < e.len.toNat
    · simp only [emitSymbol, withControl_huff, he, if_pos hlen]
      rfl
    · rw [emitSymbol_bind he (by omega) (by omega),
        emitSymbol_bind (s := withControl st irq s) he (by omega) (by omega)]
      exact (putBits_blind _ _).bind (putBits_blind v n) st irq s

theorem symbol_blind (t sym v n : Nat) : Blind (symbol t sym v n) := fun st irq s => by
  rw [symbol, symbol, withControl_ctrl]
  split
  · exact countSymbol_blind t sym st irq s
  · exact emitSymbol_blind t sym v n st irq s

theorem codeSyms_blind (ys : List (Nat × Nat × Nat × Nat)) : Blind (codeSyms ys) := by
  induction ys with
  | nil => exact blind_ok
  | cons y ys ih =>
    intro st irq s
    rw [codeSyms_cons, codeSyms_cons]
    exact (symbol_blind _ _ _ _).bind ih st irq s

theorem acNonzero_bind (ta k r : Nat) (v : Int) (s : State) :
    acNonzero ta k r v s = if 10 < cat v then .error (.raise .catOvf (BitVec.ofNat 32 k) s)
      else (zrls ta (r / 16) s).bind (symbol ta (r % 16 * 16 + cat v) (mag v (cat v)) (cat v)) := by
  rw [acNonzero]
  cases zrls ta (r / 16) s <;> rfl

theorem acNonzero_blind (ta k r : Nat) (v : Int) : Blind (acNonzero ta k r v) := fun st irq s => by
  rw [acNonzero_bind, acNonzero_bind, zrls_eq, zrls_eq]
  split
  · rfl
  · exact (codeSyms_blind _).bind (symbol_blind _ _ _ _) st irq s

theorem acZero_blind (ta r : Nat) : BlindVal (acZero ta r) := fun st irq s => by
  rw [acZero_eq, acZero_eq, codeSyms_blind, withControl_ctrl]
  cases codeSyms (inTable ta (turnSyms s.ctrl.acmode r 0)) s <;> rfl

theorem acStep_blind (ta k r : Nat) : BlindVal (acStep ta k r) := fun st irq s => by
  simp only [acStep, withControl_zzbuf]
  cases tabGet s.zzbuf k with
  | none => rfl
  | some h =>
    by_cases h0 : h = 0#16
    · simp only [if_pos h0]
      exact acZero_blind ta r st irq s
    · simp only [if_neg h0, acNonzero_blind ta k r h.toInt st irq s]
      cases acNonzero ta k r h.toInt s <;> rfl

theorem acLoop_blind (ta n r : Nat) : Blind (acLoop ta n r) := by
  induction n generalizing r with
  | zero =>
    intro st irq s
    rw [acLoop_zero ta r s true, acLoop_zero ta r _ true]
    exact codeSyms_blind _ st irq s
  | succ n ih =>
    have hstep : ∀ s, acLoop ta (n + 1) r s = (acStep ta (63 - n) r s).bind fun p => acLoop ta n p.1 p.2 := fun s => by
      rw [acLoop]
      cases acStep ta (63 - n) r s <;> rfl
    intro st irq s
    rw [hstep, hstep]
    exact (acStep_blind ta _ r).bind ih st irq s

theorem dcCode_blind (c : Component) : Blind (dcCode c) := fun st irq s => by
  simp only [dcCode, withControl_zzbuf, pred_withControl]
  cases tabGet s.zzbuf 0 with
  | none => rfl
  | some dc =>
    dsimp only
    generalize dc.toInt - (pred s c).toInt = diff
    by_cases hover : 11 < cat diff
    · simp only [if_pos hover]
      rfl
    · simp only [if_neg hover, symbol_blind _ _ _ _ st irq s]
      cases symbol (dcTable c) (cat diff) (mag diff (cat diff)) (cat diff) s with
      | error e => rfl
      | ok t => cases c <;> rfl

theorem encBlockBody_blind (c : Component) : Blind (encBlockBody c) := by
  have hstep : ∀ s, encBlockBody c s = (dcCode c s).bind (acLoop (acTable c) 63 0) := fun s => by
    rw [encBlockBody]
    cases dcCode c s <;> rfl
  intro st irq s
  rw [hstep, hstep]
  exact (dcCode_blind c).bind (acLoop_blind _ 63 0) st irq s

/-! The transform path (41_fdct.md, 42_quant_zigzag.md). -/

theorem readAt_withControl {α : Type} (r : Region) (tab : Store α) (ks : List Nat) (st : Status) (irq : IrqBits)
    (s : State) : readAt r tab (withControl st irq s) ks = mapEnd (withControl st irq) id (readAt r tab s ks) := by
  induction ks with
  | nil => rfl
  | cons k ks ih =>
    rw [readAt, readAt, ih]
    cases tabGet tab k with
    | none => rfl
    | some v => cases readAt r tab s ks <;> rfl

theorem fdctBody_bind (b : Fin 6) (s : State) :
    fdctBody b s = (readAt .blk s.blk s (List.range' (64 * b.val) 64)).bind fun xs =>
      .ok { s with coef := tabOf 0 ((fdctBlock xs).map (BitVec.ofInt 16)) } := by
  rw [fdctBody]
  cases readAt .blk s.blk s (List.range' (64 * b.val) 64) <;> rfl

theorem fdctBody_blind (b : Fin 6) : Blind (fdctBody b) := fun st irq s => by
  rw [fdctBody_bind, fdctBody_bind, readAt_withControl]
  exact mapEnd_bind fun _ => rfl

theorem readDivisors_withControl (t : QSel) (n i : Nat) (st : Status) (irq : IrqBits) (s : State) :
    readDivisors t (withControl st irq s) i n = mapEnd (withControl st irq) id (readDivisors t s i n) := by
  induction n generalizing i with
  | zero => rfl
  | succ n ih =>
    simp only [readDivisors, withControl_qtab, ih]
    cases tabGet s.qtab (64 * qselNumber t + i) with
    | none => rfl
    | some q =>
      by_cases hq : q = 0#8
      · simp only [if_pos hq]
        rfl
      · simp only [if_neg hq]
        cases readDivisors t s (i + 1) n <;> rfl

theorem quantBody_bind (t : QSel) (s : State) :
    quantBody t s = (readDivisors t s 0 64).bind fun qs => (readAt .coef s.coef s (List.range 64)).bind fun xs =>
      .ok { s with qcoef := tabOf 0 (List.zipWith (fun x q => BitVec.ofInt 16 (quantOne x.toInt q)) xs qs) } := by
  rw [quantBody]
  cases readDivisors t s 0 64 with
  | error e => rfl
  | ok qs =>
    simp only [Except.bind]
    cases readAt .coef s.coef s (List.range 64) <;> rfl

theorem quantBody_blind (t : QSel) : Blind (quantBody t) := fun st irq s => by
  rw [quantBody_bind, quantBody_bind, readDivisors_withControl]
  refine mapEnd_bind fun qs => ?_
  rw [readAt_withControl]
  exact mapEnd_bind fun _ => rfl

theorem zigzagBody_bind (s : State) :
    zigzagBody s = (readAt .qcoef s.qcoef s zzOrder).bind fun xs => .ok { s with zzbuf := tabOf 0 xs } := by
  rw [zigzagBody]
  cases readAt .qcoef s.qcoef s zzOrder <;> rfl

theorem zigzagBody_blind : Blind zigzagBody := fun st irq s => by
  rw [zigzagBody_bind, zigzagBody_bind, readAt_withControl]
  exact mapEnd_bind fun _ => rfl

/-! The colourspace converter (40_csc.md). -/

theorem memRead_blind (a : Word) : BlindVal (memRead a) := fun st irq s => by
  rw [memRead, memRead, apply_ite (mapEnd _ _), apply_ite (mapEnd _ _)]
  rfl

theorem readBytes_blind (as : List Word) : BlindVal (readBytes as) := by
  induction as with
  | nil => exact fun _ _ _ => rfl
  | cons a as ih =>
    intro st irq s
    rw [readBytes, readBytes, memRead_blind]
    rcases memRead a s with e | ⟨b, t⟩
    · rfl
    · simp only [mapEnd, Prod.map, ih st irq t]
      rcases readBytes as t with e | ⟨bs, u⟩ <;> rfl

theorem readPixels_blind (ps : List (Nat × Nat)) : BlindVal (readPixels ps) := by
  induction ps with
  | nil => exact fun _ _ _ => rfl
  | cons p ps ih =>
    intro st irq s
    have hread := readBytes_blind (pixelAddrs s p.1 p.2) st irq s
    have haddr : pixelAddrs (withControl st irq s) p.1 p.2 = pixelAddrs s p.1 p.2 := rfl
    rw [readPixels, readPixels, haddr, hread]
    rcases readBytes (pixelAddrs s p.1 p.2) s with e | ⟨bs, t⟩
    · rfl
    · simp only [mapEnd, Prod.map, ih st irq t]
      rcases readPixels ps t with e | ⟨qs, u⟩ <;> rfl

theorem chooseFree_withControl (a : Word) (rest : List Word) (st : Status) (irq : IrqBits) (s : State) :
    chooseFree a rest (withControl st irq s) =
      ((chooseFree a rest s).1, withControl st irq (chooseFree a rest s).2) := by
  unfold chooseFree
  split <;> rfl

theorem loadMcuBody_blind : Blind loadMcuBody := fun st irq s => by
  have haddr : mcuAddrs (withControl st irq s) = mcuAddrs s := rfl
  have hbus : (fun a => busError (withControl st irq s) .read a) = fun a => busError s .read a := rfl
  have hread := readPixels_blind (mcuPositions s) st irq s
  have hpos : mcuPositions (withControl st irq s) = mcuPositions s := rfl
  rw [loadMcuBody, loadMcuBody, haddr, hbus, hpos, hread]
  cases (mcuAddrs s).filter (fun a => busError s .read a) with
  | nil => rcases readPixels (mcuPositions s) s with e | ⟨px, t⟩ <;> rfl
  | cons a rest => simp only [chooseFree_withControl, mapEnd, Halt.map]

/-! The sequencer (44_sequencer.md R231). -/

theorem codeBlock_blind (e : Fin 6 × QSel × Component) : Blind (codeBlock e) := fun st irq s => by
  rw [codeBlock_bind, codeBlock_bind]
  exact (fdctBody_blind _).bind ((quantBody_blind _).bind (zigzagBody_blind.bind (encBlockBody_blind _))) st irq s

theorem codeBlocks_blind (es : List (Fin 6 × QSel × Component)) : Blind (codeBlocks es) := by
  induction es with
  | nil => exact blind_ok
  | cons e es ih =>
    intro st irq s
    rw [codeBlocks_cons, codeBlocks_cons]
    exact (codeBlock_blind e).bind ih st irq s

theorem encMcuBody_blind : Blind encMcuBody := fun st irq s => by
  rw [encMcuBody_bind, encMcuBody_bind]
  exact loadMcuBody_blind.bind (codeBlocks_blind (blockOrder s.ctrl)) st irq s

end Sys2Proof.Machine

/-! PROOF. NOP, and the commands in sequence: ENC_MCU and ENC_SCAN end as the commands they stand for end when they are
issued one by one (44_sequencer.md R230 to R235, 60_exceptions.md R268, R284). -/

namespace Sys2Proof.Machine

open Sys2Proof.Safety

/-- Settles O22: NOP is `complete`, field by field as stated. -/
theorem nopCompletes : Obligations.NopCompletes := by
  unfold Obligations.NopCompletes
  exact fun _ => rfl

/-! A command after another one. -/

/-- Nothing races with the engine, and no fault is pending. -/
def Quiet (s : State) : Prop := s.racySrc = [] ∧ s.racyDst = [] ∧ s.status.fault = false

theorem Quiet.of_frame {s t : State} (hq : Quiet s) (h : EngineFrame s t) : Quiet t := by
  obtain ⟨heq, -⟩ := h
  rw [heq]
  exact hq

/-- What a completed command changes, a blind body does not see. -/
theorem complete_eq_withControl {s t : State} (hq : Quiet s) (h : EngineFrame s t) :
    complete t = withControl (complete s).status (complete s).irqStat t := by
  obtain ⟨hsrc, hdst, -⟩ := hq
  obtain ⟨heq, -⟩ := h
  rw [heq, complete, withControl, complete_status, complete_irqStat, hsrc, hdst]

/-- A blind body does the same after a completed command as before its completion. -/
theorem Blind.complete {f : State → Except Halt State} (hf : Blind f) {s : State} (hframe : Reaches EngineFrame s (f s))
    (hq : Quiet s) : f (Machine.complete s) = mapEnd Machine.complete Machine.complete (f s) := by
  rw [complete_eq_withControl hq (EngineFrame.refl s), hf]
  rcases hx : f s with (⟨code, info, t⟩ | ⟨r, k, t⟩) | t <;> rw [hx] at hframe <;>
    simp only [mapEnd, Halt.map, complete_eq_withControl hq hframe]

/-! A run of commands and a body that end alike. -/

/-- Commands in sequence ended in o as a body ended in x: the completed state; the fault code, ERRINFO, memory and
DSTPTR where it raised a fault; the entry where it met one with no value. -/
def Mirrors : Except Halt State → Host.Outcome State Fault Refusal → Prop
  | .ok u, o => o = .next (complete u)
  | .error (.raise code info v), o => ∃ t, o = .next t ∧ FaultsLike t (enterFault code info v)
  | .error (.unwritten r k _), o => o = .fault (.unwritten r k)

/-- What a fault frees is nothing that is compared. -/
theorem mirrors_finish (fp : Footprint) (x : Except Halt State) : Mirrors x (finish fp x) := by
  rcases x with (⟨code, info, v⟩ | ⟨r, k, v⟩) | u
  · obtain ⟨hfree, -⟩ := free_frame fp v
    refine ⟨_, rfl, ?_, rfl, ?_, ?_⟩ <;> rw [hfree] <;> rfl
  · rfl
  · rfl

theorem mirrors_mapEnd_complete {x : Except Halt State} {o : Host.Outcome State Fault Refusal}
    (h : Mirrors (mapEnd complete complete x) o) : Mirrors x o := by
  rcases x with (⟨code, info, v⟩ | ⟨r, k, v⟩) | u <;> exact h

/-- DSTPTR of the commands and of the body agree where the commands ended in a state. -/
theorem Mirrors.dstPtr {x : Except Halt State} {t : State} (h : Mirrors x (.next t)) :
    (reached x).dstPtr = t.dstPtr := by
  rcases x with (⟨code, info, v⟩ | ⟨r, k, v⟩) | u
  · obtain ⟨t', ht, -, -, -, hptr⟩ := h
    injection ht with ht
    exact ht ▸ hptr
  · cases h
  · injection h with h
    exact h ▸ rfl

theorem faultsLike_refl (t : State) : FaultsLike t t := ⟨rfl, rfl, rfl, rfl⟩

theorem faultsLike_of_common {t u v : State} (h1 : FaultsLike t v) (h2 : FaultsLike u v) : FaultsLike t u := by
  obtain ⟨hstatus, hinfo, hmem, hptr⟩ := h1
  obtain ⟨hstatus', hinfo', hmem', hptr'⟩ := h2
  exact ⟨hstatus'.symm.trans hstatus, hinfo'.symm.trans hinfo, hmem'.symm.trans hmem, hptr'.symm.trans hptr⟩

/-- A command whose body ends as commands in sequence ended: the same state where they completed, the same code,
ERRINFO, memory and DSTPTR where one faulted, the same entry where one stopped. -/
theorem Mirrors.finish {x : Except Halt State} {o : Host.Outcome State Fault Refusal} (h : Mirrors x o)
    (fp : Footprint) : (∀ t, o = .next t → (t.status.fault = false → finish fp x = .next t) ∧
      (t.status.fault = true → ∃ u, finish fp x = .next u ∧ FaultsLike t u)) ∧
    ∀ f, o = .fault f → finish fp x = .fault f := by
  have hx := mirrors_finish fp x
  rcases x with (⟨code, info, v⟩ | ⟨r, k, v⟩) | u
  · obtain ⟨t, rfl, hlike⟩ := h
    obtain ⟨u, hu, hlike'⟩ := hx
    refine ⟨fun t' ht => ?_, fun _ hf => (nomatch hf)⟩
    obtain rfl : t = t' := by injection ht
    refine ⟨fun hfault => ?_, fun _ => ⟨u, hu, faultsLike_of_common hlike hlike'⟩⟩
    obtain ⟨hstatus, -⟩ := hlike
    rw [← hstatus] at hfault
    cases hfault
  · obtain rfl : o = _ := h
    exact ⟨fun _ ht => (nomatch ht), fun _ hf => hx.trans hf⟩
  · obtain rfl : o = _ := h
    exact ⟨fun t ht => ⟨fun _ => hx.trans ht, fun _ => ⟨t, hx.trans ht, faultsLike_refl t⟩⟩,
      fun _ hf => (nomatch hf)⟩

/-- Commands go on after an outcome: they stop at a fault. -/
def thenRun (o : Host.Outcome State Fault Refusal) (r : State → Host.Outcome State Fault Refusal) :
    Host.Outcome State Fault Refusal :=
  match o with
  | .next t => if t.status.fault then .next t else r t
  | .fault f => .fault f
  | .refused q => .refused q

/-- Commands in sequence mirror bodies in sequence. -/
theorem Mirrors.seq {s : State} {x : Except Halt State} {o : Host.Outcome State Fault Refusal}
    {k : State → Except Halt State} {r : State → Host.Outcome State Fault Refusal} (h : Mirrors x o) (hq : Quiet s)
    (hframe : Reaches EngineFrame s x) (hk : ∀ t, EngineFrame s t → Mirrors (k t) (r (complete t))) :
    Mirrors (x.bind k) (thenRun o r) := by
  rcases x with (⟨code, info, v⟩ | ⟨r', j, v⟩) | u
  · obtain ⟨t, rfl, hs, hrest⟩ := h
    have hfault : t.status.fault = true := by rw [← hs]; rfl
    exact ⟨t, if_pos hfault, hs, hrest⟩
  · obtain rfl : o = _ := h
    exact rfl
  · obtain rfl : o = _ := h
    have hfault : ¬ (complete u).status.fault = true := by
      obtain ⟨-, -, hf⟩ := hq.of_frame hframe
      rw [complete_status, hf]
      decide
    rw [thenRun, if_neg hfault]
    exact hk u hframe

/-! The commands of a block (R231). -/

theorem runAll_cons (i : Instr) (is : List Instr) (s : State) :
    runAll (i :: is) s = thenRun (exec i s) (runAll is) := by
  rw [runAll]
  cases exec i s <;> rfl

/-- A command without a configuration check whose body is blind. -/
structure Plain (i : Instr) : Prop where
  check : ∀ s, checkOf i s = none
  blind : Blind (bodyOf i)
  frame : ∀ s, Reaches EngineFrame s (bodyOf i s)

theorem plain_fdct (b : Fin 6) : Plain (.fdct b) :=
  ⟨fun _ => rfl, fdctBody_blind b, fdctBody_reaches engineFrame_rel b⟩

theorem plain_quant (t : QSel) : Plain (.quant t) :=
  ⟨fun _ => rfl, quantBody_blind t, quantBody_reaches engineFrame_rel t⟩

theorem plain_zigzag : Plain .zigzag := ⟨fun _ => rfl, zigzagBody_blind, zigzagBody_reaches engineFrame_rel⟩

theorem plain_encBlock (c : Component) : Plain (.encBlock c) :=
  ⟨fun _ => rfl, encBlockBody_blind c, encBlockBody_reaches engineFrame_rel c⟩

theorem plain_flush : Plain .flush := ⟨fun _ => rfl, flushBody_blind, flushBody_reaches engineFrame_rel⟩

/-- A body that runs after a completed command ends as it would before. -/
theorem finish_complete_mirrors {f : State → Except Halt State} (hf : Blind f) {s : State}
    (hframe : Reaches EngineFrame s (f s)) (hq : Quiet s) (fp : Footprint) :
    Mirrors (f s) (finish fp (f (complete s))) := by
  rw [hf.complete hframe hq]
  exact mirrors_mapEnd_complete (mirrors_finish fp _)

theorem Plain.mirrors {i : Instr} (hi : Plain i) {s : State} (hq : Quiet s) :
    Mirrors (bodyOf i s) (exec i (complete s)) := by
  rw [exec_eq, hi.check]
  exact finish_complete_mirrors hi.blind (hi.frame s) hq _

/-- A plain command and then others mirror its body and then theirs. -/
theorem Plain.mirrors_cons {i : Instr} (hi : Plain i) {is : List Instr} {k : State → Except Halt State}
    (hk : ∀ t, Quiet t → Mirrors (k t) (runAll is (complete t))) {s : State} (hq : Quiet s) :
    Mirrors ((bodyOf i s).bind k) (runAll (i :: is) (complete s)) := by
  rw [runAll_cons]
  exact (hi.mirrors hq).seq hq (hi.frame s) fun t ht => hk t (hq.of_frame ht)

theorem codeBlocks_mirrors (es : List (Fin 6 × QSel × Component)) {s : State} (hq : Quiet s) :
    Mirrors (codeBlocks es s)
      (runAll (es.flatMap fun e => [.fdct e.1, .quant e.2.1, .zigzag, .encBlock e.2.2]) (complete s)) := by
  induction es generalizing s with
  | nil => rfl
  | cons e es ih =>
    simp only [codeBlocks_cons, codeBlock_bind, body_bind_assoc, List.flatMap_cons, List.cons_append, List.nil_append]
    exact (plain_fdct e.1).mirrors_cons (fun _ h1 => (plain_quant e.2.1).mirrors_cons (fun _ h2 =>
      plain_zigzag.mirrors_cons (fun _ h3 => (plain_encBlock e.2.2).mirrors_cons (fun _ => ih) h3) h2) h1) hq

/-- LOAD_MCU and the commands of the blocks end as the body of ENC_MCU. -/
theorem encMcuBody_mirrors {s : State} (hq : Quiet s) (hc : configCheck true s = none) :
    Mirrors (encMcuBody s) (runAll (mcuCommands s.ctrl) s) := by
  rw [encMcuBody_bind, mcuCommands, runAll_cons, exec_loadMcu hc]
  exact (mirrors_finish _ _).seq hq (loadMcuBody_reaches engineFrame_rel s) fun t ht =>
    codeBlocks_mirrors _ (hq.of_frame ht)

/-! The output stays below DSTLIM. -/

/-- DSTPTR did not move, or it is not past DSTLIM. -/
def WithinLimit (s t : State) : Prop :=
  t.dstLim = s.dstLim ∧ (t.dstPtr = s.dstPtr ∨ t.dstPtr.toNat ≤ s.dstLim.toNat)

theorem WithinLimit.trans {s t u : State} (h1 : WithinLimit s t) (h2 : WithinLimit t u) : WithinLimit s u := by
  obtain ⟨hlim1, hptr1⟩ := h1
  obtain ⟨hlim2, hptr2⟩ := h2
  rw [hlim1] at hlim2 hptr2
  refine ⟨hlim2, ?_⟩
  rcases hptr2 with heq | hle
  · rwa [heq]
  · exact .inr hle

theorem writeByte_withinLimit (b : Byte) (s : State) : Reaches WithinLimit s (writeByte b s) := by
  rcases writeByte_cases b s with ⟨-, h⟩ | ⟨-, -, h⟩ | ⟨hlt, -, v, n, h, hp, -⟩ <;> rw [h]
  · exact ⟨rfl, .inl rfl⟩
  · exact ⟨rfl, .inl rfl⟩
  · have hlt : s.dstPtr.toNat < s.dstLim.toNat := hlt
    exact ⟨rfl, .inr (by dsimp only; omega)⟩

theorem withinLimit_rel : EngineRel WithinLimit where
  refl _ := ⟨rfl, .inl rfl⟩
  trans _ _ _ := WithinLimit.trans
  draw _ _ := ⟨rfl, .inl rfl⟩
  put v n s := drain_reaches (R := WithinLimit) (fun _ _ _ => WithinLimit.trans) writeByte_withinLimit
    (fun _ _ _ => ⟨rfl, .inl rfl⟩) _ _ _ s
  count _ _ _ _ _ := ⟨rfl, .inl rfl⟩
  pred c _ _ := by cases c <;> exact ⟨rfl, .inl rfl⟩
  blk _ _ _ := ⟨rfl, .inl rfl⟩
  coef _ _ _ := ⟨rfl, .inl rfl⟩
  qcoef _ _ _ := ⟨rfl, .inl rfl⟩
  zzbuf _ _ _ := ⟨rfl, .inl rfl⟩
  pos _ _ := ⟨rfl, .inl rfl⟩

theorem reaches_reached {R : State → State → Prop} {s : State} {x : Except Halt State} (h : Reaches R s x) :
    R s (reached x) := by
  rcases x with (⟨code, info, t⟩ | ⟨r, k, t⟩) | t <;> exact h

/-- A body that moves DSTPTR forwards and not past DSTLIM writes no source byte, if the output region is disjoint
from the source (70_reset_and_hazards.md R303). -/
theorem overlaps_of_disjoint {s t : State} (hd : OutputDisjoint s) (hframe : EngineFrame s t) (hlim : WithinLimit s t) :
    overlaps s t = false := by
  obtain ⟨-, hle, -⟩ := hframe
  obtain ⟨-, hptr⟩ := hlim
  refine List.any_eq_false.2 fun j hj => ?_
  have hlt : (t.dstPtr - s.dstPtr).toNat = t.dstPtr.toNat - s.dstPtr.toNat := BitVec.toNat_sub_of_le hle
  have hj := hlt ▸ List.mem_range.1 hj
  have haddr : (s.dstPtr + BitVec.ofNat 32 j).toNat = s.dstPtr.toNat + j := by
    have := t.dstPtr.isLt
    rw [BitVec.toNat_add, BitVec.toNat_ofNat]
    omega
  rcases hptr with heq | hle'
  · rw [heq] at hj
    omega
  · rw [hd (s.dstPtr + BitVec.ofNat 32 j) (BitVec.le_def.2 (by omega)) (BitVec.lt_def.2 (by omega))]
    decide

theorem withOverlap_of_disjoint {body : State → Except Halt State}
    (hbody : ∀ {R : State → State → Prop}, EngineRel R → ∀ s, Reaches R s (body s)) {s : State}
    (hd : OutputDisjoint s) : withOverlap body s = body s :=
  withOverlap_of_not body s
    (overlaps_of_disjoint hd (reaches_reached (hbody engineFrame_rel s)) (reaches_reached (hbody withinLimit_rel s)))

theorem exec_encMcu_eq {s : State} (hc : configCheck true s = none) :
    exec .encMcu s = finish (footprint s.ctrl .encMcu) (withOverlap encMcuBody s) := by
  have hcheck : checkOf .encMcu s = none := hc
  rw [exec_eq, hcheck]
  rfl

theorem exec_encScan_eq {s : State} (hc : configCheck false s = none) :
    exec .encScan s = finish (footprint s.ctrl .encScan) (withOverlap encScanBody s) := by
  have hcheck : checkOf .encScan s = none := hc
  rw [exec_eq, hcheck]
  rfl

/-- Settles O55: without overlap ENC_MCU is its body, and the commands one by one end as it ends. -/
theorem encMcuIsItsCommands : Obligations.EncMcuIsItsCommands := by
  unfold Obligations.EncMcuIsItsCommands
  intro s hsrc hdst hfault
  cases hc : configCheck true s with
  | some sub =>
    have hload : runAll (mcuCommands s.ctrl) s = .next (enterFault .config sub s) := by
      have hcheck : checkOf .loadMcu s = some sub := hc
      rw [mcuCommands, runAll_cons, exec_eq, hcheck]
      rfl
    have hmcu : exec .encMcu s = .next (enterFault .config sub s) := by
      have hcheck : checkOf .encMcu s = some sub := hc
      rw [exec_eq, hcheck]
    rw [hload, hmcu]
    exact ⟨fun t ht _ => ⟨fun _ => ht, fun _ => ⟨t, ht, faultsLike_refl t⟩⟩, fun f _ hf => hf⟩
  | none =>
    have hmirror := encMcuBody_mirrors ⟨hsrc, hdst, hfault⟩ hc
    obtain ⟨hnext, hstop⟩ := hmirror.finish (footprint s.ctrl .encMcu)
    rw [exec_encMcu_eq hc]
    refine ⟨fun t ht hover => ?_, fun f hd hf => ?_⟩
    · rw [ht] at hmirror
      have hover' : overlaps s (reached (encMcuBody s)) = false := by
        rw [overlaps, hmirror.dstPtr]
        exact hover
      rw [withOverlap_of_not _ _ hover']
      exact hnext t ht
    · rw [withOverlap_of_disjoint encMcuBody_reaches hd]
      exact hstop f hf

/-! The MCUs of a scan (R232, R233). -/

theorem configCheck_of_frame {s t : State} (h : EngineFrame s t) : configCheck false t = configCheck false s := by
  obtain ⟨heq, -⟩ := h
  rw [heq]
  simp [configCheck]

theorem outputDisjoint_of_frame {s t : State} (h : EngineFrame s t) (hd : OutputDisjoint s) : OutputDisjoint t := by
  obtain ⟨heq, hle, -⟩ := h
  intro a hlo hhi
  have hsame : isSourceByte t a = isSourceByte s a := by rw [heq]; rfl
  have hlim : t.dstLim = s.dstLim := by rw [heq]
  rw [hsame]
  exact hd a (le_trans hle hlo) (hlim ▸ hhi)

/-- MCUPOS at column and row p. -/
def mcuPosOf (p : Nat × Nat) : McuPos := ⟨BitVec.ofNat 16 p.1, BitVec.ofNat 16 p.2⟩

/-- The state with MCUPOS at p, as before an ENC_MCU of a scan. -/
def atPos (p : Nat × Nat) (s : State) : State := { s with mcuPos := mcuPosOf p }

/-- A position of the MCU grid. -/
def InGrid (s : State) (p : Nat × Nat) : Prop := p.1 < gridX s ∧ p.2 < gridY s

theorem inGrid_of_frame {s t : State} (h : EngineFrame s t) {p : Nat × Nat} (hp : InGrid s p) : InGrid t p := by
  obtain ⟨heq, -⟩ := h
  rw [heq]
  exact hp

theorem engineFrame_atPos (p : Nat × Nat) (s : State) : EngineFrame s (atPos p s) := engineFrame_rel.pos _ s

theorem configCheck_position {s : State} (hc : configCheck false s = none) (hx : s.mcuPos.mx.toNat < gridX s)
    (hy : s.mcuPos.my.toNat < gridY s) : configCheck true s = none := by
  have hpos : ¬ (gridX s ≤ s.mcuPos.mx.toNat ∨ gridY s ≤ s.mcuPos.my.toNat) := by omega
  simpa only [configCheck, hpos, and_false, false_and, Bool.false_eq_true] using hc

/-- A position of the grid is legal (60_exceptions.md R262). -/
theorem configCheck_atPos {s : State} {p : Nat × Nat} (hc : configCheck false s = none) (hp : InGrid s p) :
    configCheck true (atPos p s) = none := by
  obtain ⟨hx, hy⟩ := hp
  refine configCheck_position ((configCheck_of_frame (engineFrame_atPos p s)).trans hc) ?_ ?_
  · exact (Nat.mod_le _ _).trans_lt hx
  · exact (Nat.mod_le _ _).trans_lt hy

theorem runMcus_cons (p : Nat × Nat) (ps : List (Nat × Nat)) (s : State) :
    runMcus (p :: ps) s = thenRun (exec .encMcu (atPos p s)) (runMcus ps) := by
  rw [runMcus, atPos, mcuPosOf]
  cases exec .encMcu { s with mcuPos := ⟨BitVec.ofNat 16 p.1, BitVec.ofNat 16 p.2⟩ } <;> rfl

/-- ENC_MCU at the positions of a scan, one by one, ends as the MCUs of ENC_SCAN. -/
theorem codeMcus_mirrors (ps : List (Nat × Nat)) {s : State} (hq : Quiet s) (hc : configCheck false s = none)
    (hd : OutputDisjoint s) (hps : ∀ p ∈ ps, InGrid s p) : Mirrors (codeMcus ps s) (runMcus ps (complete s)) := by
  induction ps generalizing s with
  | nil => rfl
  | cons p ps ih =>
    obtain ⟨hp, hps⟩ := List.forall_mem_cons.1 hps
    have hstart := engineFrame_atPos p s
    have hmcu : Mirrors (encMcuBody (atPos p s)) (exec .encMcu (complete (atPos p s))) := by
      have hc' : configCheck true (complete (atPos p s)) = none := configCheck_atPos hc hp
      have hd' : OutputDisjoint (complete (atPos p s)) := hd
      rw [exec_encMcu_eq hc', withOverlap_of_disjoint encMcuBody_reaches hd']
      exact finish_complete_mirrors encMcuBody_blind (encMcuBody_reaches engineFrame_rel _) (hq.of_frame hstart) _
    rw [codeMcus_cons, runMcus_cons]
    refine hmcu.seq (hq.of_frame hstart) (encMcuBody_reaches engineFrame_rel _) fun t ht => ?_
    have hframe := EngineFrame.trans hstart ht
    exact ih (hq.of_frame hframe) (by rw [configCheck_of_frame hframe, hc]) (outputDisjoint_of_frame hframe hd)
      fun p hp => inGrid_of_frame hframe (hps p hp)

theorem frame_ne_zero {s : State} {b : Bool} (hc : configCheck b s = none) : s.frame.w ≠ 0#16 ∧ s.frame.h ≠ 0#16 :=
  not_or.1 fun hzero => by
    rw [configCheck, if_pos hzero] at hc
    cases hc

theorem ceilDiv_mcuSize_pos {n : Half} (hn : n ≠ 0#16) (c : Ctrl) : 0 < ceilDiv n.toNat (mcuSize c) := by
  have hpos : n.toNat ≠ 0 := fun h0 => hn (BitVec.eq_of_toNat_eq h0)
  unfold ceilDiv mcuSize
  split <;> omega

/-- Row by row and position by position is the same order. -/
theorem rasterOrder_eq {s : State} (hc : configCheck false s = none) : rasterOrder s = scanOrder s := by
  obtain ⟨hw, -⟩ := frame_ne_zero hc
  rw [scanOrder, flatMap_rows (fun x y => (x, y)) (show 0 < gridX s from ceilDiv_mcuSize_pos hw s.ctrl), Nat.mul_comm]
  rfl

theorem scanOrder_inGrid {s : State} : ∀ p ∈ scanOrder s, InGrid s p := by
  intro p hp
  obtain ⟨y, hy, hx⟩ := List.mem_flatMap.1 hp
  obtain ⟨x, hx', rfl⟩ := List.mem_map.1 hx
  exact ⟨List.mem_range.1 hx', List.mem_range.1 hy⟩

theorem runScan_eq (s : State) :
    runScan s = thenRun (runMcus (rasterOrder s) (complete (dcResetBody s)))
      fun u => if s.ctrl.stats then .next u else exec .flush u := by
  have hdc : exec .dcReset s = .next (complete (dcResetBody s)) := rfl
  rw [runScan, hdc]
  simp only
  rcases runMcus (rasterOrder s) (complete (dcResetBody s)) with u | f | q
  · cases hu : u.status.fault <;> simp [thenRun, hu]
  · rfl
  · rfl

/-- The commands of a scan, one by one, end as the body of ENC_SCAN. -/
theorem encScanBody_mirrors {s : State} (hq : Quiet s) (hc : configCheck false s = none) (hd : OutputDisjoint s) :
    Mirrors (encScanBody s) (runScan s) := by
  have hstart : EngineFrame s (dcResetBody s) := dcResetBody_rel engineFrame_rel s
  rw [encScanBody_bind, runScan_eq, rasterOrder_eq hc]
  refine (codeMcus_mirrors _ (hq.of_frame hstart) hc hd scanOrder_inGrid).seq (hq.of_frame hstart)
    (codeMcus_reaches engineFrame_rel _ _) fun t ht => ?_
  cases s.ctrl.stats
  · exact plain_flush.mirrors (hq.of_frame (EngineFrame.trans hstart ht))
  · rfl

/-- Settles O56: without overlap ENC_SCAN is its body, and the commands one by one end as it ends. -/
theorem encScanIsItsCommands : Obligations.EncScanIsItsCommands := by
  unfold Obligations.EncScanIsItsCommands
  intro s hsrc hdst hfault hc hd
  rw [exec_encScan_eq hc, withOverlap_of_disjoint encScanBody_reaches hd]
  exact (encScanBody_mirrors ⟨hsrc, hdst, hfault⟩ hc hd).finish _

end Sys2Proof.Machine

/-! PROOF. ENC_MCU and ENC_SCAN complete when configuration, source, tables and output space are ready
(44_sequencer.md R231 to R235, 43_entropy.md R211, R223). -/

namespace Sys2Proof.Machine

open Sys2Proof.Safety

/-! PACK after a symbol (10_state.md R33). -/

/-- Whatever PACK held before, PutBits leaves no bit at or above CNT. -/
theorem putBits_packOk {v n : Nat} {s t : State} (h : putBits v n s = .ok t) : PackOk t := by
  have hrem : (s.pack.cnt.toNat + n) % 8 < 8 := Nat.mod_lt _ (by omega)
  obtain ⟨-, -, hpack⟩ := (drain_outputs _ _ _ hrem s).ok h
  exact packOk_packOf hrem hpack

theorem packOk_coding : CodingSpec PackOk (fun _ => True) where
  put _ _ _ _ := sat_of_ok fun _ => putBits_packOk
  count _ _ hs := hs
  missing _ _ := True.intro
  unwritten _ _ _ := True.intro

theorem symbol_packOk {t sym v n : Nat} {s u : State} (hs : s.ctrl.stats = false) (hc : HasCode s t sym)
    (h : symbol t sym v n s = .ok u) : PackOk u := by
  obtain ⟨e, he, hlo, hhi⟩ := hc
  rw [symbol_emit hs, emitSymbol_bind he hlo hhi] at h
  cases hx : putBits (e.code.toNat % 2 ^ e.len.toNat) e.len.toNat s with
  | error e' => rw [hx] at h; cases h
  | ok w => rw [hx] at h; exact putBits_packOk h

theorem codeHead_packOk {c : Component} {s u : State} {ys : List (Nat × Nat × Nat × Nat)} (hs : s.ctrl.stats = false)
    (hc : HasCode s (dcTable c) (cat (dcDiff c s))) (h : codeHead c ys s = .ok u) : PackOk u := by
  rw [codeHead, codeSyms_singleton] at h
  cases hx : symbol (dcSym c s).1 (dcSym c s).2.1 (dcSym c s).2.2.1 (dcSym c s).2.2.2 s with
  | error e => rw [hx] at h; cases h
  | ok t =>
    rw [hx] at h
    exact (codeSyms_sat packOk_coding ys (packOk_setPred (symbol_packOk hs hc hx))).ok h

/-! Coding n blocks. -/

theorem predInRange_congr {s t : State} (h0 : t.dcPred0 = s.dcPred0) (h1 : t.dcPred1 = s.dcPred1)
    (h2 : t.dcPred2 = s.dcPred2) (c : Component) : PredInRange t c ↔ PredInRange s c := by
  have hpred : pred t c = pred s c := by cases c <;> assumption
  rw [PredInRange, hpred, PredInRange]

/-- Only what coding writes differs: the predictors, the stream, the counters and the buffers of the datapath. -/
def OnlyBlocks (s t : State) : Prop :=
  t = { s with
    dcPred0 := t.dcPred0, dcPred1 := t.dcPred1, dcPred2 := t.dcPred2, pack := t.pack, dstPtr := t.dstPtr
    freq := t.freq, blk := t.blk, coef := t.coef, qcoef := t.qcoef, zzbuf := t.zzbuf, mem := t.mem, draws := t.draws }

theorem OnlyBlocks.trans {s t u : State} (h1 : OnlyBlocks s t) (h2 : OnlyBlocks t u) : OnlyBlocks s u := by
  rw [OnlyBlocks, h2, h1]

theorem OnlyCoding.onlyBlocks {c : Component} {p : Half} {s t : State} (h : OnlyCoding (Machine.setPred c p s) t) :
    OnlyBlocks s t := by
  rw [h]
  cases c <;> rfl

/-- From s to t n blocks were coded: only what coding writes changed, by at most 512 bytes a block; a counting pass
kept the stream, an emitting pass the counters; the predictors stay in the range of the datapath, and PACK is in its
form after the first block. -/
structure Coded (n : Nat) (s t : State) : Prop where
  only : OnlyBlocks s t
  forward : s.dstPtr.toNat ≤ t.dstPtr.toNat
  bytes : t.dstPtr.toNat ≤ s.dstPtr.toNat + 512 * n
  counting : s.ctrl.stats = true → t.mem = s.mem ∧ t.pack = s.pack ∧ t.dstPtr = s.dstPtr
  emitting : s.ctrl.stats = false → t.freq = s.freq
  counters : ∀ k, (tabGet t.freq k).isSome = (tabGet s.freq k).isSome
  preds : ∀ c, PredInRange s c → PredInRange t c
  packOk : s.ctrl.stats = false → n ≠ 0 ∨ PackOk s → PackOk t

theorem Coded.ctrl {n : Nat} {s t : State} (h : Coded n s t) : t.ctrl = s.ctrl := by rw [h.only]

theorem Coded.refl (s : State) : Coded 0 s s :=
  ⟨rfl, le_rfl, le_rfl, fun _ => ⟨rfl, rfl, rfl⟩, fun _ => rfl, fun _ => rfl, fun _ => id,
    fun _ h => h.resolve_left fun h0 => h0 rfl⟩

theorem Coded.trans {m n : Nat} {s t u : State} (h1 : Coded m s t) (h2 : Coded n t u) : Coded (m + n) s u where
  only := h1.only.trans h2.only
  forward := h1.forward.trans h2.forward
  bytes := by have := h1.bytes; have := h2.bytes; omega
  counting hs := by
    obtain ⟨hmem, hpack, hptr⟩ := h1.counting hs
    obtain ⟨hmem', hpack', hptr'⟩ := h2.counting (h1.ctrl ▸ hs)
    exact ⟨hmem'.trans hmem, hpack'.trans hpack, hptr'.trans hptr⟩
  emitting hs := (h2.emitting (h1.ctrl ▸ hs)).trans (h1.emitting hs)
  counters k := (h2.counters k).trans (h1.counters k)
  preds c hc := h2.preds c (h1.preds c hc)
  packOk hs h := by
    refine h2.packOk (h1.ctrl ▸ hs) ?_
    by_cases hn : n = 0
    · exact .inr (h1.packOk hs (h.imp_left fun hmn => by omega))
    · exact .inl hn

/-- MCUPOS is no part of coding. -/
theorem Coded.setPos {n : Nat} {s t : State} (h : Coded n s t) (p : McuPos) :
    Coded n { s with mcuPos := p } { t with mcuPos := p } where
  only := by rw [h.only]; rfl
  forward := h.forward
  bytes := h.bytes
  counting := h.counting
  emitting := h.emitting
  counters := h.counters
  preds c hc := (predInRange_congr rfl rfl rfl c).2 (h.preds c ((predInRange_congr rfl rfl rfl c).1 hc))
  packOk := h.packOk

/-- What a block of the mode needs but for its samples, and room for bytes in an emitting pass. -/
structure Ready (bytes : Nat) (s : State) : Prop where
  tables : TablesReady s
  preds : ∀ e ∈ blockOrder s.ctrl, PredInRange s e.2.2
  room : s.ctrl.stats = false → RoomFor bytes s

theorem roomFor_mono {m n : Nat} {s : State} (h : RoomFor n s) (hm : m ≤ n) : RoomFor m s := by
  obtain ⟨hlim, hbus⟩ := h
  exact ⟨by omega, fun a hlo hhi => hbus a hlo (by omega)⟩

theorem Ready.mono {m n : Nat} {s : State} (h : Ready n s) (hm : m ≤ n) : Ready m s :=
  ⟨h.tables, h.preds, fun hs => roomFor_mono (h.room hs) hm⟩

theorem Coded.roomFor {k n : Nat} {s t : State} (h : Coded n s t) (hroom : RoomFor (512 * n + k) s) : RoomFor k t := by
  obtain ⟨hlim, hbus⟩ := hroom
  have hforward := h.forward
  have hbytes := h.bytes
  have hlim' : t.dstLim = s.dstLim := by rw [h.only]
  have hbus' : t.busErr = s.busErr := by rw [h.only]
  refine ⟨by rw [hlim']; omega, fun a hlo hhi => ?_⟩
  rw [busError, hbus']
  exact hbus a (by omega) (by omega)

/-- Coding leaves ready what it does not use up. -/
theorem Ready.coded {k n : Nat} {s t : State} (h : Ready (512 * n + k) s) (hc : Coded n s t) : Ready k t where
  tables e he := by
    rw [hc.ctrl] at he ⊢
    obtain ⟨hdiv, hcount, hcode⟩ := h.tables e he
    have hqtab : t.qtab = s.qtab := by rw [hc.only]
    have hhuff : t.huff = s.huff := by rw [hc.only]
    refine ⟨?_, fun hs => ?_, fun hs => ?_⟩
    · rwa [DivisorsReady, hqtab]
    · obtain ⟨hdc, hac⟩ := hcount hs
      exact ⟨fun i hi => (hc.counters _).trans (hdc i hi), fun i hi => (hc.counters _).trans (hac i hi)⟩
    · simpa only [CodesReady, HasCode, hhuff] using hcode hs
  preds e he := hc.preds _ (h.preds e (hc.ctrl ▸ he))
  room hs := hc.roomFor (h.room (hc.ctrl ▸ hs))

/-! The transform path (41_fdct.md, 42_quant_zigzag.md). -/

theorem fdctBody_completes {b : Fin 6} {s : State} (hblk : Written s.blk (64 * b.val) 64) :
    ∃ cf, fdctBody b s = .ok { s with coef := cf } ∧ BufferInRange cf := by
  obtain ⟨xs, hxs, -⟩ := readAt_of_written .blk s.blk s (List.range' (64 * b.val) 64) fun k hk => by
    obtain ⟨hlo, hhi⟩ := List.mem_range'_1.1 hk
    have hsome := hblk (k - 64 * b.val) (by omega)
    rwa [Nat.add_sub_cancel' hlo] at hsome
  rw [fdctBody_bind, hxs]
  exact ⟨_, rfl, bufferInRange_fdct ((readAt_length _ _ _ _ _ hxs).trans (by simp))⟩

theorem BufferInRange.isSome {st : Store Half} (h : BufferInRange st) {i : Nat} (hi : i < 64) :
    (tabGet st i).isSome = true := by
  obtain ⟨x, hx, -⟩ := h i hi
  rw [hx]
  rfl

theorem quantBody_completes {q : QSel} {s : State} (hdiv : DivisorsReady q s) (hcoef : BufferInRange s.coef) :
    ∃ qc, quantBody q s = .ok { s with qcoef := qc } ∧ BufferInRange qc := by
  have hdivs := readDivisors_ready hdiv
  obtain ⟨xs, hxs, hxs'⟩ := readAt_of_written .coef s.coef s (List.range 64) fun k hk =>
    hcoef.isSome (List.mem_range.1 hk)
  rw [quantBody_bind, hdivs]
  simp only [Except.bind, hxs]
  exact ⟨_, rfl, bufferInRange_quant hcoef hxs' (by simp) (readDivisors_pos hdivs)⟩

theorem zigzagBody_completes {s : State} (hqcoef : BufferInRange s.qcoef) :
    ∃ zz, zigzagBody s = .ok { s with zzbuf := zz } ∧ BufferInRange zz := by
  have hlt : ∀ k ∈ zzOrder, k < 64 := by decide
  obtain ⟨xs, hxs, hxs'⟩ := readAt_of_written .qcoef s.qcoef s zzOrder fun k hk => hqcoef.isSome (hlt k hk)
  rw [zigzagBody_bind, hxs]
  exact ⟨_, rfl, bufferInRange_zigzag hqcoef hxs'⟩

/-! One block (R231). -/

/-- The new predictor is a quantized DC of the datapath. -/
theorem predInRange_of_onlyCoding {c : Component} {s t : State} (hz : BufferInRange s.zzbuf)
    (h : OnlyCoding (setPred c (zzDc s) s) t) {d : Component} (hd : PredInRange s d) : PredInRange t d := by
  have hpred : pred t d = pred (setPred c (zzDc s) s) d := by rw [h]; cases d <;> rfl
  rw [PredInRange, hpred]
  by_cases hdc : d = c
  · obtain ⟨x, hx, hr⟩ := hz 0 (by omega)
    rw [hdc, pred_setPred, zzDc, hx]
    exact hr
  · rw [pred_setPred_ne _ _ _ _ hdc]
    exact hd

/-- ENC_BLOCK on values in range completes. -/
theorem encBlockBody_completes {c : Component} {s : State} (hz : BufferInRange s.zzbuf) (hp : PredInRange s c)
    (hcount : s.ctrl.stats = true → CountersReady c s) (hcode : s.ctrl.stats = false → CodesReady c s)
    (hroom : s.ctrl.stats = false → RoomFor 512 s) :
    ∃ t, encBlockBody c s = .ok t ∧ Coded 1 s t ∧ t.blk = s.blk := by
  have hcod := codable_of_inRange hz hp
  obtain ⟨-, hd⟩ := codable_dc hcod
  have hac := codable_acReady hcod le_rfl
  cases hs : s.ctrl.stats with
  | true =>
    obtain ⟨f, hf, hcounted⟩ := codeHead_counts hs (countersReady_block (hcount hs) hd hac)
    have honly := codeHead_onlyCoding hf
    refine ⟨_, (encBlockBody_codable hcod).trans hf, ⟨honly.onlyBlocks, ?_, ?_, fun _ => ?_, ?_,
      hcounted.isSome, fun _ => predInRange_of_onlyCoding hz honly, ?_⟩, ?_⟩
    · simp
    · simp
    · simp
    · rw [hs]; simp
    · rw [hs]; simp
    · simp
  | false =>
    have hcodes := codesReady_block (hcode hs) hd hac
    have hlen := streamBytes_block_length_le (ys := blockSyms c s) le_rfl hd hac (List.prefix_refl _) hcodes
    obtain ⟨t, ht, hw, happ⟩ := (encBlockBody_appends hs hcod (hcode hs)).of_room (hroom hs) hlen
    have hhead : codeHead c (acSymsOf c s 63) s = .ok t := (encBlockBody_codable hcod).symm.trans ht
    have honly := codeHead_onlyCoding hhead
    have hfreq : t.freq = s.freq := by rw [happ.only, setPred_freq]
    have hptr := hw.ptr
    refine ⟨t, ht, ⟨honly.onlyBlocks, by omega, by omega, ?_, fun _ => hfreq, ?_,
      fun _ => predInRange_of_onlyCoding hz honly, ?_⟩, ?_⟩
    · rw [hs]; simp
    · rw [hfreq]; simp
    · exact fun _ _ => codeHead_packOk hs (hcodes _ List.mem_cons_self) hhead
    · rw [honly, setPred_blk]

/-- A block whose samples are written, its tables ready, completes. -/
theorem codeBlock_completes {e : Fin 6 × QSel × Component} {s : State} (hs : Ready 512 s)
    (he : e ∈ blockOrder s.ctrl) (hblk : Written s.blk (64 * e.1.val) 64) :
    ∃ t, codeBlock e s = .ok t ∧ Coded 1 s t ∧ t.blk = s.blk := by
  obtain ⟨hdiv, hcount, hcode⟩ := hs.tables e he
  obtain ⟨cf, hfdct, hcf⟩ := fdctBody_completes hblk
  obtain ⟨qc, hquant, hqc⟩ := quantBody_completes (s := { s with coef := cf }) hdiv hcf
  obtain ⟨zz, hzigzag, hzz⟩ := zigzagBody_completes (s := { s with coef := cf, qcoef := qc }) hqc
  have hpreds : ∀ c, PredInRange { s with coef := cf, qcoef := qc, zzbuf := zz } c ↔ PredInRange s c :=
    predInRange_congr rfl rfl rfl
  obtain ⟨t, ht, hcoded, hkept⟩ := encBlockBody_completes hzz ((hpreds _).2 (hs.preds e he)) hcount hcode hs.room
  refine ⟨t, ?_, ⟨?_, hcoded.forward, hcoded.bytes, hcoded.counting, hcoded.emitting, hcoded.counters,
    fun c hc => hcoded.preds c ((hpreds c).2 hc), hcoded.packOk⟩, hkept⟩
  · rw [codeBlock_bind, hfdct]
    simp only [Except.bind, hquant, hzigzag, ht]
  · rw [hcoded.only]; rfl

/-- Blocks of the mode whose samples are written complete in turn. -/
theorem codeBlocks_completes {es : List (Fin 6 × QSel × Component)} {s : State}
    (hs : Ready (512 * es.length) s) (hes : ∀ e ∈ es, e ∈ blockOrder s.ctrl ∧ Written s.blk (64 * e.1.val) 64) :
    ∃ t, codeBlocks es s = .ok t ∧ Coded es.length s t := by
  induction es generalizing s with
  | nil => exact ⟨s, rfl, Coded.refl s⟩
  | cons e es ih =>
    obtain ⟨⟨he, hblk⟩, hes⟩ := List.forall_mem_cons.1 hes
    have hs' : Ready (512 * 1 + 512 * es.length) s := hs.mono (by rw [List.length_cons]; omega)
    obtain ⟨t, ht, hone, hkept⟩ := codeBlock_completes (hs'.mono (Nat.le_add_right _ _)) he hblk
    obtain ⟨u, hu, hrest⟩ := ih (hs'.coded hone) fun e he => by
      rw [hone.ctrl, hkept]
      exact hes e he
    refine ⟨u, ?_, ?_⟩
    · rw [codeBlocks_cons, ht]
      exact hu
    · rw [List.length_cons, Nat.add_comm]
      exact hone.trans hrest

/-! One MCU (R231). -/

/-- LOAD_MCU with its reads answered codes no block and leaves the samples of every block of the mode. -/
theorem loadMcuBody_completes {s : State} (ha : ReadsAnswered s) :
    ∃ t, loadMcuBody s = .ok t ∧ Coded 0 s t ∧ ∀ e ∈ blockOrder s.ctrl, Written t.blk (64 * e.1.val) 64 := by
  rcases loadMcuBody_cases s with ⟨a, ha', -, hbus, -⟩ | ⟨-, px, n, hbody, -, -⟩
  · rw [ha a ha'] at hbus
    cases hbus
  · refine ⟨_, hbody, ⟨rfl, le_rfl, le_rfl, fun _ => ⟨rfl, rfl, rfl⟩, fun _ => rfl, fun _ => rfl, ?_, ?_⟩, ?_⟩
    · exact fun c => (predInRange_congr rfl rfl rfl c).2
    · exact fun _ h => h.resolve_left fun h0 => h0 rfl
    · intro e he i hi
      have hget := (tabGet_storeMcu s.ctrl px s.blk e.1.val hi).trans (if_pos (List.mem_map_of_mem he))
      exact (congrArg Option.isSome hget).trans (by simp [mcuBlock_length, hi])

/-- ENC_MCU's body completes where it has what it needs. -/
theorem encMcuBody_completes {s : State} (ha : ReadsAnswered s) (hs : Ready (512 * (blockOrder s.ctrl).length) s) :
    ∃ t, encMcuBody s = .ok t ∧ Coded (blockOrder s.ctrl).length s t := by
  obtain ⟨t, ht, hload, hblk⟩ := loadMcuBody_completes ha
  have hs' : Ready (512 * (blockOrder s.ctrl).length) t := Ready.coded (n := 0) (hs.mono (by omega)) hload
  obtain ⟨u, hu, hcoded⟩ := codeBlocks_completes hs' fun e he => ⟨by rwa [hload.ctrl], hblk e he⟩
  refine ⟨u, ?_, ?_⟩
  · rw [encMcuBody_bind, ht]
    exact hu
  · rw [← Nat.zero_add (blockOrder s.ctrl).length]
    exact hload.trans hcoded

theorem blockOrder_length (c : Ctrl) : 0 < (blockOrder c).length ∧ (blockOrder c).length ≤ 6 := by
  unfold blockOrder
  split
  · decide
  · split <;> decide

/-- The ranges that race and the free values taken are no part of what coding needs. -/
theorem Ready.racing {k : Nat} {s : State} (h : Ready k s) (n : Nat) (rs : List AddrRange) :
    Ready k (advance n { s with racySrc := rs }) where
  tables := h.tables
  preds e he := (predInRange_congr (s := s) rfl rfl rfl _).2 (h.preds e he)
  room := h.room

/-- Settles O57: the body completes whichever source bytes read as any value. -/
theorem encMcuCompletes : Obligations.EncMcuCompletes := by
  unfold Obligations.EncMcuCompletes
  intro s hc ha htables hpreds hroom
  obtain ⟨n, rs, hbody⟩ := withOverlap_cases encMcuBody s
  obtain ⟨-, hlen⟩ := blockOrder_length s.ctrl
  have hready : Ready (512 * (blockOrder s.ctrl).length) s :=
    Ready.mono (n := 3072) ⟨htables, hpreds, hroom⟩ (by omega)
  obtain ⟨t, ht, hcoded⟩ := encMcuBody_completes (s := advance n { s with racySrc := rs }) ha (hready.racing n rs)
  have hbytes := hcoded.bytes
  have hstart := (hready.racing n rs).preds
  refine ⟨complete t, by rw [exec_encMcu_eq hc, hbody, ht]; rfl, ?_, ?_, ?_, fun e he => ?_, ?_, hcoded.counting,
    hcoded.emitting⟩
  · rw [hcoded.only]; rfl
  · rw [hcoded.only]; rfl
  · rw [hcoded.only]; rfl
  · exact (predInRange_congr (s := t) rfl rfl rfl _).2 (hcoded.preds _ (hstart e he))
  · refine hbytes.trans (Nat.add_le_add_left ?_ _)
    exact Nat.mul_le_mul_left 512 hlen

/-! The MCUs of a scan (R232, R233). -/

/-- MCUPOS after an ENC_MCU at each listed position. -/
def lastPos (p : McuPos) (ps : List (Nat × Nat)) : McuPos := ps.foldl (fun _ q => mcuPosOf q) p

theorem Coded.isSourceByte {n : Nat} {s t : State} (h : Coded n s t) (a : Word) :
    isSourceByte t a = Machine.isSourceByte s a := by
  rw [h.only]
  rfl

theorem Coded.frameAnswered {n : Nat} {s t : State} (h : Coded n s t) (ha : FrameAnswered s) : FrameAnswered t := by
  intro a hsrc
  have hbus : t.busErr = s.busErr := by rw [h.only]
  rw [busError, hbus]
  exact ha a (h.isSourceByte a ▸ hsrc)

/-- LOAD_MCU reads source bytes of the frame alone. -/
theorem readsAnswered_of_frame {s : State} (hw : s.frame.w ≠ 0#16) (hh : s.frame.h ≠ 0#16) (ha : FrameAnswered s) :
    ReadsAnswered s := fun a hmem => ha a (sourceReadsInsideImage s hw hh a hmem)

theorem Ready.atPos {k : Nat} {s : State} (h : Ready k s) (p : Nat × Nat) : Ready k (atPos p s) where
  tables := h.tables
  preds e he := (predInRange_congr (s := s) rfl rfl rfl _).2 (h.preds e he)
  room := h.room

/-- The MCUs at the listed positions complete in turn; MCUPOS ends at the last. -/
theorem codeMcus_completes {ps : List (Nat × Nat)} {s : State} (hw : s.frame.w ≠ 0#16)
    (hh : s.frame.h ≠ 0#16) (ha : FrameAnswered s) (hs : Ready (512 * (ps.length * (blockOrder s.ctrl).length)) s) :
    ∃ t, codeMcus ps s = .ok t ∧
      Coded (ps.length * (blockOrder s.ctrl).length) { s with mcuPos := lastPos s.mcuPos ps } t := by
  induction ps generalizing s with
  | nil => exact ⟨s, rfl, by rw [List.length_nil, Nat.zero_mul]; exact Coded.refl s⟩
  | cons p ps ih =>
    have hsplit : (p :: ps).length * (blockOrder s.ctrl).length =
        (blockOrder s.ctrl).length + ps.length * (blockOrder s.ctrl).length := by
      rw [List.length_cons, Nat.succ_mul, Nat.add_comm]
    have hs' : Ready (512 * (blockOrder s.ctrl).length + 512 * (ps.length * (blockOrder s.ctrl).length)) (atPos p s) :=
      (hs.mono (by rw [hsplit]; omega)).atPos p
    obtain ⟨t, ht, hone⟩ := encMcuBody_completes (readsAnswered_of_frame (s := atPos p s) hw hh ha)
      (hs'.mono (Nat.le_add_right _ _))
    have hframe : t.frame = s.frame := by rw [hone.only]; rfl
    have hpos : t.mcuPos = mcuPosOf p := by rw [hone.only]; rfl
    have hlen : (blockOrder t.ctrl).length = (blockOrder s.ctrl).length := by rw [hone.ctrl]; rfl
    obtain ⟨u, hu, hrest⟩ := ih (s := t) (by rwa [hframe]) (by rwa [hframe]) (hone.frameAnswered ha)
      (by rw [hlen]; exact hs'.coded hone)
    rw [hlen, hpos] at hrest
    refine ⟨u, ?_, ?_⟩
    · rw [codeMcus_cons]
      exact (congrArg (·.bind (codeMcus ps)) ht).trans hu
    · rw [hsplit]
      exact (hone.setPos (lastPos (mcuPosOf p) ps)).trans hrest

/-- The last position of the scan is the last column of the last row. -/
theorem lastPos_scanOrder {s : State} (hc : configCheck false s = none) (p : McuPos) :
    lastPos p (scanOrder s) = mcuPosOf (gridX s - 1, gridY s - 1) := by
  obtain ⟨hw, hh⟩ := frame_ne_zero hc
  obtain ⟨x, hx⟩ := Nat.exists_eq_add_one.2 (show 0 < gridX s from ceilDiv_mcuSize_pos hw s.ctrl)
  obtain ⟨y, hy⟩ := Nat.exists_eq_add_one.2 (show 0 < gridY s from ceilDiv_mcuSize_pos hh s.ctrl)
  simp [lastPos, scanOrder, hx, hy, List.range_succ]

theorem scanOrder_length (s : State) : (scanOrder s).length = gridX s * gridY s := by
  simp [scanOrder, Nat.mul_comm]

/-- With PACK in its form FLUSH completes and leaves it empty. -/
theorem flushBody_completes {s : State} (hpack : PackOk s) (hroom : RoomFor 2 s) :
    ∃ t, flushBody s = .ok t ∧ OnlyStream s t ∧ t.pack = ⟨0#3, 0#7⟩ := by
  by_cases hcnt : s.pack.cnt = 0#3
  · have hnil : pendingBits s = [] := List.eq_nil_of_length_eq_zero (by rw [pendingBits_length, hcnt]; rfl)
    exact ⟨s, flushBody_empty hcnt, OnlyStream.refl s, pack_of_pending_nil hnil hpack⟩
  · obtain ⟨t, ht, honly, hempty, -⟩ := flushBody_room hpack hcnt hroom
    exact ⟨t, ht, honly, hempty⟩

/-- The body of ENC_SCAN completes where it has what it needs: DC_RESET puts the predictors in range, every MCU keeps
them there, and in an emitting pass FLUSH empties PACK. -/
theorem encScanBody_completes {s : State} (hc : configCheck false s = none) (ha : FrameAnswered s)
    (htables : TablesReady s) (hroom : s.ctrl.stats = false → RoomFor (3072 * (gridX s * gridY s) + 2) s) :
    ∃ t, encScanBody s = .ok t ∧ t.status = s.status ∧ t.irqStat = s.irqStat ∧
      t.mcuPos = mcuPosOf (gridX s - 1, gridY s - 1) ∧
      (s.ctrl.stats = true → t.mem = s.mem ∧ t.pack = s.pack ∧ t.dstPtr = s.dstPtr) ∧
      (s.ctrl.stats = false → t.pack = ⟨0#3, 0#7⟩ ∧ t.freq = s.freq) := by
  obtain ⟨hw, hh⟩ := frame_ne_zero hc
  obtain ⟨hpos, hlen⟩ := blockOrder_length s.ctrl
  have hmcus : 0 < (scanOrder s).length := by
    rw [scanOrder_length]
    exact Nat.mul_pos (ceilDiv_mcuSize_pos hw s.ctrl) (ceilDiv_mcuSize_pos hh s.ctrl)
  have hbytes : 512 * ((scanOrder s).length * (blockOrder s.ctrl).length) ≤ 3072 * (gridX s * gridY s) := by
    have := Nat.mul_le_mul_left (scanOrder s).length hlen
    rw [← scanOrder_length]
    omega
  have hready : Ready (512 * ((scanOrder s).length * (blockOrder s.ctrl).length) + 2) (dcResetBody s) :=
    Ready.mono (n := 3072 * (gridX s * gridY s) + 2) ⟨htables, fun e _ => predsInRange_dcReset s e.2.2, hroom⟩
      (by omega)
  obtain ⟨t, ht, hcoded⟩ := codeMcus_completes (s := dcResetBody s) hw hh ha
    (hready.mono (Nat.le_add_right _ _))
  have hstatus : t.status = s.status := by rw [hcoded.only]; rfl
  have hirq : t.irqStat = s.irqStat := by rw [hcoded.only]; rfl
  have hend : t.mcuPos = mcuPosOf (gridX s - 1, gridY s - 1) := by
    rw [hcoded.only]
    exact lastPos_scanOrder hc _
  rw [encScanBody_bind, ht]
  cases hs : s.ctrl.stats with
  | true => exact ⟨t, rfl, hstatus, hirq, hend, fun _ => hcoded.counting hs, fun h => (nomatch h)⟩
  | false =>
    have hblocks : (scanOrder s).length * (blockOrder s.ctrl).length ≠ 0 := (Nat.mul_pos hmcus hpos).ne'
    obtain ⟨u, hu, honly, hempty⟩ := flushBody_completes (hcoded.packOk hs (.inl hblocks))
      (hcoded.roomFor (hready.room hs))
    refine ⟨u, hu, ?_, ?_, ?_, fun h => (nomatch h), fun _ => ⟨hempty, ?_⟩⟩
    · rw [honly, ← hstatus]
    · rw [honly, ← hirq]
    · rw [honly, ← hend]
    · rw [honly]
      exact hcoded.emitting hs

/-- Settles O58: the body completes whichever source bytes read as any value. -/
theorem encScanCompletes : Obligations.EncScanCompletes := by
  unfold Obligations.EncScanCompletes
  intro s hc ha htables hroom
  obtain ⟨n, rs, hbody⟩ := withOverlap_cases encScanBody s
  have hc' : configCheck false (advance n { s with racySrc := rs }) = none := hc
  obtain ⟨t, ht, hstatus, hirq, hpos, hcounting, hemitting⟩ := encScanBody_completes hc' ha htables hroom
  refine ⟨complete t, by rw [exec_encScan_eq hc, hbody, ht]; rfl, ?_, ?_, hpos, hcounting, hemitting⟩
  · rw [complete_status, hstatus]
    rfl
  · rw [complete_irqStat, hirq]
    rfl

end Sys2Proof.Machine

/-! PROOF. The frame of the commands: each changes only what its footprint names (60_exceptions.md R253). -/

namespace Sys2Proof.Machine

open Sys2Proof.Safety

/-- From s to t nothing changed that the footprint does not name; CTRL, which selects the footprint, is kept. -/
structure Within (fp : Footprint) (s t : State) : Prop where
  ctrl : t.ctrl = s.ctrl
  stream : fp.stream = false → t.mem = s.mem ∧ t.dstPtr = s.dstPtr
  pack : fp.pack = false → t.pack = s.pack
  mcuPos : fp.mcuPos = false → t.mcuPos = s.mcuPos
  coef : fp.coef = false → t.coef = s.coef
  qcoef : fp.qcoef = false → t.qcoef = s.qcoef
  zzbuf : fp.zzbuf = false → t.zzbuf = s.zzbuf
  preds : ∀ c, c ∉ fp.preds → pred t c = pred s c
  blk : ∀ k, k / 64 ∉ fp.blks → tabGet t.blk k = tabGet s.blk k
  freq : ∀ k < 1024, k / 256 ∉ fp.freqs → tabGet t.freq k = tabGet s.freq k

theorem Within.refl (fp : Footprint) (s : State) : Within fp s s :=
  ⟨rfl, fun _ => ⟨rfl, rfl⟩, fun _ => rfl, fun _ => rfl, fun _ => rfl, fun _ => rfl, fun _ => rfl, fun _ _ => rfl,
    fun _ _ => rfl, fun _ _ _ => rfl⟩

theorem Within.trans {fp : Footprint} {s t u : State} (h1 : Within fp s t) (h2 : Within fp t u) : Within fp s u where
  ctrl := h2.ctrl.trans h1.ctrl
  stream h := ⟨(h2.stream h).1.trans (h1.stream h).1, (h2.stream h).2.trans (h1.stream h).2⟩
  pack h := (h2.pack h).trans (h1.pack h)
  mcuPos h := (h2.mcuPos h).trans (h1.mcuPos h)
  coef h := (h2.coef h).trans (h1.coef h)
  qcoef h := (h2.qcoef h).trans (h1.qcoef h)
  zzbuf h := (h2.zzbuf h).trans (h1.zzbuf h)
  preds c h := (h2.preds c h).trans (h1.preds c h)
  blk k h := (h2.blk k h).trans (h1.blk k h)
  freq k hk h := (h2.freq k hk h).trans (h1.freq k hk h)

/-! Single updates that a footprint names. -/

/-- A part that the footprint names owes nothing. -/
theorem elim_true_false {b : Bool} {q : Prop} (h : b = true) (h' : b = false) : q :=
  absurd (h.symm.trans h') (by decide)

section
variable {fp : Footprint} (s : State)

theorem within_advance (n : Nat) : Within fp s (advance n s) := { Within.refl fp s with }

theorem within_coef (h : fp.coef = true) (st : Store Half) : Within fp s { s with coef := st } :=
  { Within.refl fp s with coef := fun h' => elim_true_false h h' }

theorem within_qcoef (h : fp.qcoef = true) (st : Store Half) : Within fp s { s with qcoef := st } :=
  { Within.refl fp s with qcoef := fun h' => elim_true_false h h' }

theorem within_zzbuf (h : fp.zzbuf = true) (st : Store Half) : Within fp s { s with zzbuf := st } :=
  { Within.refl fp s with zzbuf := fun h' => elim_true_false h h' }

theorem within_pack (h : fp.pack = true) (p : Pack) : Within fp s { s with pack := p } :=
  { Within.refl fp s with pack := fun h' => elim_true_false h h' }

theorem within_mcuPos (h : fp.mcuPos = true) (p : McuPos) : Within fp s { s with mcuPos := p } :=
  { Within.refl fp s with mcuPos := fun h' => elim_true_false h h' }

theorem within_blk {st : Store Byte} (h : ∀ k, k / 64 ∉ fp.blks → tabGet st k = tabGet s.blk k) :
    Within fp s { s with blk := st } := { Within.refl fp s with blk := h }

theorem within_freq {st : Store Word} (h : ∀ k < 1024, k / 256 ∉ fp.freqs → tabGet st k = tabGet s.freq k) :
    Within fp s { s with freq := st } := { Within.refl fp s with freq := h }

theorem within_setPred {c : Component} (h : c ∈ fp.preds) (p : Half) : Within fp s (setPred c p s) where
  ctrl := setPred_ctrl c p s
  stream _ := ⟨setPred_mem c p s, setPred_dstPtr c p s⟩
  pack _ := setPred_pack c p s
  mcuPos _ := setPred_mcuPos c p s
  coef _ := setPred_coef c p s
  qcoef _ := setPred_qcoef c p s
  zzbuf _ := setPred_zzbuf c p s
  preds d hd := pred_setPred_ne c d p s fun hdc => hd (hdc ▸ h)
  blk k _ := by rw [setPred_blk]
  freq k _ _ := by rw [setPred_freq]

theorem within_stream (hs : fp.stream = true) (hp : fp.pack = true) {t : State} (h : StreamFrame s t) :
    Within fp s t := by
  obtain ⟨heq, -⟩ := h
  rw [heq]
  exact { Within.refl fp s with
    stream := fun h' => elim_true_false hs h'
    pack := fun h' => elim_true_false hp h' }

end

/-! What a fault leaves free (R253(d)). -/

theorem within_ite {fp : Footprint} {b : Bool} {f : State → State} (h : b = true → ∀ s, Within fp s (f s))
    (s : State) : Within fp s (if b then f s else s) := by
  cases b with
  | false => exact Within.refl fp s
  | true => exact h rfl s

theorem tabGet_fillFree_ne {α : Type} (conv : Word → α) {n b k : Nat} (d : Nat) (st : Store α) (h : k / n ≠ b) :
    tabGet (fillFree conv (n * b) n d st) k = tabGet st k := by
  rw [fillFree, tabGet_tabSetRun, List.length_map, List.length_range, if_neg]
  rintro ⟨hlo, hhi⟩
  exact h (Nat.div_eq_of_lt_le (by rwa [Nat.mul_comm]) (by rwa [Nat.succ_mul, Nat.mul_comm]))

/-- The free values after a fault lie in what the footprint names. -/
theorem within_free (fp : Footprint) (s : State) : Within fp s (freeRegisters fp (freeTables fp s)) := by
  have trans : ∀ a b c, Within fp a b → Within fp b c → Within fp a c := fun _ _ _ => Within.trans
  have blks : ∀ s, Within fp s (fp.blks.foldl freeBlk s) := foldl_rel (Within.refl fp) trans _ _ fun s b hb =>
    (within_blk s fun k hk => tabGet_fillFree_ne _ _ _ fun hkb => hk (hkb ▸ hb)).trans (within_advance _ 64)
  have freqs : ∀ s, Within fp s (fp.freqs.foldl freeFreq s) := foldl_rel (Within.refl fp) trans _ _ fun s t ht =>
    (within_freq s fun k _ hk => tabGet_fillFree_ne _ _ _ fun hkt => hk (hkt ▸ ht)).trans (within_advance _ 256)
  have preds : ∀ s, Within fp s (fp.preds.foldl freePred s) := foldl_rel (Within.refl fp) trans _ _ fun s c hc =>
    (within_setPred s hc _).trans (within_advance _ 1)
  have coef := within_ite (fp := fp) (b := fp.coef) (f := freeCoef) fun h s =>
    (within_coef s h _).trans (within_advance _ 64)
  have qcoef := within_ite (fp := fp) (b := fp.qcoef) (f := freeQcoef) fun h s =>
    (within_qcoef s h _).trans (within_advance _ 64)
  have zzbuf := within_ite (fp := fp) (b := fp.zzbuf) (f := freeZzbuf) fun h s =>
    (within_zzbuf s h _).trans (within_advance _ 64)
  have pack := within_ite (fp := fp) (b := fp.pack) (f := freePack) fun h s =>
    (within_pack s h _).trans (within_advance _ 1)
  have mcuPos := within_ite (fp := fp) (b := fp.mcuPos) (f := freeMcuPos) fun h s =>
    (within_mcuPos s h _).trans (within_advance _ 1)
  have tables : Within fp s (freeTables fp s) :=
    ((((blks s).trans (freqs _)).trans (coef _)).trans (qcoef _)).trans (zzbuf _)
  exact ((tables.trans (preds _)).trans (pack _)).trans (mcuPos _)

/-! The bodies in sequence. -/

theorem Reaches.bind {R : State → State → Prop} (trans : ∀ a b c, R a b → R b c → R a c) {s : State}
    {x : Except Halt State} {f : State → Except Halt State} (hx : Reaches R s x)
    (hf : ∀ t, x = .ok t → R s t → Reaches R t (f t)) : Reaches R s (x.bind f) := by
  cases x with
  | error e => exact hx
  | ok t => exact Reaches.seq trans hx (hf t rfl hx)

/-- A body that stays within a footprint, and then another from any state it can end in. -/
theorem within_bind {fp : Footprint} {s : State} {x : Except Halt State} {f : State → Except Halt State}
    (hx : Reaches (Within fp) s x) (hf : ∀ t, x = .ok t → t.ctrl = s.ctrl → Reaches (Within fp) t (f t)) :
    Reaches (Within fp) s (x.bind f) :=
  Reaches.bind (R := Within fp) (fun _ _ _ => Within.trans) hx fun t ht hst => hf t ht hst.ctrl

theorem within_seq {fp : Footprint} {s t : State} {x : Except Halt State} (h : Within fp s t)
    (hx : Reaches (Within fp) t x) : Reaches (Within fp) s x :=
  Reaches.seq (R := Within fp) (fun _ _ _ => Within.trans) h hx

/-! Coding (43_entropy.md R196 to R210). -/

theorem putBits_within {fp : Footprint} (hs : fp.stream = true) (hp : fp.pack = true) (v n : Nat) (s : State) :
    Reaches (Within fp) s (putBits v n s) :=
  Reaches.mono (putBits_frame v n s) fun _ => within_stream s hs hp

/-- The footprint names what a symbol writes: the stream in an emitting pass, its table's counters in a counting one. -/
structure NamesSymbol (fp : Footprint) (stats : Bool) (y : Nat × Nat × Nat × Nat) : Prop where
  lt : y.2.1 < 256
  emit : stats = false → fp.stream = true ∧ fp.pack = true
  count : stats = true → y.1 ∈ fp.freqs

theorem symbol_within {fp : Footprint} {s : State} {y : Nat × Nat × Nat × Nat} (h : NamesSymbol fp s.ctrl.stats y) :
    Reaches (Within fp) s (symbol y.1 y.2.1 y.2.2.1 y.2.2.2 s) := by
  cases hs : s.ctrl.stats with
  | true =>
    rw [symbol_count hs, countSymbol]
    cases tabGet s.freq (256 * y.1 + y.2.1) with
    | none => exact Within.refl fp s
    | some old =>
      refine within_freq s fun k _ hk => tabGet_tabSet_ne _ _ _ _ fun hky => hk ?_
      have hlt := h.lt
      rw [show k / 256 = y.1 by omega]
      exact h.count hs
  | false =>
    obtain ⟨hstream, hpack⟩ := h.emit hs
    cases he : tabGet s.huff (256 * y.1 + y.2.1) with
    | none =>
      rw [symbol_emit hs, emitSymbol, he]
      exact Within.refl fp s
    | some e =>
      by_cases hlen : e.len.toNat = 0 ∨ 16 < e.len.toNat
      · rw [symbol_missing hs he hlen]
        exact Within.refl fp s
      · rw [symbol_emit hs, emitSymbol_bind he (by omega) (by omega)]
        exact within_bind (putBits_within hstream hpack _ _ s) fun u _ _ => putBits_within hstream hpack _ _ u

theorem codeSyms_within {fp : Footprint} {ys : List (Nat × Nat × Nat × Nat)} {s : State}
    (h : ∀ y ∈ ys, NamesSymbol fp s.ctrl.stats y) : Reaches (Within fp) s (codeSyms ys s) := by
  induction ys generalizing s with
  | nil => exact Within.refl fp s
  | cons y ys ih =>
    obtain ⟨hy, hys⟩ := List.forall_mem_cons.1 h
    rw [codeSyms_cons]
    exact within_bind (symbol_within hy) fun t _ hctrl => ih (hctrl ▸ hys)

theorem codeHead_within {fp : Footprint} {c : Component} {ys : List (Nat × Nat × Nat × Nat)} {s : State}
    (hc : c ∈ fp.preds) (h : ∀ y ∈ dcSym c s :: ys, NamesSymbol fp s.ctrl.stats y) :
    Reaches (Within fp) s (codeHead c ys s) := by
  obtain ⟨hdc, hys⟩ := List.forall_mem_cons.1 h
  refine within_bind (codeSyms_within (List.forall_mem_singleton.2 hdc)) fun t _ hctrl => ?_
  refine within_seq (within_setPred t hc _) (codeSyms_within ?_)
  rwa [setPred_ctrl, hctrl]

theorem encBlockBody_unwrittenDc {c : Component} {s : State} (hnone : tabGet s.zzbuf 0 = none) :
    encBlockBody c s = .error (.unwritten .zzbuf 0 s) := by
  simp only [encBlockBody, dcCode, hnone]

/-- The coding loop stops at an entry with no value (60_exceptions.md R268). -/
theorem acLoop_unwritten (ta r : Nat) {k : Nat} {s : State} (hk : k < 64) (hnone : tabGet s.zzbuf k = none) :
    acLoop ta (64 - k) r s = .error (.unwritten .zzbuf k s) := by
  rw [acLoop_succ ta hk, acStep, hnone]
  rfl

/-- A value is ready for AC coding: written, and within the category limit. -/
def AcReadyAt (s : State) (k : Nat) : Prop := (tabGet s.zzbuf k).isSome = true ∧ (zzAt s k).natAbs < 1024

/-- The coding loop at a value that is not ready halts where it stands. -/
theorem acLoop_halts {ta r k : Nat} {s : State} (hk : k < 64) (h : ¬ AcReadyAt s k) :
    Reaches Eq s (acLoop ta (64 - k) r s) := by
  cases hsome : (tabGet s.zzbuf k).isSome with
  | false =>
    rw [acLoop_unwritten ta r hk (Option.not_isSome_iff_eq_none.1 (by rw [hsome]; decide))]
    exact rfl
  | true =>
    rw [acLoop_catOvf ta r hk hsome (not_lt.1 fun hlt => h ⟨hsome, hlt⟩)]
    exact rfl

/-- The values up to the first that is not ready, if there is one before n. -/
theorem acReady_or_first (s : State) (n : Nat) :
    AcReady s 1 n ∨ ∃ k, 1 ≤ k ∧ k < n + 1 ∧ AcReady s 1 (k - 1) ∧ ¬ AcReadyAt s k := by
  induction n with
  | zero => exact .inl fun j hj hj' => by omega
  | succ n ih =>
    rcases ih with hready | ⟨k, hk, hk', hbefore, hnot⟩
    · by_cases hn : AcReadyAt s (n + 1)
      · refine .inl fun j hj hj' => ?_
        rcases Nat.lt_or_ge j (n + 1) with hlt | hge
        · exact hready j hj (by omega)
        · rwa [show j = n + 1 by omega]
      · exact .inr ⟨n + 1, by omega, by omega, hready, hn⟩
    · exact .inr ⟨k, hk, by omega, hbefore, hnot⟩

theorem codable_of_ready {c : Component} {s : State} (h0 : (tabGet s.zzbuf 0).isSome = true)
    (hd : (dcDiff c s).natAbs < 2048) (hac : AcReady s 1 63) : Codable c s := by
  refine ⟨fun i hi => ?_, hd, fun k hk hk' => (hac k hk hk').2⟩
  rw [Nat.zero_add]
  rcases Nat.eq_zero_or_pos i with rfl | hpos
  · exact h0
  · exact (hac i hpos hi).1

/-- What ENC_BLOCK can do: halt before its first symbol; or code its first symbols, those of n values that are ready,
and then end or halt where it stands. -/
theorem encBlockBody_cases (c : Component) (s : State) :
    Reaches Eq s (encBlockBody c s) ∨
    (dcDiff c s).natAbs < 2048 ∧ ∃ n ys f, AcReady s 1 n ∧ dcSym c s :: ys <+: dcSym c s :: acSymsOf c s n ∧
      encBlockBody c s = (codeHead c ys s).bind f ∧ ∀ u, codeHead c ys s = .ok u → Reaches Eq u (f u) := by
  cases h0 : (tabGet s.zzbuf 0).isSome with
  | false =>
    have hnone : tabGet s.zzbuf 0 = none := Option.not_isSome_iff_eq_none.1 (by rw [h0]; decide)
    rw [encBlockBody_unwrittenDc hnone]
    exact .inl rfl
  | true =>
    rcases Nat.lt_or_ge (dcDiff c s).natAbs 2048 with hd | hd
    · refine .inr ⟨hd, ?_⟩
      rcases acReady_or_first s 63 with hready | ⟨k, hk, hk', hready, hnot⟩
      · refine ⟨63, acSymsOf c s 63, .ok, hready, List.prefix_refl _, ?_, fun u _ => rfl⟩
        rw [encBlockBody_codable (codable_of_ready h0 hd hready)]
        cases codeHead c (acSymsOf c s 63) s <;> rfl
      · refine ⟨k - 1, acSymsBefore c s k, _, hready, symsBefore_prefix c s k,
          encBlockBody_before hk (by omega) h0 hd hready, fun u hu => acLoop_halts hk' fun hat => hnot ?_⟩
        obtain ⟨hzz, -, -⟩ := codeHead_reads hu
        rwa [AcReadyAt, hzz, zzAt_congr hzz] at hat
    · rw [encBlockBody_dcOvf h0 hd]
      exact .inl rfl

theorem block_symbols_in_tables {c : Component} {s : State} {n : Nat} (hd : (dcDiff c s).natAbs < 2048)
    (hac : AcReady s 1 n) :
    ∀ y ∈ dcSym c s :: acSymsOf c s n, y.2.1 < 256 ∧ (y.1 = dcTable c ∨ y.1 = acTable c) := by
  have hcat : cat (dcDiff c s) ≤ 11 := cat_le_iff.2 hd
  refine List.forall_mem_cons.2 ⟨⟨show cat (dcDiff c s) < 256 by omega, .inl rfl⟩, fun y hy => ?_⟩
  obtain ⟨hta, hmem⟩ := mem_inTable hy
  refine ⟨?_, .inr hta⟩
  rcases acSyms_used (acReady_values hac) _ hmem with h | h | h <;> omega

/-- The footprint names what a pass writes for a component (R210). -/
structure NamesCoding (fp : Footprint) (stats : Bool) (c : Component) : Prop where
  pred : c ∈ fp.preds
  emit : stats = false → fp.stream = true ∧ fp.pack = true
  count : stats = true → dcTable c ∈ fp.freqs ∧ acTable c ∈ fp.freqs

theorem NamesCoding.symbol {fp : Footprint} {stats : Bool} {c : Component} (h : NamesCoding fp stats c)
    {y : Nat × Nat × Nat × Nat} (hlt : y.2.1 < 256) (hy : y.1 = dcTable c ∨ y.1 = acTable c) :
    NamesSymbol fp stats y := by
  refine ⟨hlt, h.emit, fun hs => ?_⟩
  obtain ⟨hdc, hac⟩ := h.count hs
  rcases hy with hy | hy <;> rwa [hy]

theorem encBlockBody_within {fp : Footprint} {c : Component} {s : State} (h : NamesCoding fp s.ctrl.stats c) :
    Reaches (Within fp) s (encBlockBody c s) := by
  rcases encBlockBody_cases c s with hstop | ⟨hd, n, ys, f, hac, hpre, hbody, hend⟩
  · exact Reaches.mono hstop fun t ht => ht ▸ Within.refl fp s
  · rw [hbody]
    refine within_bind (codeHead_within h.pred fun y hy => ?_) fun u hu _ =>
      Reaches.mono (hend u hu) fun t ht => ht ▸ Within.refl fp u
    obtain ⟨hlt, htable⟩ := block_symbols_in_tables hd hac y (hpre.subset hy)
    exact h.symbol hlt htable

theorem flushBody_within {fp : Footprint} (hs : fp.stream = true) (hp : fp.pack = true) (s : State) :
    Reaches (Within fp) s (flushBody s) := by
  unfold flushBody
  split
  · exact putBits_within hs hp _ _ s
  · exact Within.refl fp s

/-! The transform path and the converter. -/

theorem fdctBody_within {fp : Footprint} (h : fp.coef = true) (b : Fin 6) (s : State) :
    Reaches (Within fp) s (fdctBody b s) := by
  rcases fdctBody_cases b s with ⟨xs, -, hbody⟩ | ⟨k, hbody⟩ <;> rw [hbody]
  · exact within_coef s h _
  · exact Within.refl fp s

theorem quantBody_within {fp : Footprint} (h : fp.qcoef = true) (t : QSel) (s : State) :
    Reaches (Within fp) s (quantBody t s) := by
  rcases quantBody_cases t s with ⟨xs, qs, -, -, -, hbody⟩ | ⟨r, k, hbody⟩ | ⟨k, hbody⟩ <;> rw [hbody]
  · exact within_qcoef s h _
  · exact Within.refl fp s
  · exact Within.refl fp s

theorem zigzagBody_within {fp : Footprint} (h : fp.zzbuf = true) (s : State) :
    Reaches (Within fp) s (zigzagBody s) := by
  rcases zigzagBody_cases s with ⟨xs, -, hbody⟩ | ⟨k, hbody⟩ <;> rw [hbody]
  · exact within_zzbuf s h _
  · exact Within.refl fp s

/-- LOAD_MCU keeps the samples of the blocks that are not of the mode. -/
theorem loadMcuBody_within {fp : Footprint} {s : State} (h : ∀ b ∈ modeBlocks s.ctrl, b ∈ fp.blks) :
    Reaches (Within fp) s (loadMcuBody s) := by
  rcases loadMcuBody_cases s with ⟨a, -, n, -, hbody⟩ | ⟨-, px, n, hbody, -⟩ <;> rw [hbody]
  · exact within_advance s n
  · refine (within_blk s fun k hk => ?_).trans (within_advance _ n)
    have hget := (tabGet_storeMcu s.ctrl px s.blk (k / 64) (Nat.mod_lt k (by omega))).trans
      (if_neg fun hb => hk (h _ hb))
    rwa [Nat.div_add_mod] at hget

/-! The sequencer (44_sequencer.md R231, R232). -/

/-- The footprint names what the blocks of the mode write. -/
structure NamesMcu (fp : Footprint) (c : Ctrl) : Prop where
  blks : ∀ b ∈ modeBlocks c, b ∈ fp.blks
  coef : fp.coef = true
  qcoef : fp.qcoef = true
  zzbuf : fp.zzbuf = true
  coding : ∀ e ∈ blockOrder c, NamesCoding fp c.stats e.2.2

theorem codeBlock_within {fp : Footprint} {e : Fin 6 × QSel × Component} {s : State} (h : NamesMcu fp s.ctrl)
    (he : e ∈ blockOrder s.ctrl) : Reaches (Within fp) s (codeBlock e s) := by
  rw [codeBlock_bind]
  refine within_bind (fdctBody_within h.coef _ s) fun t _ ht => ?_
  refine within_bind (quantBody_within h.qcoef _ t) fun u _ hu => ?_
  refine within_bind (zigzagBody_within h.zzbuf u) fun v _ hv => ?_
  refine encBlockBody_within ?_
  rw [hv, hu, ht]
  exact h.coding e he

theorem codeBlocks_within {fp : Footprint} {es : List (Fin 6 × QSel × Component)} {s : State}
    (h : NamesMcu fp s.ctrl) (hes : ∀ e ∈ es, e ∈ blockOrder s.ctrl) :
    Reaches (Within fp) s (codeBlocks es s) := by
  induction es generalizing s with
  | nil => exact Within.refl fp s
  | cons e es ih =>
    obtain ⟨he, hes⟩ := List.forall_mem_cons.1 hes
    rw [codeBlocks_cons]
    exact within_bind (codeBlock_within h he) fun t _ hctrl => ih (hctrl ▸ h) (hctrl ▸ hes)

theorem encMcuBody_within {fp : Footprint} {s : State} (h : NamesMcu fp s.ctrl) :
    Reaches (Within fp) s (encMcuBody s) := by
  rw [encMcuBody_bind]
  exact within_bind (loadMcuBody_within h.blks) fun t _ hctrl =>
    codeBlocks_within (hctrl ▸ h) fun e he => hctrl ▸ he

theorem codeMcus_within {fp : Footprint} (hpos : fp.mcuPos = true) (ps : List (Nat × Nat)) {s : State}
    (h : NamesMcu fp s.ctrl) : Reaches (Within fp) s (codeMcus ps s) := by
  induction ps generalizing s with
  | nil => exact Within.refl fp s
  | cons p ps ih =>
    rw [codeMcus_cons]
    exact within_seq (within_mcuPos s hpos _)
      (within_bind (encMcuBody_within h) fun t _ hctrl => ih (hctrl ▸ h))

theorem dcResetBody_within {fp : Footprint} (h : ∀ c, c ∈ fp.preds) (s : State) : Within fp s (dcResetBody s) := by
  rw [dcResetBody_eq]
  exact ((within_setPred s (h _) _).trans (within_setPred _ (h _) _)).trans (within_setPred _ (h _) _)

theorem encScanBody_within {fp : Footprint} {s : State} (h : NamesMcu fp s.ctrl) (hpos : fp.mcuPos = true)
    (hpreds : ∀ c, c ∈ fp.preds) (hstream : s.ctrl.stats = false → fp.stream = true ∧ fp.pack = true) :
    Reaches (Within fp) s (encScanBody s) := by
  rw [encScanBody_bind]
  refine within_bind (within_seq (dcResetBody_within hpreds s) (codeMcus_within hpos _ h)) fun t _ _ => ?_
  cases hs : s.ctrl.stats with
  | true => exact Within.refl fp t
  | false =>
    obtain ⟨hs, hp⟩ := hstream hs
    exact flushBody_within hs hp t

/-- The overlap rule changes only what free values were taken and which source bytes race. -/
theorem withOverlap_within {fp : Footprint} {body : State → Except Halt State} {s : State}
    (h : ∀ t, t.ctrl = s.ctrl → Reaches (Within fp) t (body t)) : Reaches (Within fp) s (withOverlap body s) := by
  obtain ⟨n, rs, hbody⟩ := withOverlap_cases body s
  have hstart : Within fp s (advance n { s with racySrc := rs }) := { Within.refl fp s with }
  rw [hbody]
  exact within_seq hstart (h _ hstart.ctrl)

/-! The footprints (the Writes of each rule). -/

/-- A footprint with the parts of codingFootprint names what those components' coding writes. -/
theorem namesCoding_of_mem {fp : Footprint} {stats : Bool} {cs : List Component} {c : Component} (hc : c ∈ cs)
    (hpred : c ∈ fp.preds) (hstream : fp.stream = !stats) (hpack : fp.pack = !stats)
    (hfreqs : fp.freqs = (codingFootprint stats cs).freqs) : NamesCoding fp stats c where
  pred := hpred
  emit hs := by rw [hstream, hpack, hs]; exact ⟨rfl, rfl⟩
  count hs := by
    rw [hfreqs, hs]
    exact ⟨List.mem_flatMap.2 ⟨c, hc, by simp⟩, List.mem_flatMap.2 ⟨c, hc, by simp⟩⟩

theorem mem_components {c : Ctrl} {e : Fin 6 × QSel × Component} (he : e ∈ blockOrder c) :
    e.2.2 ∈ ((blockOrder c).map fun e => e.2.2).dedup := List.mem_dedup.2 (List.mem_map_of_mem he)

theorem mem_allPreds (k : Component) : k ∈ [Component.y, .cb, .cr] := by cases k <;> decide

theorem namesMcu_encMcu (c : Ctrl) : NamesMcu (footprint c .encMcu) c where
  blks _ hb := hb
  coef := rfl
  qcoef := rfl
  zzbuf := rfl
  coding _ he := namesCoding_of_mem (mem_components he) (mem_components he) rfl rfl rfl

theorem namesMcu_encScan (c : Ctrl) : NamesMcu (footprint c .encScan) c where
  blks _ hb := hb
  coef := rfl
  qcoef := rfl
  zzbuf := rfl
  coding _ he := namesCoding_of_mem (mem_components he) (mem_allPreds _) rfl rfl rfl

/-- What every command does after its configuration check lies in its footprint. -/
theorem bodyOf_within (i : Instr) (s : State) : Reaches (Within (footprint s.ctrl i)) s (bodyOf i s) := by
  cases i with
  | nop => exact Within.refl _ s
  | dcReset => exact dcResetBody_within mem_allPreds s
  | freqClear =>
    refine within_freq s fun k hk hne => absurd ?_ hne
    have hlt : k / 256 < 4 := by omega
    exact List.mem_range.2 hlt
  | loadMcu => exact loadMcuBody_within fun _ hb => hb
  | fdct b => exact fdctBody_within rfl b s
  | quant t => exact quantBody_within rfl t s
  | zigzag => exact zigzagBody_within rfl s
  | encBlock c =>
    exact encBlockBody_within
      (namesCoding_of_mem (cs := [c]) List.mem_cons_self List.mem_cons_self rfl rfl rfl)
  | putbits v n => exact putBits_within rfl rfl _ _ s
  | flush => exact flushBody_within rfl rfl s
  | encMcu => exact withOverlap_within fun t ht => encMcuBody_within (ht ▸ namesMcu_encMcu s.ctrl)
  | encScan =>
    refine withOverlap_within fun t ht => ?_
    rw [← ht]
    exact encScanBody_within (namesMcu_encScan t.ctrl) rfl mem_allPreds fun hs => by
      simp [footprint, codingFootprint, hs]

/-! Every outcome. -/

/-- What the fault of a command leaves free lies in its footprint. -/
theorem within_faultFree (c : Ctrl) (i : Instr) (s : State) :
    Within (footprint c i) s (freeRegisters (faultFootprint c i) (freeTables (faultFootprint c i) s)) := by
  cases i with
  | quant t => exact Within.refl _ s
  | _ => exact within_free _ s

theorem within_complete (fp : Footprint) (s : State) : Within fp s (complete s) := { Within.refl fp s with }

theorem within_enterFault (fp : Footprint) (code : FaultCode) (info : Word) (s : State) :
    Within fp s (enterFault code info s) := { Within.refl fp s with }

theorem exec_within {i : Instr} {s t : State} (h : exec i s = .next t) : Within (footprint s.ctrl i) s t := by
  rw [exec_eq] at h
  cases hc : checkOf i s with
  | some sub =>
    rw [hc] at h
    injection h with h
    exact h ▸ within_enterFault _ _ _ s
  | none =>
    rw [hc] at h
    have hbody := bodyOf_within i s
    rcases finish_cases _ _ _ h with ⟨u, hx, rfl⟩ | ⟨code, info, u, hx, rfl⟩ <;> rw [hx] at hbody
    · exact Within.trans hbody (within_complete _ u)
    · exact (Within.trans hbody (within_faultFree s.ctrl i u)).trans (within_enterFault _ code info _)

/-- Settles O10: EngineFrame bounds what any command changes, and Within what each one does. -/
theorem commandsWriteOnlyTheirFootprint : Obligations.CommandsWriteOnlyTheirFootprint := by
  unfold Obligations.CommandsWriteOnlyTheirFootprint
  intro i s t h
  obtain ⟨u, ⟨heq, hptr, -, hmem⟩, hend⟩ := exec_completes_or_faults h
  have hw := exec_within h
  refine ⟨?_, ?_, ?_, hw.stream, hw.pack, hw.mcuPos, hw.coef, hw.qcoef, hw.zzbuf, hw.preds, fun k _ => hw.blk k,
    hw.freq⟩
  · rcases hend with rfl | ⟨code, info, rfl⟩ <;> rw [heq] <;> rfl
  · rcases hend with rfl | ⟨code, info, rfl⟩ <;> exact hptr
  · rcases hend with rfl | ⟨code, info, rfl⟩ <;> exact hmem

end Sys2Proof.Machine

/-! PROOF. The idle engine, and the subcodes of ConfigCheck (60_exceptions.md R262, R285). -/

namespace Sys2Proof.Machine

open Sys2Proof.Safety

theorem engineStep_idle {s : State} (h : s.status.busy = false) : engineStep s = .next s := by
  rw [engineStep, h]
  rfl

/-- Settles O6: with no event left the engine has the step, and an idle engine keeps the state. -/
theorem idleKeepsAllState : Obligations.IdleKeepsAllState := by
  unfold Obligations.IdleKeepsAllState
  intro s hbusy hinputs
  exact (step_nil hinputs).trans (engineStep_idle hbusy)

/-- An MCU column or row is outside the grid when its first pixel is outside the frame (44_sequencer.md R233). -/
theorem ceilDiv_le_iff_le_mul_mcuSize (n k : Nat) (c : Ctrl) :
    Machine.ceilDiv n (mcuSize c) ≤ k ↔ n ≤ k * mcuSize c := by
  have hpos : 0 < mcuSize c := by
    unfold mcuSize
    split <;> decide
  rw [Machine.ceilDiv, ← Nat.ceilDiv_eq_add_pred_div, ceilDiv_le_iff_le_mul hpos, Nat.mul_comm]

theorem outsideGrid_iff (s : State) :
    gridX s ≤ s.mcuPos.mx.toNat ∨ gridY s ≤ s.mcuPos.my.toNat ↔
      s.frame.w.toNat ≤ mcuX0 s ∨ s.frame.h.toNat ≤ mcuY0 s :=
  or_congr (ceilDiv_le_iff_le_mul_mcuSize _ _ _) (ceilDiv_le_iff_le_mul_mcuSize _ _ _)

/-- ConfigCheck with the position told in pixels. -/
theorem configCheck_eq (p : Bool) (s : State) :
    configCheck p s =
      if s.frame.w = 0#16 ∨ s.frame.h = 0#16 then some 1#32
      else if s.ctrl.mode = 3#2 then some 2#32
      else if s.ctrl.infmt = 3#2 then some 3#32
      else if s.ctrl.infmt = 2#2 ∧ s.ctrl.mode ≠ 0#2 then some 4#32
      else if p = true ∧ (s.frame.w.toNat ≤ mcuX0 s ∨ s.frame.h.toNat ≤ mcuY0 s) then some 5#32
      else none := by
  simp only [configCheck, outsideGrid_iff, fmtGray8, modeGray]

/-- Settles O25: the clauses are the branches of ConfigCheck in order. -/
theorem configCheckSubcodes : Obligations.ConfigCheckSubcodes := by
  unfold Obligations.ConfigCheckSubcodes
  intro p s c1 c2 c3 c4 c5
  rw [configCheck_eq]
  refine ⟨fun h1 => if_pos h1, fun h1 h2 => ?_, fun h1 h2 h3 => ?_, fun h1 h2 h3 h4 => ?_,
    fun h1 h2 h3 h4 h5 => ?_, fun h1 h2 h3 h4 h5 => ?_⟩
  · rw [if_neg h1, if_pos h2]
  · rw [if_neg h1, if_neg h2, if_pos h3]
  · rw [if_neg h1, if_neg h2, if_neg h3, if_pos h4]
  · rw [if_neg h1, if_neg h2, if_neg h3, if_neg h4, if_pos h5]
  · rw [if_neg h1, if_neg h2, if_neg h3, if_neg h4, if_neg h5]

end Sys2Proof.Machine

/-! PROOF. Where a command that reads an entry nobody has written stops (60_exceptions.md R268,
70_reset_and_hazards.md R293). -/

namespace Sys2Proof.Machine

open Sys2Proof.Safety

/-! Reading entries in turn. -/

/-- readAt stops at the first of its indices that is not written. -/
theorem readAt_unwritten {α : Type} {r : Region} {st : Store α} {s : State} {ks : List Nat} {n : Nat}
    (hn : n < ks.length) (hbefore : ∀ j < n, (tabGet st (ks.getD j 0)).isSome = true)
    (hnone : tabGet st (ks.getD n 0) = none) : readAt r st s ks = .error (.unwritten r (ks.getD n 0) s) := by
  induction ks generalizing n with
  | nil => exact absurd hn (Nat.not_lt_zero n)
  | cons k ks ih =>
    cases n with
    | zero =>
      rw [List.getD_cons_zero] at hnone ⊢
      rw [readAt, hnone]
    | succ n =>
      obtain ⟨v, hv⟩ := Option.isSome_iff_exists.1 (hbefore 0 (Nat.succ_pos n))
      rw [List.getD_cons_zero] at hv
      rw [List.getD_cons_succ] at hnone ⊢
      have hrest := ih (Nat.lt_of_succ_lt_succ hn) (fun j hj => hbefore (j + 1) (Nat.succ_lt_succ hj)) hnone
      rw [readAt, hv]
      simp only [hrest]

/-- The same for n entries from lo on. -/
theorem readAt_range_unwritten {α : Type} {r : Region} {st : Store α} {s : State} {lo n k : Nat} (hk : k < n)
    (hw : Written st lo k) (hnone : tabGet st (lo + k) = none) :
    readAt r st s (List.range' lo n) = .error (.unwritten r (lo + k) s) := by
  have hget : ∀ j < n, (List.range' lo n).getD j 0 = lo + j := fun j hj => by
    rw [List.getD_eq_getElem _ _ (by rwa [List.length_range']), List.getElem_range'_1]
  rw [← hget k hk] at hnone ⊢
  refine readAt_unwritten (by rwa [List.length_range']) (fun j hj => ?_) hnone
  rw [hget j (hj.trans hk)]
  exact hw j hj

/-- QUANT stops at the first divisor that is not written, those before it being ready. -/
theorem readDivisors_unwritten {t : QSel} {s : State} {k : Nat} (hk : k < 64)
    (hbefore : ∀ j < k, DivisorReady t s j) (hnone : tabGet s.qtab (64 * qselNumber t + k) = none) :
    readDivisors t s 0 64 = .error (.unwritten .qtab (64 * qselNumber t + k) s) := by
  have hstop : readDivisors t s k (63 - k + 1) = .error (.unwritten .qtab (64 * qselNumber t + k) s) := by
    rw [readDivisors, hnone]
  have hsplit : 64 = k + (63 - k + 1) := by omega
  exact (congrArg (readDivisors t s 0) hsplit).trans (by rw [readDivisors_add hbefore, hstop, Except.map])

/-! The bodies. -/

theorem fdctBody_unwritten {b : Fin 6} {s : State} {k : Nat} (hk : k < 64) (hw : Written s.blk (64 * b.val) k)
    (hnone : tabGet s.blk (64 * b.val + k) = none) :
    fdctBody b s = .error (.unwritten .blk (64 * b.val + k) s) := by
  rw [fdctBody, readAt_range_unwritten hk hw hnone]

theorem quantBody_unwrittenDivisor {t : QSel} {s : State} {k : Nat} (hk : k < 64)
    (hbefore : ∀ j < k, DivisorReady t s j) (hnone : tabGet s.qtab (64 * qselNumber t + k) = none) :
    quantBody t s = .error (.unwritten .qtab (64 * qselNumber t + k) s) := by
  rw [quantBody, readDivisors_unwritten hk hbefore hnone]

theorem quantBody_unwrittenCoef {t : QSel} {s : State} {k : Nat} (hk : k < 64) (hd : DivisorsReady t s)
    (hw : Written s.coef 0 k) (hnone : tabGet s.coef k = none) :
    quantBody t s = .error (.unwritten .coef k s) := by
  rw [← Nat.zero_add k] at hnone
  rw [quantBody_bind, readDivisors_ready hd, List.range_eq_range']
  simp only [Except.bind, readAt_range_unwritten hk hw hnone, Nat.zero_add]

theorem zigzagBody_unwritten {s : State} {k : Nat} (hk : k < 64)
    (hbefore : ∀ j < k, (tabGet s.qcoef (zzOrder.getD j 0)).isSome = true)
    (hnone : tabGet s.qcoef (zzOrder.getD k 0) = none) :
    zigzagBody s = .error (.unwritten .qcoef (zzOrder.getD k 0) s) := by
  rw [zigzagBody, readAt_unwritten hk hbefore hnone]

/-! ENC_BLOCK: an unwritten AC value, code or counter. -/

/-- Once the symbols before ZZBUF[k] are coded, an unwritten entry there stops the block. -/
theorem encBlockBody_unwrittenAc {c : Component} {s u : State} {k : Nat} (hk : 1 ≤ k) (hk' : k < 64)
    (h0 : (tabGet s.zzbuf 0).isSome = true) (hd : (dcDiff c s).natAbs < 2048) (hac : AcReady s 1 (k - 1))
    (hnone : tabGet s.zzbuf k = none) (hu : codeHead c (acSymsBefore c s k) s = .ok u) :
    encBlockBody c s = .error (.unwritten .zzbuf k u) := by
  obtain ⟨hzz, -, -⟩ := codeHead_reads hu
  rw [encBlockBody_before hk hk'.le h0 hd hac, hu]
  exact acLoop_unwritten _ _ hk' (by rw [hzz, hnone])

theorem symbol_unwrittenCode {s : State} (hs : s.ctrl.stats = false) {t sym : Nat}
    (hnone : tabGet s.huff (256 * t + sym) = none) (v n : Nat) :
    symbol t sym v n s = .error (.unwritten .huff (256 * t + sym) s) := by
  rw [symbol_emit hs, emitSymbol, hnone]

theorem symbol_unwrittenCounter {s : State} (hs : s.ctrl.stats = true) {t sym : Nat}
    (hnone : tabGet s.freq (256 * t + sym) = none) (v n : Nat) :
    symbol t sym v n s = .error (.unwritten .freq (256 * t + sym) s) := by
  rw [symbol_count hs, countSymbol, hnone]

/-- A block of values that are ready stops at its first symbol without an entry: P says of a state that the symbols
before it are coded and its entry is not written. -/
theorem encBlockBody_unwrittenSymbol {P : State → Prop} {c : Component} {s : State}
    {pre post : List (Nat × Nat × Nat × Nat)} {y : Nat × Nat × Nat × Nat} {r : Region} {i : Nat}
    (hcod : Codable c s) (hsplit : dcSym c s :: acSymsOf c s 63 = pre ++ y :: post) (hs : P s)
    (hhead : ∀ ys, pre = dcSym c s :: ys → ∃ u, codeHead c ys s = .ok u ∧ P u)
    (hstop : ∀ u, P u → symbol y.1 y.2.1 y.2.2.1 y.2.2.2 u = .error (.unwritten r i u)) :
    ∃ u, encBlockBody c s = .error (.unwritten r i u) := by
  rw [encBlockBody_codable hcod]
  cases pre with
  | nil =>
    obtain ⟨hy, -⟩ := List.cons.inj hsplit
    rw [codeHead, codeSyms_singleton, hy, hstop s hs]
    exact ⟨s, rfl⟩
  | cons d pre =>
    rw [List.cons_append] at hsplit
    obtain ⟨rfl, htail⟩ := List.cons.inj hsplit
    obtain ⟨u, hu, hPu⟩ := hhead pre rfl
    rw [htail, codeHead_append, hu]
    refine ⟨u, ?_⟩
    show codeSyms (y :: post) u = _
    rw [codeSyms_cons, hstop u hPu]
    rfl

theorem encBlockBody_unwrittenCode {c : Component} {s : State} {pre post : List (Nat × Nat × Nat × Nat)}
    {y : Nat × Nat × Nat × Nat} (hs : s.ctrl.stats = false) (hcod : Codable c s)
    (hsplit : dcSym c s :: acSymsOf c s 63 = pre ++ y :: post) (hcodes : ∀ p ∈ pre, HasCode s p.1 p.2.1)
    (hnone : tabGet s.huff (256 * y.1 + y.2.1) = none) (hroom : RoomFor 512 s) :
    ∃ u, encBlockBody c s = .error (.unwritten .huff (256 * y.1 + y.2.1) u) := by
  obtain ⟨-, hd⟩ := codable_dc hcod
  have hac := codable_acReady hcod le_rfl
  have hpre : pre <+: dcSym c s :: acSymsOf c s 63 := ⟨_, hsplit.symm⟩
  refine encBlockBody_unwrittenSymbol (P := fun u => u.ctrl = s.ctrl ∧ u.huff = s.huff) hcod hsplit ⟨rfl, rfl⟩
    (fun ys hys => ?_) fun u hu => ?_
  · obtain ⟨u, hu, -⟩ := codeHead_room le_rfl hs hd hac (hys ▸ hpre) (hys ▸ hcodes) hroom
    obtain ⟨-, hctrl, hhuff⟩ := codeHead_reads hu
    exact ⟨u, hu, hctrl, hhuff⟩
  · obtain ⟨hctrl, hhuff⟩ := hu
    exact symbol_unwrittenCode (by rw [hctrl, hs]) (by rw [hhuff, hnone]) _ _

theorem encBlockBody_unwrittenCounter {c : Component} {s : State} {pre post : List (Nat × Nat × Nat × Nat)}
    {y : Nat × Nat × Nat × Nat} (hs : s.ctrl.stats = true) (hcod : Codable c s)
    (hsplit : dcSym c s :: acSymsOf c s 63 = pre ++ y :: post) (hcount : Countable s pre)
    (hnone : tabGet s.freq (256 * y.1 + y.2.1) = none) :
    ∃ u, encBlockBody c s = .error (.unwritten .freq (256 * y.1 + y.2.1) u) := by
  refine encBlockBody_unwrittenSymbol
    (P := fun u => u.ctrl = s.ctrl ∧ tabGet u.freq (256 * y.1 + y.2.1) = none) hcod hsplit ⟨rfl, hnone⟩
    (fun ys hys => ?_) fun u hu => ?_
  · obtain ⟨f, hf, hcounted⟩ := codeHead_counts hs (hys ▸ hcount)
    refine ⟨_, hf, setPred_ctrl c _ s, ?_⟩
    show tabGet f _ = none
    rw [hcounted, hnone]
    rfl
  · obtain ⟨hctrl, hfreq⟩ := hu
    exact symbol_unwrittenCounter (by rw [hctrl, hs]) hfreq _ _

/-- With the tables of the pass loaded, and room in an emitting one, the symbols before ZZBUF[k] are coded. -/
theorem codeHead_before_completes {c : Component} {s : State} {k : Nat} (hk : k < 64) (hd : (dcDiff c s).natAbs < 2048)
    (hac : AcReady s 1 (k - 1)) (hcount : s.ctrl.stats = true → CountersReady c s)
    (hcode : s.ctrl.stats = false → CodesReady c s ∧ RoomFor 512 s) :
    ∃ u, codeHead c (acSymsBefore c s k) s = .ok u := by
  have hpre := symsBefore_prefix c s k
  cases hs : s.ctrl.stats with
  | true =>
    obtain ⟨f, hf, -⟩ := codeHead_counts hs fun y hy => countersReady_block (hcount hs) hd hac y (hpre.subset hy)
    exact ⟨_, hf⟩
  | false =>
    obtain ⟨hcodes, hroom⟩ := hcode hs
    obtain ⟨u, hu, -⟩ := codeHead_room (by omega) hs hd hac hpre
      (fun y hy => codesReady_block hcodes hd hac y (hpre.subset hy)) hroom
    exact ⟨u, hu⟩

/-! ENC_MCU and ENC_SCAN: an unwritten luma divisor stops their first block. -/

/-- Divisor k of the luma table is the first that is not written, those before it being ready. -/
def LumaStopsAt (s : State) (k : Nat) : Prop :=
  k < 64 ∧ (∀ j < k, ∃ q, tabGet s.qtab j = some q ∧ q ≠ 0#8) ∧ tabGet s.qtab k = none

theorem quantBody_lumaStops {s : State} {k : Nat} (h : LumaStopsAt s k) :
    quantBody .luma s = .error (.unwritten .qtab k s) := by
  obtain ⟨hk, hbefore, hnone⟩ := h
  have hindex : ∀ j, 64 * qselNumber .luma + j = j := Nat.zero_add
  rw [← hindex k] at hnone ⊢
  exact quantBody_unwrittenDivisor hk (fun j hj => by rw [DivisorReady, hindex]; exact hbefore j hj) hnone

theorem blockOrder_head (c : Ctrl) : ∃ es, blockOrder c = (0, .luma, .y) :: es := by
  unfold blockOrder
  split
  · exact ⟨_, rfl⟩
  · split <;> exact ⟨_, rfl⟩

theorem encMcuBody_lumaStops {s : State} {k : Nat} (ha : ReadsAnswered s) (h : LumaStopsAt s k) :
    ∃ u, encMcuBody s = .error (.unwritten .qtab k u) := by
  obtain ⟨t, ht, hload, hblk⟩ := loadMcuBody_completes ha
  obtain ⟨es, hes⟩ := blockOrder_head s.ctrl
  obtain ⟨cf, hfdct, -⟩ := fdctBody_completes (b := 0) (hblk (0, .luma, .y) (hes ▸ List.mem_cons_self))
  have hqtab : t.qtab = s.qtab := by rw [hload.only]
  have hquant := quantBody_lumaStops (s := { t with coef := cf }) (k := k) (by rwa [LumaStopsAt, hqtab])
  refine ⟨{ t with coef := cf }, ?_⟩
  rw [encMcuBody_bind, ht, hes]
  show codeBlocks ((0, .luma, .y) :: es) t = _
  rw [codeBlocks_cons, codeBlock_bind, hfdct]
  simp only [Except.bind, hquant]

theorem encScanBody_lumaStops {s : State} {k : Nat} (hc : configCheck false s = none) (ha : FrameAnswered s)
    (h : LumaStopsAt s k) : ∃ u, encScanBody s = .error (.unwritten .qtab k u) := by
  obtain ⟨hw, hh⟩ := frame_ne_zero hc
  have hmcus : 0 < (scanOrder s).length := by
    rw [scanOrder_length]
    exact Nat.mul_pos (ceilDiv_mcuSize_pos hw s.ctrl) (ceilDiv_mcuSize_pos hh s.ctrl)
  obtain ⟨p, ps, hps⟩ := List.exists_cons_of_length_pos hmcus
  obtain ⟨u, hu⟩ := encMcuBody_lumaStops (s := atPos p (dcResetBody s)) (readsAnswered_of_frame hw hh ha) h
  have hstop : codeMcus (p :: ps) (dcResetBody s) = .error (.unwritten .qtab k u) := by
    rw [codeMcus_cons]
    exact congrArg (·.bind (codeMcus ps)) hu
  refine ⟨u, ?_⟩
  rw [encScanBody_bind, hps, hstop]
  rfl

/-- A body that stops at the same entry from every state that differs only in what races and what was drawn stops
there with the overlap rule. -/
theorem withOverlap_unwritten {body : State → Except Halt State} {s : State} {r : Region} {k : Nat}
    (h : ∀ n rs, ∃ u, body (advance n { s with racySrc := rs }) = .error (.unwritten r k u)) :
    ∃ u, withOverlap body s = .error (.unwritten r k u) := by
  obtain ⟨n, rs, hbody⟩ := withOverlap_cases body s
  rw [hbody]
  exact h n rs

/-! The commands. -/

/-- A command whose body meets an unwritten entry stops in the model fault of R268. -/
theorem exec_unwritten {i : Instr} {s u : State} {r : Region} {k : Nat} (hc : checkOf i s = none)
    (h : bodyOf i s = .error (.unwritten r k u)) : exec i s = .fault (.unwritten r k) := by
  rw [exec_eq, hc, h]
  rfl

/-- Settles O60: each clause is where the body of its command stops. -/
theorem unwrittenEntryStops : Obligations.UnwrittenEntryStops := by
  unfold Obligations.UnwrittenEntryStops
  intro s
  refine ⟨fun b k hk hw hnone => exec_unwritten rfl (fdctBody_unwritten hk hw hnone),
    fun tb k hk hbefore hnone => exec_unwritten rfl (quantBody_unwrittenDivisor hk hbefore hnone),
    fun k hk hbefore hnone => exec_unwritten rfl (zigzagBody_unwritten hk hbefore hnone),
    fun tb k hk hd hw hnone => exec_unwritten rfl (quantBody_unwrittenCoef hk hd hw hnone),
    fun c hnone => exec_unwritten rfl (encBlockBody_unwrittenDc hnone), ?_, ?_, ?_, ?_⟩
  case refine_1 =>
    intro c k hk hk' hw hnone hd hlt hcount hcode
    have hsome : ∀ j < k, (tabGet s.zzbuf j).isSome = true := fun j hj => by simpa using hw j hj
    have hac : AcReady s 1 (k - 1) := fun j hj hj' => ⟨hsome j (by omega), hlt j hj (by omega)⟩
    obtain ⟨u, hu⟩ := codeHead_before_completes hk' hd hac hcount hcode
    exact exec_unwritten rfl (encBlockBody_unwrittenAc hk hk' (hsome 0 (by omega)) hd hac hnone hu)
  case refine_2 =>
    intro c pre y post hs hcod hsplit hcodes hnone hroom
    obtain ⟨u, hu⟩ := encBlockBody_unwrittenCode hs hcod hsplit hcodes hnone hroom
    exact exec_unwritten rfl hu
  case refine_3 =>
    intro c pre y post hs hcod hsplit hcount hnone
    obtain ⟨u, hu⟩ := encBlockBody_unwrittenCounter hs hcod hsplit hcount hnone
    exact exec_unwritten rfl hu
  case refine_4 =>
    intro k hk hbefore hnone
    have hluma : LumaStopsAt s k := ⟨hk, hbefore, hnone⟩
    refine ⟨fun hc ha => ?_, fun hc ha => ?_⟩
    · obtain ⟨u, hu⟩ := withOverlap_unwritten fun n rs =>
        encMcuBody_lumaStops (s := advance n { s with racySrc := rs }) ha hluma
      exact exec_unwritten hc hu
    · obtain ⟨u, hu⟩ := withOverlap_unwritten fun n rs =>
        encScanBody_lumaStops (s := advance n { s with racySrc := rs }) hc ha hluma
      exact exec_unwritten hc hu

end Sys2Proof.Machine

/-! PROOF. The state after reset, both resets of an idle block and during a command, and register-port writes beside
a running command (70_reset_and_hazards.md R290 to R293, R300). -/

namespace Sys2Proof.Machine

open Sys2Proof.Safety

/-! The registers after a reset (R290). -/

theorem registersReset_reset : RegistersReset State.reset := by
  refine ⟨rfl, rfl, fun r hid hctrl => ?_⟩
  cases r with
  | id => exact absurd rfl hid
  | ctrl => exact absurd rfl hctrl
  | _ => rfl

/-- What the registers show depends on nothing that `resetRegisters` keeps. -/
theorem registersReset_resetRegisters (s : State) : RegistersReset (resetRegisters s) := registersReset_reset

theorem registersReset_softReset (s : State) : RegistersReset (softReset s) :=
  registersReset_resetRegisters (abortRunning s)

theorem registersReset_hardReset (s : State) : RegistersReset (hardReset s) :=
  registersReset_resetRegisters (abortRunning s)

theorem tablesEmpty_hardReset (s : State) : TablesEmpty (hardReset s) := ⟨rfl, rfl, rfl, rfl, rfl, rfl, rfl⟩

/-- Settles O12: nothing is listed in any store, and the registers hold their reset values. -/
theorem invariantAtReset : Obligations.InvariantAtReset := by
  have hstorage : StorageInv State.reset := by
    unfold StorageInv
    decide
  exact ⟨hstorage, controlInv_reset⟩

/-- Settles O13: an empty store has no value at any index. -/
theorem resetState : Obligations.ResetState :=
  ⟨registersReset_reset, rfl, rfl, fun _ => ⟨rfl, rfl, rfl, rfl, rfl, rfl, rfl⟩⟩

/-! The two reset steps (R290, R291). -/

theorem step_softReset {s : State} {w : Word} {rest : List Event} (h : s.inputs = .regWrite 0x004#16 32 w :: rest)
    (hw : w.getLsbD 0 = true) : step s = .next (softReset { s with inputs := rest }) := by
  rw [step_regWrite (tgt := .reg .ctrl) h rfl, writeTarget_ctrl, if_pos hw]

theorem step_hardReset {s : State} {rest : List Event} (h : s.inputs = .hardReset :: rest) :
    step s = .next (hardReset { s with inputs := rest }) := step_cons h

/-- Settles O14: with no command to end, a reset is `resetRegisters`, which keeps tables and memory, and a hard
reset forgets the tables after it. -/
theorem resetsWhenIdle : Obligations.ResetsWhenIdle := by
  unfold Obligations.ResetsWhenIdle
  intro s w rest hidle
  refine ⟨fun h hw => ⟨_, step_softReset h hw, registersReset_softReset _, ?_⟩,
    fun h => ⟨_, step_hardReset h, registersReset_hardReset _, tablesEmpty_hardReset _, ?_⟩⟩
  · rw [softReset_idle { s with inputs := rest } hidle]
    exact ⟨rfl, rfl, rfl, rfl, rfl, rfl, rfl, rfl⟩
  · rw [hardReset_idle { s with inputs := rest } hidle]
    rfl

/-! The bytes in memory when a reset ends a command (R292). -/

/-- Memory m is that of s with the first k bytes from DSTPTR on as t shows them, and t has at least k bytes there. -/
def TookBytes (s t : State) (m : List Host.Cell) (k : Nat) : Prop :=
  s.dstPtr.toNat + k ≤ t.dstPtr.toNat ∧
  ∀ a : Nat, Memory.read m a =
    if s.dstPtr.toNat ≤ a ∧ a < s.dstPtr.toNat + k then Memory.read t.mem a else Memory.read s.mem a

theorem tookBytes_zero {s t : State} (hle : s.dstPtr.toNat ≤ t.dstPtr.toNat) : TookBytes s t s.mem 0 :=
  ⟨hle, fun _ => (if_neg (by omega)).symm⟩

theorem writePrefix_tookBytes {s t : State} (hle : s.dstPtr.toNat ≤ t.dstPtr.toNat) :
    ∃ k, TookBytes s t (writePrefix s t).mem k := by
  have hlen : (t.dstPtr - s.dstPtr).toNat = t.dstPtr.toNat - s.dstPtr.toNat := BitVec.toNat_sub_of_le hle
  simp only [writePrefix]
  split
  · exact ⟨0, tookBytes_zero hle⟩
  · have hk : (Config.free t.draws).toNat % ((t.dstPtr - s.dstPtr).toNat + 1) ≤ (t.dstPtr - s.dstPtr).toNat :=
      Nat.le_of_lt_succ (Nat.mod_lt _ (Nat.succ_pos _))
    have hend := t.dstPtr.isLt
    exact ⟨_, by omega, fun a => read_copyBytes _ _ _ _ a (by omega)⟩

theorem dstPtr_le_outputOf (i : Instr) (s : State) : s.dstPtr.toNat ≤ (outputOf i s).dstPtr.toNat := by
  obtain ⟨n, rs, -, hle, -⟩ := outputOf_reaches engineFrame_rel freqClearBody_engine i s
  exact hle

theorem outputOf_withinLimit (i : Instr) (s : State) : WithinLimit s (outputOf i s) := by
  obtain ⟨n, rs, h⟩ := outputOf_reaches withinLimit_rel (fun _ => ⟨rfl, .inl rfl⟩) i s
  exact h

/-- The bytes that a command is taken to write are those exec writes; with `outputOf_dstPtr`. -/
theorem outputOf_mem {i : Instr} {s u : State} (h : exec i s = .next u) : (outputOf i s).mem = u.mem := by
  cases hc : checkOf i s with
  | some sub =>
    rw [exec_eq, hc] at h
    cases h
    simp only [outputOf, runOf, hc]
    rfl
  | none =>
    rw [exec_eq_finish i s hc] at h
    rcases finish_cases _ _ _ h with ⟨t, hrun, rfl⟩ | ⟨code, info, t, hrun, rfl⟩
    · rw [outputOf, hrun]
      rfl
    · rw [outputOf, hrun]
      exact (freed_mem _ t).symm

theorem abortBytes_not_running {s : State} (h : running s = none) : abortBytes s = s := by
  simp only [abortBytes, runningOutput, h]

/-- A reset leaves in memory some first bytes of those the running command would write. -/
theorem abortBytes_tookBytes {s : State} {i : Instr} (h : running s = some i) :
    ∃ k, TookBytes s (outputOf i s) (abortBytes s).mem k := by
  simp only [abortBytes, runningOutput, h]
  cases (footprint s.ctrl i).stream with
  | false => exact ⟨0, tookBytes_zero (dstPtr_le_outputOf i s)⟩
  | true => exact writePrefix_tookBytes (dstPtr_le_outputOf i s)

/-- WriteByte's limit check bounds what a reset leaves in memory (43_entropy.md R192). -/
theorem abortBytes_outside (s : State) {a : Nat} (ha : ¬ (s.dstPtr.toNat ≤ a ∧ a < s.dstLim.toNat)) :
    Memory.read (abortBytes s).mem a = Memory.read s.mem a := by
  cases hr : running s with
  | none => rw [abortBytes_not_running hr]
  | some i =>
    obtain ⟨k, hk, hread⟩ := abortBytes_tookBytes hr
    obtain ⟨-, hptr⟩ := outputOf_withinLimit i s
    rw [hread, if_neg]
    rcases hptr with heq | hle
    · rw [heq] at hk
      omega
    · omega

/-- Ending a command changes memory and the count of free values, before its tables are freed. -/
theorem abortBytes_eq (s : State) : ∃ m d, abortBytes s = { s with mem := m, draws := d } := by
  unfold abortBytes writePrefix
  split
  · exact ⟨s.mem, s.draws, rfl⟩
  · dsimp only
    split
    · exact ⟨s.mem, _, rfl⟩
    · exact ⟨_, _, rfl⟩

/-! The tables and buffers when a reset ends a command (R291, R292). -/

/-- Freeing a footprint's tables is freeing a footprint that names no registers. -/
theorem freeTables_frame (fp : Footprint) (s : State) : FreeFrame s (freeTables fp s) :=
  free_frame { fp with preds := [], pack := false, mcuPos := false } s

theorem freeTables_within (fp : Footprint) (s : State) :
    Within { fp with preds := [], pack := false, mcuPos := false } s (freeTables fp s) :=
  within_free { fp with preds := [], pack := false, mcuPos := false } s

theorem tablesKept_freeTables (fp : Footprint) (s : State) : TablesKept fp s (freeTables fp s) := by
  obtain ⟨heq, -⟩ := freeTables_frame fp s
  have hw := freeTables_within fp s
  exact ⟨by rw [heq], by rw [heq], hw.coef, hw.qcoef, hw.zzbuf, fun k _ => hw.blk k, hw.freq⟩

theorem freeTables_mem (fp : Footprint) (s : State) : (freeTables fp s).mem = s.mem := by
  rw [(freeTables_frame fp s).1]

/-- A reset ends the running command in one form, whether the accepted word is a command or not: an illegal word
writes nothing (30_encoding.md R106). -/
theorem abortRunning_eq (s : State) : abortRunning s = freeTables (runningFootprint s) (abortBytes s) := by
  unfold abortRunning runningFootprint
  cases hr : running s with
  | none => exact (abortBytes_not_running hr).symm
  | some i => rfl

theorem abortRunning_mem (s : State) : (abortRunning s).mem = (abortBytes s).mem := by
  rw [abortRunning_eq, freeTables_mem]

theorem tablesKept_abortRunning (s : State) : TablesKept (runningFootprint s) s (abortRunning s) := by
  have hkept := tablesKept_freeTables (runningFootprint s) (abortBytes s)
  rw [← abortRunning_eq] at hkept
  obtain ⟨m, d, heq⟩ := abortBytes_eq s
  rw [heq] at hkept
  exact hkept

theorem tablesKept_softReset (s : State) : TablesKept (runningFootprint s) s (softReset s) :=
  tablesKept_abortRunning s

/-- Where exec takes the running command to u, a reset leaves in memory some first bytes of those exec writes. -/
theorem abortBytes_tookBytes_exec {s u : State} {i : Instr} (hr : running s = some i) (h : exec i s = .next u) :
    ∃ k, TookBytes s u (abortBytes s).mem k := by
  obtain ⟨k, hk⟩ := abortBytes_tookBytes hr
  rw [TookBytes, outputOf_dstPtr h, outputOf_mem h] at hk
  exact ⟨k, hk⟩

/-- What a reset leaves in memory beside a running command, for the state t after it. -/
theorem mem_after_reset {s t : State} {rest : List Event} (hbusy : s.status.busy = true)
    (ht : t.mem = (abortBytes { s with inputs := rest }).mem) :
    (∀ a : Nat, ¬ (s.dstPtr.toNat ≤ a ∧ a < s.dstLim.toNat) → Memory.read t.mem a = Memory.read s.mem a) ∧
    ∀ (i : Instr) (u : State), decode s.lastCmd = .ok i → exec i { s with inputs := rest } = .next u →
      ∃ k : Nat, TookBytes s u t.mem k := by
  rw [ht]
  exact ⟨fun a ha => abortBytes_outside { s with inputs := rest } ha, fun i u hd h =>
    abortBytes_tookBytes_exec (s := { s with inputs := rest }) (running_accepted hbusy hd) h⟩

/-- Settles O15: both resets end the command by `abortRunning`, whose memory `mem_after_reset` and whose tables
`tablesKept_abortRunning` describe. -/
theorem resetDuringCommand : Obligations.ResetDuringCommand := by
  unfold Obligations.ResetDuringCommand
  intro s e rest hbusy h hreset
  have hmem := abortRunning_mem { s with inputs := rest }
  rcases hreset with rfl | ⟨w, rfl, hw⟩
  · exact ⟨hardReset { s with inputs := rest }, step_hardReset h, registersReset_hardReset _,
      fun _ => tablesEmpty_hardReset _, fun hne => absurd rfl hne, mem_after_reset hbusy hmem⟩
  · exact ⟨softReset { s with inputs := rest }, step_softReset h hw, registersReset_softReset _,
      nofun, fun _ => tablesKept_softReset { s with inputs := rest }, mem_after_reset hbusy hmem⟩

/-! Register-port writes while a command runs (R300). -/

/-- The registers stand at the first offsets of the window, and nothing else there names one (10_state.md R23). -/
theorem decodeOffset_reg_iff (off : Nat) (r : Reg) :
    decodeOffset off = some (.reg r) ↔ off % 4 = 0 ∧ off < 0x400 ∧ registerMap[off / 4]? = some r := by
  simp [decodeOffset, ite_eq_iff]

/-- CTRL has one offset (10_state.md R23). -/
theorem decodeOffset_ctrl {off : Nat} (h : decodeOffset off = some (.reg .ctrl)) : off = 4 := by
  obtain ⟨hal, -, hreg⟩ := (decodeOffset_reg_iff off .ctrl).1 h
  have hctrl : registerMap[1]? = some Reg.ctrl := rfl
  have hindex : 1 = off / 4 := (List.getElem?_inj (by decide) (by decide)).1 (hctrl.trans hreg.symm)
  omega

/-- The registers whose writes R300 rules one by one; every other target is plain storage, CTRL with its SRST
apart. -/
def ruledTargets : List Target :=
  [.reg .cmd, .reg .status, .reg .irqEn, .reg .irqStat, .reg .id, .reg .errInfo]

theorem writeTarget_plain {w : Word} {tgt : Target} (s : State) (hplain : tgt ∉ ruledTargets)
    (hctrl : ¬ (tgt = .reg .ctrl ∧ w.getLsbD 0 = true)) :
    writeTarget w s tgt = { storeUnlessBusy w tgt s with resp := .done } := by
  cases tgt with
  | reg r =>
    cases r with
    | ctrl => rw [writeTarget_ctrl, if_neg fun hw => hctrl ⟨rfl, hw⟩]
    | id | status | cmd | errInfo | irqEn | irqStat => exact absurd (by decide) hplain
    | _ => rfl
  | _ => rfl

theorem writeTarget_plain_busy {w : Word} {tgt : Target} {s : State} (hbusy : s.status.busy = true)
    (hplain : tgt ∉ ruledTargets) (hctrl : ¬ (tgt = .reg .ctrl ∧ w.getLsbD 0 = true)) :
    writeTarget w s tgt = { s with resp := .done, status := { s.status with wIgn := true } } := by
  rw [writeTarget_plain s hplain hctrl, storeUnlessBusy, if_pos hbusy]

/-- BUSY is 1 in t, and from s to t at most the port's answer, STATUS, IRQEN, IRQSTAT and ERRINFO changed. -/
def KeepsRunning (s t : State) : Prop :=
  t.status.busy = true ∧
  t = { s with resp := t.resp, status := t.status, irqEn := t.irqEn, irqStat := t.irqStat, errInfo := t.errInfo }

theorem writeTarget_keepsRunning {w : Word} {tgt : Target} {s : State} (hbusy : s.status.busy = true)
    (hctrl : ¬ (tgt = .reg .ctrl ∧ w.getLsbD 0 = true)) : KeepsRunning s (writeTarget w s tgt) := by
  by_cases hplain : tgt ∈ ruledTargets
  · simp only [ruledTargets, List.mem_cons, List.not_mem_nil, or_false] at hplain
    rcases hplain with rfl | rfl | rfl | rfl | rfl | rfl
    · rw [writeTarget, submit_rejected w (.inl hbusy)]
      exact ⟨hbusy, rfl⟩
    · rw [writeTarget, writeStatus_eq]
      exact ⟨hbusy, rfl⟩
    all_goals exact ⟨hbusy, rfl⟩
  · rw [writeTarget_plain_busy hbusy hplain hctrl]
    exact ⟨hbusy, rfl⟩

/-- A register-port write is a reset, or it keeps a running command running. -/
theorem regWrite_keepsRunning {off : BitVec 16} {width : Nat} {w : Word} {s : State} (hbusy : s.status.busy = true)
    (hreset : ¬ (off = 0x004#16 ∧ width = 32 ∧ w.getLsbD 0 = true)) : KeepsRunning s (regWrite off width w s) := by
  cases ht : portTarget off width with
  | none =>
    rw [regWrite_no_target w s ht]
    exact ⟨hbusy, rfl⟩
  | some tgt =>
    rw [regWrite, ht]
    refine writeTarget_keepsRunning hbusy ?_
    rintro ⟨rfl, hw⟩
    obtain ⟨hwidth, hd⟩ : width = 32 ∧ decodeOffset off.toNat = some (.reg .ctrl) := by
      simpa [portTarget] using ht
    exact hreset ⟨BitVec.eq_of_toNat_eq (decodeOffset_ctrl hd), hwidth, hw⟩

/-- Settles O16: by cases on what the offset names. -/
theorem busyWriteIgnored : Obligations.BusyWriteIgnored := by
  unfold Obligations.BusyWriteIgnored
  intro s off width w rest hbusy h
  refine ⟨fun hreset => ⟨_, step_cons h, regWrite_keepsRunning (s := { s with inputs := rest }) hbusy hreset⟩, ?_⟩
  rintro tgt rfl hd hplain hctrl
  rw [step_regWrite h hd, writeTarget_plain_busy (s := { s with inputs := rest }) hbusy hplain hctrl]

end Sys2Proof.Machine
